-- ==== Sys2Proof/Word.lean ====
section
/-! DEFINITION. The value types of the machine: bytes, words, register numbers and address fields (10_state.md, 30_encoding.md R90-R93). -/

namespace Sys2Proof

/-- An 8-bit unsigned value: a general register, a timer, a memory byte, the immediate `kk` (R20, R64, R92). -/
abbrev Byte := BitVec 8

/-- A 16-bit unsigned value: I, PC, a stack entry, an opcode word, the key latch (R26, R28, R34, R40, R90). -/
abbrev Word := BitVec 16

/-- A 4-bit field: the register numbers `x` and `y`, the sprite height `n`, a key index (R91, R92, R220). -/
abbrev Nibble := BitVec 4

/-- The 12-bit address field `nnn` (R93). -/
abbrev Addr := BitVec 12

end Sys2Proof
end

