-- ==== Sys2Proof/Syntax.lean ====
section
/-! DEFINITION. The 35 instructions, one constructor per row of spec/opcode_table.json (30_encoding.md R98). -/

namespace Sys2Proof

/-- The instructions of R98. A word no row matches is no instruction: the decoder rejects it by name (R104). -/
inductive Instr where
  /-- `00E0` CLS (R203). -/
  | cls
  /-- `00EE` RET (R123). -/
  | ret
  /-- `0NNN` SYS nnn, every other word of group 0 (R120). -/
  | sys (nnn : Addr)
  /-- `1NNN` JP nnn (R121). -/
  | jp (nnn : Addr)
  /-- `2NNN` CALL nnn (R122). -/
  | call (nnn : Addr)
  /-- `3XKK` SE Vx, kk (R125). -/
  | seVxKk (x : Nibble) (kk : Byte)
  /-- `4XKK` SNE Vx, kk (R126). -/
  | sneVxKk (x : Nibble) (kk : Byte)
  /-- `5XY0` SE Vx, Vy (R127). -/
  | seVxVy (x y : Nibble)
  /-- `6XKK` LD Vx, kk (R142). -/
  | ldVxKk (x : Nibble) (kk : Byte)
  /-- `7XKK` ADD Vx, kk (R143). -/
  | addVxKk (x : Nibble) (kk : Byte)
  /-- `8XY0` LD Vx, Vy (R144). -/
  | ldVxVy (x y : Nibble)
  /-- `8XY1` OR Vx, Vy (R145). -/
  | orVxVy (x y : Nibble)
  /-- `8XY2` AND Vx, Vy (R146). -/
  | andVxVy (x y : Nibble)
  /-- `8XY3` XOR Vx, Vy (R147). -/
  | xorVxVy (x y : Nibble)
  /-- `8XY4` ADD Vx, Vy (R148). -/
  | addVxVy (x y : Nibble)
  /-- `8XY5` SUB Vx, Vy (R149). -/
  | subVxVy (x y : Nibble)
  /-- `8XY6` SHR Vx, Vy (R150). -/
  | shrVxVy (x y : Nibble)
  /-- `8XY7` SUBN Vx, Vy (R151). -/
  | subnVxVy (x y : Nibble)
  /-- `8XYE` SHL Vx, Vy (R152). -/
  | shlVxVy (x y : Nibble)
  /-- `9XY0` SNE Vx, Vy (R128). -/
  | sneVxVy (x y : Nibble)
  /-- `ANNN` LD I, nnn (R170). -/
  | ldI (nnn : Addr)
  /-- `BNNN` JP V0, nnn (R124). -/
  | jpV0 (nnn : Addr)
  /-- `CXKK` RND Vx, kk (R153). -/
  | rnd (x : Nibble) (kk : Byte)
  /-- `DXYN` DRW Vx, Vy, n (R204). -/
  | drw (x y n : Nibble)
  /-- `EX9E` SKP Vx (R222). -/
  | skp (x : Nibble)
  /-- `EXA1` SKNP Vx (R223). -/
  | sknp (x : Nibble)
  /-- `FX07` LD Vx, DT (R190). -/
  | ldVxDt (x : Nibble)
  /-- `FX0A` LD Vx, K (R224). -/
  | ldVxK (x : Nibble)
  /-- `FX15` LD DT, Vx (R191). -/
  | ldDtVx (x : Nibble)
  /-- `FX18` LD ST, Vx (R192). -/
  | ldStVx (x : Nibble)
  /-- `FX1E` ADD I, Vx (R171). -/
  | addIVx (x : Nibble)
  /-- `FX29` LD F, Vx (R172). -/
  | ldFVx (x : Nibble)
  /-- `FX33` LD B, Vx (R173). -/
  | ldBVx (x : Nibble)
  /-- `FX55` LD [I], Vx (R174). -/
  | ldMemVx (x : Nibble)
  /-- `FX65` LD Vx, [I] (R175). -/
  | ldVxMem (x : Nibble)
  deriving DecidableEq, Repr

end Sys2Proof
end

