-- ==== Sys2Proof/WellFormed.lean ====
section
/-! DEFINITION. Which terms of `Instr` are instructions: the field types bound every operand, and SYS leaves out the words of CLS and RET (30_encoding.md R99). -/

namespace Sys2Proof

/-- A well-formed instruction. `0x00E0` is CLS and `0x00EE` is RET, so neither is a SYS word (R99);
every other term stands for exactly one word. -/
def Instr.wellFormed : Instr → Bool
  | .sys nnn => nnn != 0x0E0#12 && nnn != 0x0EE#12
  | _ => true

end Sys2Proof
end

