-- ==== Sys2Proof/Decode.lean ====
section
/-! DEFINITION. The decoder of 30_encoding.md R111, total on all 65536 words and on any bytes, and the encoder written from the format table and R98. -/

namespace Sys2Proof

/-- Why a byte sequence is no instruction. -/
inductive Reject where
  /-- A word no row of the opcode table matches; the CPU executes it as a no-op (R104, R105). -/
  | unrecognised (op : Word)
  /-- Fewer than the two bytes an instruction has (R90). -/
  | truncated
  deriving DecidableEq, Repr

/-- The group `G = op[15:12]` (R8, R98). -/
def fieldG (op : Word) : Nibble := op.extractLsb' 12 4

/-- The register field `x = op[11:8]` (R91). -/
def fieldX (op : Word) : Nibble := op.extractLsb' 8 4

/-- The register field `y = op[7:4]` (R91). -/
def fieldY (op : Word) : Nibble := op.extractLsb' 4 4

/-- The nibble `n = op[3:0]` (R92). -/
def fieldN (op : Word) : Nibble := op.extractLsb' 0 4

/-- The immediate byte `kk = op[7:0]` (R92). -/
def fieldKK (op : Word) : Byte := op.extractLsb' 0 8

/-- The address `nnn = op[11:0]` (R93). -/
def fieldNNN (op : Word) : Addr := op.extractLsb' 0 12

/-- Group 0 decodes on the whole word (R99). -/
def decodeGroup0 (op : Word) : Instr :=
  if op = 0x00E0#16 then .cls
  else if op = 0x00EE#16 then .ret
  else .sys (fieldNNN op)

/-- Group 8 decodes on the low nibble (R100). -/
def decodeGroup8 (op : Word) : Except Reject Instr :=
  match (fieldN op).toNat with
  | 0x0 => .ok (.ldVxVy (fieldX op) (fieldY op))
  | 0x1 => .ok (.orVxVy (fieldX op) (fieldY op))
  | 0x2 => .ok (.andVxVy (fieldX op) (fieldY op))
  | 0x3 => .ok (.xorVxVy (fieldX op) (fieldY op))
  | 0x4 => .ok (.addVxVy (fieldX op) (fieldY op))
  | 0x5 => .ok (.subVxVy (fieldX op) (fieldY op))
  | 0x6 => .ok (.shrVxVy (fieldX op) (fieldY op))
  | 0x7 => .ok (.subnVxVy (fieldX op) (fieldY op))
  | 0xE => .ok (.shlVxVy (fieldX op) (fieldY op))
  | _ => .error (.unrecognised op)

/-- Group E decodes on the low byte (R101). -/
def decodeGroupE (op : Word) : Except Reject Instr :=
  if fieldKK op = 0x9E#8 then .ok (.skp (fieldX op))
  else if fieldKK op = 0xA1#8 then .ok (.sknp (fieldX op))
  else .error (.unrecognised op)

/-- Group F decodes on the low byte (R102). -/
def decodeGroupF (op : Word) : Except Reject Instr :=
  if fieldKK op = 0x07#8 then .ok (.ldVxDt (fieldX op))
  else if fieldKK op = 0x0A#8 then .ok (.ldVxK (fieldX op))
  else if fieldKK op = 0x15#8 then .ok (.ldDtVx (fieldX op))
  else if fieldKK op = 0x18#8 then .ok (.ldStVx (fieldX op))
  else if fieldKK op = 0x1E#8 then .ok (.addIVx (fieldX op))
  else if fieldKK op = 0x29#8 then .ok (.ldFVx (fieldX op))
  else if fieldKK op = 0x33#8 then .ok (.ldBVx (fieldX op))
  else if fieldKK op = 0x55#8 then .ok (.ldMemVx (fieldX op))
  else if fieldKK op = 0x65#8 then .ok (.ldVxMem (fieldX op))
  else .error (.unrecognised op)

/-- The decode algorithm of R111: groups 5 and 9 also look at the low nibble (R103). -/
def decode (op : Word) : Except Reject Instr :=
  match (fieldG op).toNat with
  | 0x0 => .ok (decodeGroup0 op)
  | 0x1 => .ok (.jp (fieldNNN op))
  | 0x2 => .ok (.call (fieldNNN op))
  | 0x3 => .ok (.seVxKk (fieldX op) (fieldKK op))
  | 0x4 => .ok (.sneVxKk (fieldX op) (fieldKK op))
  | 0x5 => if fieldN op = 0#4 then .ok (.seVxVy (fieldX op) (fieldY op)) else .error (.unrecognised op)
  | 0x6 => .ok (.ldVxKk (fieldX op) (fieldKK op))
  | 0x7 => .ok (.addVxKk (fieldX op) (fieldKK op))
  | 0x8 => decodeGroup8 op
  | 0x9 => if fieldN op = 0#4 then .ok (.sneVxVy (fieldX op) (fieldY op)) else .error (.unrecognised op)
  | 0xA => .ok (.ldI (fieldNNN op))
  | 0xB => .ok (.jpV0 (fieldNNN op))
  | 0xC => .ok (.rnd (fieldX op) (fieldKK op))
  | 0xD => .ok (.drw (fieldX op) (fieldY op) (fieldN op))
  | 0xE => decodeGroupE op
  | 0xF => decodeGroupF op
  | _ => .error (.unrecognised op)

/-- The opcode word two bytes form: the byte at the lower address is `op[15:8]` (R70, R95). -/
def wordOfBytes (hi lo : Byte) : Word := hi ++ lo

/-- The two bytes of an opcode word, in address order (R70). -/
def bytesOfWord (op : Word) : List Byte := [op.extractLsb' 8 8, op.extractLsb' 0 8]

/-- The instruction a byte sequence begins with (R90, R95). -/
def decodeBytes : List Byte → Except Reject Instr
  | hi :: lo :: _ => decode (wordOfBytes hi lo)
  | _ => .error .truncated

/-- The word of format `XKK`: group, x, kk. -/
def formatXKK (g x : Nibble) (kk : Byte) : Word := (g ++ x : BitVec 8) ++ kk

/-- The word of format `XYN`: group, x, y, n. -/
def formatXYN (g x y n : Nibble) : Word := (g ++ x : BitVec 8) ++ (y ++ n : BitVec 8)

/-- The word of format `NNN`: group, nnn. -/
def formatNNN (g : Nibble) (nnn : Addr) : Word := g ++ nnn

/-- The word of an instruction, from the format table of 30_encoding.md and the patterns of R98. -/
def encode : Instr → Word
  | .cls => 0x00E0#16
  | .ret => 0x00EE#16
  | .sys nnn => formatNNN 0x0 nnn
  | .jp nnn => formatNNN 0x1 nnn
  | .call nnn => formatNNN 0x2 nnn
  | .seVxKk x kk => formatXKK 0x3 x kk
  | .sneVxKk x kk => formatXKK 0x4 x kk
  | .seVxVy x y => formatXYN 0x5 x y 0x0
  | .ldVxKk x kk => formatXKK 0x6 x kk
  | .addVxKk x kk => formatXKK 0x7 x kk
  | .ldVxVy x y => formatXYN 0x8 x y 0x0
  | .orVxVy x y => formatXYN 0x8 x y 0x1
  | .andVxVy x y => formatXYN 0x8 x y 0x2
  | .xorVxVy x y => formatXYN 0x8 x y 0x3
  | .addVxVy x y => formatXYN 0x8 x y 0x4
  | .subVxVy x y => formatXYN 0x8 x y 0x5
  | .shrVxVy x y => formatXYN 0x8 x y 0x6
  | .subnVxVy x y => formatXYN 0x8 x y 0x7
  | .shlVxVy x y => formatXYN 0x8 x y 0xE
  | .sneVxVy x y => formatXYN 0x9 x y 0x0
  | .ldI nnn => formatNNN 0xA nnn
  | .jpV0 nnn => formatNNN 0xB nnn
  | .rnd x kk => formatXKK 0xC x kk
  | .drw x y n => formatXYN 0xD x y n
  | .skp x => formatXKK 0xE x 0x9E
  | .sknp x => formatXKK 0xE x 0xA1
  | .ldVxDt x => formatXKK 0xF x 0x07
  | .ldVxK x => formatXKK 0xF x 0x0A
  | .ldDtVx x => formatXKK 0xF x 0x15
  | .ldStVx x => formatXKK 0xF x 0x18
  | .addIVx x => formatXKK 0xF x 0x1E
  | .ldFVx x => formatXKK 0xF x 0x29
  | .ldBVx x => formatXKK 0xF x 0x33
  | .ldMemVx x => formatXKK 0xF x 0x55
  | .ldVxMem x => formatXKK 0xF x 0x65

/-- The bytes of an instruction as memory holds them, high byte first (R70). -/
def encodeBytes (i : Instr) : List Byte := bytesOfWord (encode i)

/-- The opcode word whose low `nbits` bits are `w` and whose other bits are 0, numbered as the opcode
table numbers them. -/
def tableWord (nbits w : Nat) : Word := BitVec.ofNat 16 (w % 2 ^ nbits)

/-- The instruction the decoder reads from an instruction whose bits are `w`, laid out as the hardware
stores it. -/
def decodeTableWord (nbits w : Nat) : Option Instr :=
  match decodeBytes (bytesOfWord (tableWord nbits w)) with
  | .ok i => some i
  | .error _ => none

end Sys2Proof
end

