-- ==== Sys2Proof/Config.lean ====
section
/-! DEFINITION. The OPEN implementation parameters (00_scope.md R7) as one record, and the model's free values. -/

namespace Sys2Proof

/-- `RESET_POLICY` (R7, D5): what a cell that construction does not write holds. -/
inductive ResetPolicy where
  | unwritten
  | zero
  deriving DecidableEq, Repr

/-- `ADDI_VF` (R7, D8): VF after `7XKK` when the sum does not exceed 255. -/
inductive AddiVf where
  | keep
  | clear
  deriving DecidableEq, Repr

/-- `VF_ORDER` (R7, D9): which write wins when a flag-writing ALU instruction has VF as its destination. -/
inductive VfOrder where
  | flagLast
  | flagFirst
  deriving DecidableEq, Repr

/-- `DRW_VF` (R7, D10): VF after `DXYN` when no pixel collided. -/
inductive DrwVf where
  | clear
  | keep
  deriving DecidableEq, Repr

/-- `FONT_HI` (R7, D14): the glyph address `FX29` gives when Vx > 15. -/
inductive FontHi where
  | unmasked
  | lowNibble
  deriving DecidableEq, Repr

/-- The OPEN parameters of R7, fixed for one machine. DESIGN CHOICE (log 4): a state carries its
configuration, so that a statement about every state holds for every setting. -/
structure Config where
  resetPolicy : ResetPolicy
  addiVf : AddiVf
  vfOrder : VfOrder
  drwVf : DrwVf
  fontHi : FontHi
  /-- `FONT_DATA`: the 80 glyph bytes of 0x000..0x04F (R67, R68). -/
  fontData : Vector Byte 80
  deriving DecidableEq, Repr

/-- Free value: the byte the random port supplies to a CPU step the schedule does not name (R258, D20; log 6). -/
opaque Config.randomByte : Nat → Byte

/-- Free values: how many of the CPU's free choices in `StopRequested` fall between one that exits and the next
that does (R278; log 7). Any numbers, but finite ones. -/
opaque Config.exitGap : Nat → Nat

end Sys2Proof
end

