-- ==== Sys2Proof/Machine/Params.lean ====
section
/-! DEFINITION. The fixed parameters of this hardware (00_scope.md R6) and the spec's defaults of the OPEN ones (R7). -/

namespace Sys2Proof.Machine

/-- `MEM_SIZE`: 4095 byte cells, addresses 0x000..0xFFE (R6, R60, C1). -/
def memSize : Nat := 4095

/-- `PROG_BASE`: where a program is loaded and where PC starts (R6, R31). -/
def progBase : Nat := 0x200

/-- `LOAD_LIMIT`: the longest program, 0xFFF - 0x200 bytes (R6, R273, C2). -/
def loadLimit : Nat := 0xFFF - 0x200

/-- `FONT_BASE`: the address of glyph 0 (R6). -/
def fontBase : Nat := 0x000

/-- `GLYPH_BYTES`: the bytes of one glyph (R6, R68). -/
def glyphBytes : Nat := 5

/-- `NKEYS` (R6, R220). -/
def numKeys : Nat := 16

/-- `OPCODE_BYTES` (R6, R90). -/
def opcodeBytes : Nat := 2

/-- The default `FONT_DATA`, the table of R68 (log 3). -/
def defaultFont : Vector Byte 80 := #v[
  0xF0, 0x90, 0x90, 0x90, 0xF0, 0x20, 0x60, 0x20, 0x20, 0x70,
  0xF0, 0x10, 0xF0, 0x80, 0xF0, 0xF0, 0x10, 0xF0, 0x10, 0xF0,
  0x90, 0x90, 0xF0, 0x10, 0x10, 0xF0, 0x80, 0xF0, 0x10, 0xF0,
  0xF0, 0x80, 0xF0, 0x90, 0xF0, 0xF0, 0x10, 0x20, 0x40, 0x40,
  0xF0, 0x90, 0xF0, 0x90, 0xF0, 0xF0, 0x90, 0xF0, 0x10, 0xF0,
  0xF0, 0x90, 0xF0, 0x90, 0x90, 0xE0, 0x90, 0xE0, 0x90, 0xE0,
  0xF0, 0x80, 0x80, 0x80, 0xF0, 0xE0, 0x90, 0x90, 0x90, 0xE0,
  0xF0, 0x80, 0xF0, 0x80, 0xF0, 0xF0, 0x80, 0xF0, 0x80, 0x80]

/-- The default setting of every OPEN parameter (R7). -/
def specDefaults : Config where
  resetPolicy := .unwritten
  addiVf := .keep
  vfOrder := .flagLast
  drwVf := .clear
  fontHi := .unmasked
  fontData := defaultFont

/-- The configuration of `State.reset`: the defaults of R7, but `RESET_POLICY = Zero`, the spec's
setting under which every register holds a value at construction. DESIGN CHOICE (log 1), unsafe. -/
def resetConfig : Config := { specDefaults with resetPolicy := .zero }

/-- `KEYS0`, the launch input, in `State.reset`: no key held. DESIGN CHOICE (R40, D7; log 10), unsafe. -/
def resetKeys : Word := 0

/-- What the stack entries hold at construction; R35 leaves it open and nothing reads it. DESIGN CHOICE (log 11). -/
def resetStackEntry : Word := 0

end Sys2Proof.Machine
end

