-- ==== Sys2Proof/Machine/State.lean ====
section
/-! DEFINITION. The state of the block as plain data (10_state.md R45), the fault causes and the crash record, the inputs a schedule may hold, construction and `State.reset`. -/

namespace Sys2Proof.Machine

/-- A register or memory cell of `w` bits: a value, or the spec's `⊥` (R45, R47). -/
inductive Cell (w : Nat) where
  | unwritten
  | held (b : BitVec w)
  deriving DecidableEq, Repr

/-- `Cell8` of R45. -/
abbrev Cell8 := Cell 8

/-- The 16-bit cell of I (R45). -/
abbrev Cell16 := Cell 16

/-- The cell an `UNWRITTEN` fault names: `V[i]`, `I`, `DT` or `mem[a]` (R231). -/
inductive CellName where
  | v (x : Nibble)
  | i
  | dt
  | mem (addr : Nat)
  deriving DecidableEq, Repr

/-- The execution faults of R231 with what each carries. A meaning that raises one takes it (R241): the
next state is `Crashed`, so neither a meaning nor `step` ever answers `Outcome.fault`. -/
inductive Fault where
  /-- `MEM_RANGE`: raised by the fetch, DRW, LD B, LD [I] and LD Vx,[I] at the first address not below `MEM_SIZE` (R234). Safe: the spec's own policy (D2). -/
  | memRange (addr : Nat)
  /-- `STACK_OVERFLOW`: raised by CALL at depth 16 (R232). Safe: the spec's own policy (D3). -/
  | stackOverflow (sp : Nat)
  /-- `STACK_UNDERFLOW`: raised by RET at depth 0 (R233). Safe: the spec's own policy (D3). -/
  | stackUnderflow (sp : Nat)
  /-- `KEY_RANGE`: raised by SKP and SKNP when Vx exceeds 15 (R235). Safe: the spec's own policy (D19). -/
  | keyRange (key : Byte)
  /-- `UNWRITTEN`: raised by the read of a cell nothing has written (R238). Safe; no state that `State.reset` leads to raises it. -/
  | unwritten (cell : CellName)
  deriving DecidableEq, Repr

/-- The fault causes of R231. -/
inductive FaultCause where
  | memRange
  | stackOverflow
  | stackUnderflow
  | keyRange
  | unwritten
  deriving DecidableEq, Repr

/-- The `info` of a crash record: the faulting address, depth or key value, or the unwritten cell (R43, R231). -/
inductive FaultInfo where
  | number (n : Nat)
  | cell (c : CellName)
  deriving DecidableEq, Repr

/-- Why a step has no meaning. No instruction of this model answers one. -/
inductive Refusal where
  /-- An instruction without a meaning yet, rejected by `exec` under its mnemonic. Safe: the model stops. No arm answers it. -/
  | notModelled (mnemonic : String)
  deriving DecidableEq, Repr

/-- The crash record of R43. -/
structure CrashRecord where
  cause : FaultCause
  code : Nat
  /-- `pc0`, the address of the faulting instruction's fetch. -/
  pc : Word
  /-- The faulting opcode, `none` when the fetch itself faulted. -/
  opcode : Option Word
  info : FaultInfo
  deriving DecidableEq, Repr

/-- The run state of R41. -/
inductive RunState where
  | idle
  | loaded
  | running
  | stopRequested
  | stopped
  | crashed (rec : CrashRecord)
  deriving DecidableEq, Repr

/-- The framebuffer, `disp[x][y]` by column then row, `true` for a pixel at 1 (R39, R200). -/
abbrev Display := Vector (Vector Bool 32) 64

/-- The listed memory cells, by rising address; what an unlisted address reads as is `Memory.unlisted`. -/
abbrev Memory := List Host.Cell

/-- One step of one agent (R250). DESIGN CHOICE: a schedule of these in the state says who moves next (log 5). -/
inductive AgentStep where
  /-- CPU: one fetch and one instruction; `r` is the byte the random port supplies to it (R250, R258). -/
  | exec (r : Byte)
  /-- CPU: `StopRequested` to `Stopped` (R278). -/
  | exit
  /-- TIMER: one tick (R245). -/
  | tick
  /-- HOST: replace the key latch (R254). -/
  | keyWrite (keys : Word)
  /-- HOST: set one key's bit (R220, R226). -/
  | keyDown (k : Nibble)
  /-- HOST: clear one key's bit (R220, R226). -/
  | keyUp (k : Nibble)
  /-- HOST: load a program (R272-R274). -/
  | loadProgram (bytes : List Byte)
  /-- HOST: `start()` (R276). -/
  | start
  /-- HOST: `stop()` (R277). -/
  | stop
  /-- HOST: read the whole framebuffer (R253). -/
  | readDisplay
  /-- HOST: read the run state (R255). -/
  | readStatus
  deriving DecidableEq, Repr

/-- What the block gives back to the host (R255, R273, R275). -/
inductive HostReply where
  | loadOk
  | programTooLarge
  | refused
  | display (pixels : Display)
  | status (run : RunState)
  deriving DecidableEq, Repr

/-- The state of the block (R45), its configuration (R7), and the model's own input and output fields. -/
structure State where
  /-- V0..VF (R20). -/
  v : Vector Cell8 16
  /-- The index register I (R26). -/
  i : Cell16
  /-- The program counter (R28). -/
  pc : Word
  /-- The stack pointer, which only ever holds 0..16 (R32, R45; log 12). -/
  sp : Fin 17
  /-- The call stack (R34). -/
  stack : Vector Word 16
  /-- The delay timer (R36). -/
  dt : Cell8
  /-- The sound timer (R37). -/
  st : Cell8
  /-- The listed cells of the byte memory (R60). -/
  mem : Memory
  /-- The display surface (R39). -/
  disp : Display
  /-- The key latch, bit k for key k (R40, R220). -/
  keys : Word
  /-- The run state with its crash record (R41, R43). -/
  run : RunState
  /-- The OPEN parameters of this machine (R7); no step writes it (log 4). -/
  config : Config
  /-- The model's own: the agent steps still to come (R250, R251; log 5). -/
  schedule : List AgentStep
  /-- The model's own free value: the random byte of the current CPU step (R13, R258; log 6). -/
  randomPort : Byte
  /-- The model's own: how many free choices have been taken (log 6). -/
  oracle : Nat
  /-- The model's own: what the block last gave back to the host (R255; log 17). -/
  reply : Option HostReply
  deriving DecidableEq, Repr

/-- What a register that construction does not write holds (R25, R27, R38). -/
def Cell.atConstruction (p : ResetPolicy) {w : Nat} : Cell w :=
  match p with
  | .unwritten => .unwritten
  | .zero => .held 0

/-- The all-zero framebuffer (R39). -/
def Display.clear : Display := Vector.replicate 64 (Vector.replicate 32 false)

/-- Construction, the block's only reset, for a configuration and a launch input `KEYS0` (R270). -/
def State.construct (c : Config) (keys0 : Word) : State where
  v := Vector.replicate 16 (Cell.atConstruction c.resetPolicy)
  i := Cell.atConstruction c.resetPolicy
  pc := BitVec.ofNat 16 progBase
  sp := 0
  stack := Vector.replicate 16 resetStackEntry
  dt := Cell.atConstruction c.resetPolicy
  st := Cell.atConstruction c.resetPolicy
  mem := []
  disp := Display.clear
  keys := keys0
  run := .idle
  config := c
  schedule := []
  randomPort := 0
  oracle := 0
  reply := none

/-- The machine right after reset: construction (R270) under `resetConfig` and `resetKeys`. -/
def State.reset : State := State.construct resetConfig resetKeys

end Sys2Proof.Machine
end

