-- ==== Sys2Proof/Machine/Ops.lean ====
section
/-! DEFINITION. The named operations over memory, registers, stack, latch and framebuffer, and taking a fault (60_exceptions.md R241). -/

namespace Sys2Proof.Machine

/-! ## Memory (20_memory.md) -/

/-- What an address that memory does not list reads as: the glyph bytes at 0x000..0x04F (R67), elsewhere
what `RESET_POLICY` gives a cell at construction (R69). Outside memory there is no cell (R60). -/
def Memory.unlisted (c : Config) (a : Nat) : Cell8 :=
  if h : a < 80 then .held c.fontData[a]
  else if a < memSize then Cell.atConstruction c.resetPolicy
  else .unwritten

/-- The byte listed at an address, if one is. -/
def Memory.find (a : Nat) : Memory → Option Byte
  | [] => none
  | (k, b) :: rest => if k = a then some b else Memory.find a rest

/-- What a cell of memory holds (R64). -/
def Memory.read (c : Config) (m : Memory) (a : Nat) : Cell8 :=
  match Memory.find a m with
  | some b => .held b
  | none => Memory.unlisted c a

/-- List a byte at an address, in address order. -/
def Memory.put (a : Nat) (b : Byte) : Memory → Memory
  | [] => [(a, b)]
  | (k, d) :: rest =>
    if a < k then (a, b) :: (k, d) :: rest
    else if a = k then (a, b) :: rest
    else (k, d) :: Memory.put a b rest

/-- Take an address off the list. -/
def Memory.drop (a : Nat) : Memory → Memory
  | [] => []
  | (k, d) :: rest => if k = a then Memory.drop a rest else (k, d) :: Memory.drop a rest

/-- Write one byte (R11, R66), keeping the canonical form: a byte equal to what an unlisted address reads
as is not listed. -/
def Memory.write (c : Config) (m : Memory) (a : Nat) (b : Byte) : Memory :=
  if Memory.unlisted c a = .held b then Memory.drop a m else Memory.put a b m

/-- Write bytes at rising addresses (R76). -/
def Memory.writeAll (c : Config) (m : Memory) (a : Nat) : List Byte → Memory
  | [] => m
  | b :: rest => Memory.writeAll c (Memory.write c m a b) (a + 1) rest

/-- The canonical form: addresses strictly rising, all inside memory, no entry equal to what its address
reads as unlisted. -/
abbrev Memory.wf (c : Config) (m : Memory) : Prop :=
  m.Pairwise (fun e f => e.1 < f.1) ∧ ∀ e ∈ m, e.1 < memSize ∧ Memory.unlisted c e.1 ≠ .held e.2

/-! ## Reading cells: a read of `⊥` raises `UNWRITTEN` (R47, R238) -/

/-- The value of a cell, or the fault of reading it unwritten. -/
def Cell.read {w : Nat} (name : CellName) : Cell w → Except Fault (BitVec w)
  | .held b => .ok b
  | .unwritten => .error (.unwritten name)

/-- General register x (R10, R20). -/
def State.reg (s : State) (x : Nibble) : Cell8 := s.v[x.toNat]'(by have := x.isLt; omega)

/-- Write general register x (R10). -/
def State.setReg (s : State) (x : Nibble) (b : Byte) : State :=
  { s with v := s.v.set x.toNat (.held b) (by have := x.isLt; omega) }

/-- Read Vx (R10). -/
def State.readV (s : State) (x : Nibble) : Except Fault Byte := (s.reg x).read (.v x)

/-- Read I (R10). -/
def State.readI (s : State) : Except Fault Word := s.i.read .i

/-- Read DT (R10). -/
def State.readDt (s : State) : Except Fault Byte := s.dt.read .dt

/-- Write I (R10). -/
def State.setI (s : State) (a : Word) : State := { s with i := .held a }

/-- Write DT (R191). -/
def State.setDt (s : State) (b : Byte) : State := { s with dt := .held b }

/-- Write ST (R192). -/
def State.setSt (s : State) (b : Byte) : State := { s with st := .held b }

/-- Write PC (R10). -/
def State.setPc (s : State) (a : Word) : State := { s with pc := a }

/-- Replace the framebuffer. -/
def State.setDisp (s : State) (d : Display) : State := { s with disp := d }

/-- Set the run state (R41). -/
def State.setRun (s : State) (r : RunState) : State := { s with run := r }

/-- Replace the key latch (R254). -/
def State.setKeys (s : State) (k : Word) : State := { s with keys := k }

/-- Give the host an answer (R255). -/
def State.setReply (s : State) (r : HostReply) : State := { s with reply := some r }

/-! ## Memory accesses of an instruction (R11, R63) -/

/-- The cell of memory at an address. -/
def State.byteAt (s : State) (a : Nat) : Cell8 := Memory.read s.config s.mem a

/-- `require a + k < MEM_SIZE` for each k below n, ascending: the first failing address faults (R178, R234). -/
def checkRange (a : Nat) : Nat → Except Fault Unit
  | 0 => .ok ()
  | n + 1 => if a < memSize then checkRange (a + 1) n else .error (.memRange a)

/-- `MemRead` of n bytes at rising addresses; the first unwritten cell faults (R11, R76). -/
def State.readBytes (s : State) (a : Nat) : Nat → Except Fault (List Byte)
  | 0 => .ok []
  | n + 1 => do
    let b ← (s.byteAt a).read (.mem a)
    let rest ← s.readBytes (a + 1) n
    .ok (b :: rest)

/-- `MemWrite` of bytes at rising addresses, the range already checked (R11, R76). -/
def State.writeBytes (s : State) (a : Nat) (bs : List Byte) : State :=
  { s with mem := Memory.writeAll s.config s.mem a bs }

/-! ## The call stack (10_state.md R34) -/

/-- `push(address)` (R34, R122). -/
def State.push (s : State) (a : Word) : Except Fault State :=
  if h : s.sp.val < 16 then
    .ok { s with stack := s.stack.set s.sp.val a h, sp := ⟨s.sp.val + 1, by omega⟩ }
  else .error (.stackOverflow s.sp.val)

/-- `pop()`: the most recent address, and the stack one entry shorter (R34, R123). -/
def State.pop (s : State) : Except Fault (Word × State) :=
  if h : 0 < s.sp.val then
    .ok (s.stack[s.sp.val - 1]'(by have := s.sp.isLt; omega), { s with sp := ⟨s.sp.val - 1, by have := s.sp.isLt; omega⟩ })
  else .error (.stackUnderflow s.sp.val)

/-! ## The key latch (45_keyboard.md) -/

/-- `isPressed(k)` (R220). -/
def isPressed (keys : Word) (k : Nat) : Bool := keys.getLsbD k

/-- `anyPressed()`: the lowest pressed key, or none (R221). -/
def anyPressed (keys : Word) : Option Nat := (List.range numKeys).find? (isPressed keys)

/-! ## The framebuffer (44_display.md) -/

/-- `getPixel(x, y)` inside the grid; outside it there is no pixel (R200). -/
def Display.pixel (d : Display) (x y : Nat) : Bool :=
  if h : x < 64 ∧ y < 32 then (d[x]'h.1)[y]'h.2 else false

/-- XOR a 1 into the pixel (x, y) of the grid (R204). -/
def Display.toggle (d : Display) (x y : Nat) : Display :=
  if h : x < 64 ∧ y < 32 then
    d.set x ((d[x]'h.1).set y (!(d[x]'h.1)[y]'h.2) h.2) h.1
  else d

/-! ## Taking a fault (60_exceptions.md R231, R241) -/

/-- The cause a fault is recorded under (R231). -/
def Fault.cause : Fault → FaultCause
  | .memRange _ => .memRange
  | .stackOverflow _ => .stackOverflow
  | .stackUnderflow _ => .stackUnderflow
  | .keyRange _ => .keyRange
  | .unwritten _ => .unwritten

/-- The code of a cause (R231). -/
def FaultCause.code : FaultCause → Nat
  | .memRange => 1
  | .stackOverflow => 2
  | .stackUnderflow => 3
  | .keyRange => 4
  | .unwritten => 5

/-- The `info` of a fault (R231). -/
def Fault.info : Fault → FaultInfo
  | .memRange a => .number a
  | .stackOverflow n => .number n
  | .stackUnderflow n => .number n
  | .keyRange k => .number k.toNat
  | .unwritten c => .cell c

/-- The crash record of a fault (R43, R241). -/
def Fault.record (f : Fault) (pc0 : Word) (opcode : Option Word) : CrashRecord where
  cause := f.cause
  code := f.cause.code
  pc := pc0
  opcode := opcode
  info := f.info

/-- Fault entry: nothing of the state changes but that PC stands at the faulting fetch and the block is
`Crashed` (R241). -/
def State.takeFault (s : State) (f : Fault) (pc0 : Word) (opcode : Option Word) : State :=
  { s with pc := pc0, run := .crashed (f.record pc0 opcode) }

/-- The end of an instruction's rule: its state, or the fault it raised taken from the state the rule
began in. On entry PC is `pc0 + 2` (R15, R96), so the fetch's advance is undone (R241); the opcode
recorded is the instruction's word (log 14). -/
def finish (i : Instr) (s : State) (r : Except Fault State) : Host.Outcome State Fault Refusal :=
  match r with
  | .ok t => .next t
  | .error f => .next (s.takeFault f (s.pc - 2) (some (encode i)))

end Sys2Proof.Machine
end

