-- ==== Sys2Proof/Machine/Flags.lean ====
section
/-! DEFINITION. Every flag an instruction writes into VF (10_state.md R24) and the order of result and flag (41_alu.md R141). -/

namespace Sys2Proof.Machine

/-- The number of VF, the flag register (R23). -/
def vf : Nibble := 15

/-- A flag as the byte VF takes: 1 or 0 (R23). -/
def flagByte (p : Bool) : Byte := if p then 1 else 0

/-- The carry of an add: 1 iff the untruncated sum exceeds 0xFF (R143, R148). -/
def carryFlag (a b : Byte) : Byte := flagByte (decide (a.toNat + b.toNat > 255))

/-- The "no borrow" flag of `a - b`: 1 iff a >= b (R149, R151). -/
def noBorrowFlag (a b : Byte) : Byte := flagByte (decide (a.toNat ≥ b.toNat))

/-- The bit a right shift moves out: bit 0 (R150). -/
def shrFlag (t : Byte) : Byte := flagByte (t.getLsbD 0)

/-- The bit a left shift moves out: bit 7 (R152). -/
def shlFlag (t : Byte) : Byte := flagByte (t.getLsbD 7)

/-- The flag of `7XKK`: 1 on carry, else what `ADDI_VF` says (R143). -/
def addiFlag (c : Config) (a kk : Byte) : Option Byte :=
  if a.toNat + kk.toNat > 255 then some 1
  else match c.addiVf with
    | .clear => some 0
    | .keep => none

/-- The flag of `DXYN`: 1 on a collision, else what `DRW_VF` says (R208). -/
def drwFlag (c : Config) (coll : Bool) : Option Byte :=
  if coll then some 1
  else match c.drwVf with
    | .clear => some 0
    | .keep => none

/-- Write VF, if there is a flag to write. -/
def State.setFlag (s : State) : Option Byte → State
  | some f => s.setReg vf f
  | none => s

/-- `commit(x, r, f)`: the result and the flag in the order `VF_ORDER` gives (R14, R141). -/
def State.commit (s : State) (x : Nibble) (r : Byte) (f : Option Byte) : State :=
  match f with
  | none => s.setReg x r
  | some b =>
    match s.config.vfOrder with
    | .flagLast => (s.setReg x r).setReg vf b
    | .flagFirst => (s.setReg vf b).setReg x r

end Sys2Proof.Machine
end

