-- ==== Sys2Proof/Machine/Operands.lean ====
section
/-! DEFINITION. The operand forms: register blocks V0..Vx, memory blocks at I, the key number in Vx, glyph addresses, decimal digits and jump targets. -/

namespace Sys2Proof.Machine

/-- `zext_16(nnn)` (R94). -/
def zextAddr (nnn : Addr) : Word := nnn.setWidth 16

/-- `zext_16` of a byte (R9). -/
def zextByte (b : Byte) : Word := b.setWidth 16

/-- Skip the next word when the condition holds (R125-R128, R222, R223). -/
def State.skipIf (s : State) (c : Bool) : State := if c then s.setPc (s.pc + 2) else s

/-- The number of registers in V0..Vx (R174, R175). -/
def blockLen (x : Nibble) : Nat := x.toNat + 1

/-- The values of cells that stand for V[k], V[k+1], ...: the first unwritten one faults (R174). -/
def readCells (k : Nat) : List Cell8 → Except Fault (List Byte)
  | [] => .ok []
  | c :: rest => do
    let b ← c.read (.v (BitVec.ofNat 4 k))
    let bs ← readCells (k + 1) rest
    .ok (b :: bs)

/-- Read V0..Vx ascending (R174). -/
def State.readRegs (s : State) (x : Nibble) : Except Fault (List Byte) :=
  readCells 0 (s.v.toList.take (blockLen x))

/-- Write bytes to V[k], V[k+1], ... (R175). -/
def State.setRegs (s : State) (k : Nat) : List Byte → State
  | [] => s
  | b :: rest => (s.setReg (BitVec.ofNat 4 k) b).setRegs (k + 1) rest

/-- I after a register dump or load: advanced by x + 1, mod 2^16 (R174, R175). -/
def advancedI (base : Word) (x : Nibble) : Word := BitVec.ofNat 16 ((base.toNat + blockLen x) % 2 ^ 16)

/-- `require k < 16 else raise KEY_RANGE(k)` (R222, R225). -/
def keyNumber (k : Byte) : Except Fault Nat :=
  if k.toNat < numKeys then .ok k.toNat else .error (.keyRange k)

/-- The glyph address of a digit; `FONT_HI` decides a value above 15 (R172). -/
def glyphAddress (c : Config) (b : Byte) : Word :=
  match c.fontHi with
  | .unmasked => BitVec.ofNat 16 (fontBase + glyphBytes * b.toNat)
  | .lowNibble => BitVec.ofNat 16 (fontBase + glyphBytes * (b.toNat % 16))

/-- The three decimal digits of a byte: hundreds, tens, units (R173). -/
def bcdDigits (b : Byte) : List Byte :=
  [BitVec.ofNat 8 (b.toNat / 100), BitVec.ofNat 8 (b.toNat / 10 % 10), BitVec.ofNat 8 (b.toNat % 10)]

end Sys2Proof.Machine
end

