-- ==== Sys2Proof/Machine/TimerRegs.lean ====
section
/-! DEFINITION. Timer register access (43_timer_regs.md) and the tick of the timer arbiter (60_exceptions.md R245). -/

namespace Sys2Proof.Machine

/-- `LD Vx, DT` (R190). -/
def execLdVxDt (x : Nibble) (s : State) : Host.Outcome State Fault Refusal :=
  finish (.ldVxDt x) s do
    let b ← s.readDt
    .ok (s.setReg x b)

/-- `LD DT, Vx` (R191). -/
def execLdDtVx (x : Nibble) (s : State) : Host.Outcome State Fault Refusal :=
  finish (.ldDtVx x) s do
    let b ← s.readV x
    .ok (s.setDt b)

/-- `LD ST, Vx` (R192). -/
def execLdStVx (x : Nibble) (s : State) : Host.Outcome State Fault Refusal :=
  finish (.ldStVx x) s do
    let b ← s.readV x
    .ok (s.setSt b)

/-- One timer's tick: down by 1, floored at 0, an unwritten timer left alone (R245, R246). -/
def tickCell : Cell8 → Cell8
  | .unwritten => .unwritten
  | .held b => if b.toNat > 0 then .held (b - 1) else .held b

/-- One TIMER step (R245). -/
def State.tick (s : State) : State := { s with dt := tickCell s.dt, st := tickCell s.st }

end Sys2Proof.Machine
end

