-- ==== Sys2Proof/Machine/Agents.lean ====
section
/-! DEFINITION. The lifecycle and the host's ports (70_reset_and_hazards.md R272-R280, 60_exceptions.md R253-R255). -/

namespace Sys2Proof.Machine

/-- `loadProgram(bytes)`: accepted only in `Idle`, and only up to `LOAD_LIMIT` bytes (R272-R275, R280). -/
def State.loadProgram (s : State) (bytes : List Byte) : State :=
  match s.run with
  | .idle =>
    if bytes.length ≤ loadLimit then ((s.writeBytes progBase bytes).setRun .loaded).setReply .loadOk
    else s.setReply .programTooLarge
  | _ => s.setReply .refused

/-- `start()`: from `Loaded` or `Stopped` to `Running`, otherwise no effect (R275, R276, R279). -/
def State.start (s : State) : State :=
  match s.run with
  | .loaded => s.setRun .running
  | .stopped => s.setRun .running
  | _ => s

/-- `stop()`: from `Running` to `StopRequested`, otherwise no effect (R275, R277). -/
def State.stop (s : State) : State :=
  match s.run with
  | .running => s.setRun .stopRequested
  | _ => s

/-- The CPU's exit: from `StopRequested` to `Stopped` (R275, R278). -/
def State.exit (s : State) : State :=
  match s.run with
  | .stopRequested => s.setRun .stopped
  | _ => s

/-- `keyDown(k)` (R220, R254). -/
def State.keyDown (s : State) (k : Nibble) : State := s.setKeys (s.keys ||| BitVec.twoPow 16 k.toNat)

/-- `keyUp(k)` (R220, R254). -/
def State.keyUp (s : State) (k : Nibble) : State := s.setKeys (s.keys &&& ~~~BitVec.twoPow 16 k.toNat)

/-- `readDisplay`: the whole framebuffer as it stands between steps (R212, R253). -/
def State.readDisplay (s : State) : State := s.setReply (.display s.disp)

/-- `readStatus`: the run state, with its record when `Crashed` (R255). -/
def State.readStatus (s : State) : State := s.setReply (.status s.run)

/-- CPU `exec` is enabled (R250, R275). -/
def RunState.executes : RunState → Bool
  | .running => true
  | .stopRequested => true
  | _ => false

end Sys2Proof.Machine
end

