-- ==== Sys2Proof/Machine/Alu.lean ====
section
/-! DEFINITION. The ALU and register moves (41_alu.md). Operands are read before anything is written (R14, R141). -/

namespace Sys2Proof.Machine

/-- The shape of `8XY1`-`8XY5` and `8XY7`: read Vx, then Vy, then commit a result and a flag (R141). -/
def aluVxVy (i : Instr) (x y : Nibble) (s : State) (result flag : Byte → Byte → Byte) : Host.Outcome State Fault Refusal :=
  finish i s do
    let a ← s.readV x
    let b ← s.readV y
    .ok (s.commit x (result a b) (some (flag a b)))

/-- The shape of `8XY6` and `8XYE`: copy Vy, shift the copy; Vx is not read (R150, R152). -/
def shiftVy (i : Instr) (x y : Nibble) (s : State) (result flag : Byte → Byte) : Host.Outcome State Fault Refusal :=
  finish i s do
    let t ← s.readV y
    .ok (s.commit x (result t) (some (flag t)))

/-- `LD Vx, kk` (R142). -/
def execLdVxKk (x : Nibble) (kk : Byte) (s : State) : Host.Outcome State Fault Refusal := .next (s.setReg x kk)

/-- `ADD Vx, kk`, with this repository's carry into VF (R143, C9). -/
def execAddVxKk (x : Nibble) (kk : Byte) (s : State) : Host.Outcome State Fault Refusal :=
  finish (.addVxKk x kk) s do
    let a ← s.readV x
    .ok (s.commit x (a + kk) (addiFlag s.config a kk))

/-- `LD Vx, Vy` (R144). -/
def execLdVxVy (x y : Nibble) (s : State) : Host.Outcome State Fault Refusal :=
  finish (.ldVxVy x y) s do
    let b ← s.readV y
    .ok (s.setReg x b)

/-- `OR Vx, Vy`, clearing VF (R145). -/
def execOrVxVy (x y : Nibble) (s : State) : Host.Outcome State Fault Refusal :=
  aluVxVy (.orVxVy x y) x y s (fun a b => a ||| b) (fun _ _ => 0)

/-- `AND Vx, Vy`, clearing VF (R146). -/
def execAndVxVy (x y : Nibble) (s : State) : Host.Outcome State Fault Refusal :=
  aluVxVy (.andVxVy x y) x y s (fun a b => a &&& b) (fun _ _ => 0)

/-- `XOR Vx, Vy`, clearing VF (R147). -/
def execXorVxVy (x y : Nibble) (s : State) : Host.Outcome State Fault Refusal :=
  aluVxVy (.xorVxVy x y) x y s (fun a b => a ^^^ b) (fun _ _ => 0)

/-- `ADD Vx, Vy`, VF the carry (R148). -/
def execAddVxVy (x y : Nibble) (s : State) : Host.Outcome State Fault Refusal :=
  aluVxVy (.addVxVy x y) x y s (fun a b => a + b) carryFlag

/-- `SUB Vx, Vy`, VF "no borrow" (R149). -/
def execSubVxVy (x y : Nibble) (s : State) : Host.Outcome State Fault Refusal :=
  aluVxVy (.subVxVy x y) x y s (fun a b => a - b) noBorrowFlag

/-- `SHR Vx, Vy`: shift a copy of Vy right, VF bit 0 of Vy (R150). -/
def execShrVxVy (x y : Nibble) (s : State) : Host.Outcome State Fault Refusal :=
  shiftVy (.shrVxVy x y) x y s (fun t => t >>> 1) shrFlag

/-- `SUBN Vx, Vy`: Vy - Vx into Vx (R151). -/
def execSubnVxVy (x y : Nibble) (s : State) : Host.Outcome State Fault Refusal :=
  aluVxVy (.subnVxVy x y) x y s (fun a b => b - a) (fun a b => noBorrowFlag b a)

/-- `SHL Vx, Vy`: shift a copy of Vy left, VF bit 7 of Vy (R152). -/
def execShlVxVy (x y : Nibble) (s : State) : Host.Outcome State Fault Refusal :=
  shiftVy (.shlVxVy x y) x y s (fun t => t <<< 1) shlFlag

/-- `RND Vx, kk`: the random port's byte for this step, masked (R153, R258). -/
def execRnd (x : Nibble) (kk : Byte) (s : State) : Host.Outcome State Fault Refusal :=
  .next (s.setReg x (s.randomPort &&& kk))

end Sys2Proof.Machine
end

