-- ==== Sys2Proof/Machine/ControlFlow.lean ====
section
/-! DEFINITION. The control transfer family (40_control_flow.md). On entry PC is `pc0 + 2` (R96). -/

namespace Sys2Proof.Machine

/-- `SYS nnn`: no effect (R120, D11). -/
def execSys (_nnn : Addr) (s : State) : Host.Outcome State Fault Refusal := .next s

/-- `JP nnn` (R121). -/
def execJp (nnn : Addr) (s : State) : Host.Outcome State Fault Refusal := .next (s.setPc (zextAddr nnn))

/-- `CALL nnn`: push the advanced PC and jump (R122). -/
def execCall (nnn : Addr) (s : State) : Host.Outcome State Fault Refusal :=
  finish (.call nnn) s do
    let t ← s.push s.pc
    .ok (t.setPc (zextAddr nnn))

/-- `RET`: pop into PC (R123). -/
def execRet (s : State) : Host.Outcome State Fault Refusal :=
  finish .ret s do
    let (a, t) ← s.pop
    .ok (t.setPc a)

/-- `JP V0, nnn`: the full sum, not masked (R124, D17). -/
def execJpV0 (nnn : Addr) (s : State) : Host.Outcome State Fault Refusal :=
  finish (.jpV0 nnn) s do
    let a ← s.readV 0
    .ok (s.setPc (zextByte a + zextAddr nnn))

/-- `SE Vx, kk` (R125). -/
def execSeVxKk (x : Nibble) (kk : Byte) (s : State) : Host.Outcome State Fault Refusal :=
  finish (.seVxKk x kk) s do
    let a ← s.readV x
    .ok (s.skipIf (a == kk))

/-- `SNE Vx, kk` (R126). -/
def execSneVxKk (x : Nibble) (kk : Byte) (s : State) : Host.Outcome State Fault Refusal :=
  finish (.sneVxKk x kk) s do
    let a ← s.readV x
    .ok (s.skipIf (a != kk))

/-- `SE Vx, Vy`, Vx read first (R127). -/
def execSeVxVy (x y : Nibble) (s : State) : Host.Outcome State Fault Refusal :=
  finish (.seVxVy x y) s do
    let a ← s.readV x
    let b ← s.readV y
    .ok (s.skipIf (a == b))

/-- `SNE Vx, Vy`, Vx read first (R128). -/
def execSneVxVy (x y : Nibble) (s : State) : Host.Outcome State Fault Refusal :=
  finish (.sneVxVy x y) s do
    let a ← s.readV x
    let b ← s.readV y
    .ok (s.skipIf (a != b))

end Sys2Proof.Machine
end

