-- ==== Sys2Proof/Machine/Draw.lean ====
section
/-! DEFINITION. CLS and DRW on the display surface (44_display.md). -/

namespace Sys2Proof.Machine

/-- `CLS`: every pixel 0 (R203). -/
def execCls (s : State) : Host.Outcome State Fault Refusal := .next (s.setDisp Display.clear)

/-- The origin lies outside the grid (R206). -/
def originOutside (ox oy : Nat) : Bool := decide (ox ≥ 64 ∨ oy ≥ 32)

/-- Where a sprite pixel at grid position (px, py) lands: wrapped on both axes when the origin is outside,
dropped when it is inside and the position is not (R206). -/
def placePixel (wrap : Bool) (px py : Nat) : Option (Nat × Nat) :=
  if wrap then some (px % 64, py % 32)
  else if px ≥ 64 ∨ py ≥ 32 then none
  else some (px, py)

/-- The pixels of one sprite row: column c is bit 7 - c (R205). -/
def rowPixels (wrap : Bool) (ox py : Nat) (row : Byte) : List (Nat × Nat) :=
  (List.range 8).filterMap fun c => if row.getLsbD (7 - c) then placePixel wrap (ox + c) py else none

/-- The pixels of the rows from grid row py down (R204). -/
def spritePixelsFrom (wrap : Bool) (ox py : Nat) : List Byte → List (Nat × Nat)
  | [] => []
  | row :: rest => rowPixels wrap ox py row ++ spritePixelsFrom wrap ox (py + 1) rest

/-- The pixels a sprite toggles, in the order of R204. -/
def spritePixels (ox oy : Nat) (rows : List Byte) : List (Nat × Nat) :=
  spritePixelsFrom (originOutside ox oy) ox oy rows

/-- Toggle pixels one after another; the flag says whether one was on when its turn came (R204, R207). -/
def drawPixels (d : Display) (coll : Bool) : List (Nat × Nat) → Display × Bool
  | [] => (d, coll)
  | p :: rest => drawPixels (d.toggle p.1 p.2) (coll || d.pixel p.1 p.2) rest

/-- `DRW Vx, Vy, n` (R204): VF is written once, after every pixel (R208). -/
def execDrw (x y n : Nibble) (s : State) : Host.Outcome State Fault Refusal :=
  finish (.drw x y n) s do
    let ox ← s.readV x
    let oy ← s.readV y
    let base ← s.readI
    checkRange base.toNat n.toNat
    let rows ← s.readBytes base.toNat n.toNat
    let drawn := drawPixels s.disp false (spritePixels ox.toNat oy.toNat rows)
    .ok ((s.setDisp drawn.1).setFlag (drwFlag s.config drawn.2))

end Sys2Proof.Machine
end

