-- ==== Sys2Proof/Machine/IndexMemory.lean ====
section
/-! DEFINITION. The index register and memory transfers (42_index_memory.md). All addresses are checked before anything is written (R178). -/

namespace Sys2Proof.Machine

/-- `LD I, nnn` (R170). -/
def execLdI (nnn : Addr) (s : State) : Host.Outcome State Fault Refusal := .next (s.setI (zextAddr nnn))

/-- `ADD I, Vx`: I read first, mod 2^16, VF not written (R171, D15). -/
def execAddIVx (x : Nibble) (s : State) : Host.Outcome State Fault Refusal :=
  finish (.addIVx x) s do
    let a ← s.readI
    let b ← s.readV x
    .ok (s.setI (a + zextByte b))

/-- `LD F, Vx` (R172). -/
def execLdFVx (x : Nibble) (s : State) : Host.Outcome State Fault Refusal :=
  finish (.ldFVx x) s do
    let b ← s.readV x
    .ok (s.setI (glyphAddress s.config b))

/-- `LD B, Vx`: three decimal digits at I; I is not changed (R173). -/
def execLdBVx (x : Nibble) (s : State) : Host.Outcome State Fault Refusal :=
  finish (.ldBVx x) s do
    let b ← s.readV x
    let base ← s.readI
    checkRange base.toNat 3
    .ok (s.writeBytes base.toNat (bcdDigits b))

/-- `LD [I], Vx`: V0..Vx to memory at I, I advanced by x + 1 (R174). -/
def execLdMemVx (x : Nibble) (s : State) : Host.Outcome State Fault Refusal :=
  finish (.ldMemVx x) s do
    let base ← s.readI
    let bs ← s.readRegs x
    checkRange base.toNat (blockLen x)
    .ok ((s.writeBytes base.toNat bs).setI (advancedI base x))

/-- `LD Vx, [I]`: memory at I to V0..Vx, I advanced by x + 1 (R175). -/
def execLdVxMem (x : Nibble) (s : State) : Host.Outcome State Fault Refusal :=
  finish (.ldVxMem x) s do
    let base ← s.readI
    checkRange base.toNat (blockLen x)
    let bs ← s.readBytes base.toNat (blockLen x)
    .ok ((s.setRegs 0 bs).setI (advancedI base x))

end Sys2Proof.Machine
end

