-- ==== Sys2Proof/Machine/Keyboard.lean ====
section
/-! DEFINITION. SKP, SKNP and the key-wait (45_keyboard.md), reading the latch as it stands at the instruction's start (R254). -/

namespace Sys2Proof.Machine

/-- `SKP Vx` (R222). -/
def execSkp (x : Nibble) (s : State) : Host.Outcome State Fault Refusal :=
  finish (.skp x) s do
    let b ← s.readV x
    let k ← keyNumber b
    .ok (s.skipIf (isPressed s.keys k))

/-- `SKNP Vx` (R223). -/
def execSknp (x : Nibble) (s : State) : Host.Outcome State Fault Refusal :=
  finish (.sknp x) s do
    let b ← s.readV x
    let k ← keyNumber b
    .ok (s.skipIf (!isPressed s.keys k))

/-- `LD Vx, K`: capture the lowest pressed key, or rewind PC to fetch this word again (R224). -/
def execLdVxK (x : Nibble) (s : State) : Host.Outcome State Fault Refusal :=
  match anyPressed s.keys with
  | none => .next (s.setPc (s.pc - 2))
  | some k => .next (s.setReg x (BitVec.ofNat 8 k))

end Sys2Proof.Machine
end

