-- ==== Sys2Proof/Machine/Cycle.lean ====
section
/-! DEFINITION. The instruction cycle (30_encoding.md R95-R97) and one step of each agent (60_exceptions.md R250). -/

namespace Sys2Proof.Machine

/-- Fetch: check both addresses, then read both bytes, high byte first (R95, R239). -/
def State.fetch (s : State) : Except Fault Word := do
  checkRange s.pc.toNat opcodeBytes
  let hi ← (s.byteAt s.pc.toNat).read (.mem s.pc.toNat)
  let lo ← (s.byteAt (s.pc.toNat + 1)).read (.mem (s.pc.toNat + 1))
  .ok (wordOfBytes hi lo)

/-- One fetch and one instruction, atomic: a fetch fault is taken with no opcode (R95, R241); a word that
is no instruction only advances PC (R96, R104). -/
def State.cycle (s : State) : Host.Outcome State Fault Refusal :=
  match s.fetch with
  | .error f => .next (s.takeFault f s.pc none)
  | .ok op =>
    match decode op with
    | .ok i => exec i (s.setPc (s.pc + 2))
    | .error _ => .next (s.setPc (s.pc + 2))

/-- CPU `exec`, enabled in `Running` and `StopRequested`; otherwise the event has no effect (R250, R275; log 8). -/
def State.cpuExec (s : State) : Host.Outcome State Fault Refusal :=
  if s.run.executes then s.cycle else .next s

/-- One scheduled step of one agent (R250). -/
def agentStep (e : AgentStep) (s : State) : Host.Outcome State Fault Refusal :=
  match e with
  | .exec r => State.cpuExec { s with randomPort := r }
  | .exit => .next s.exit
  | .tick => .next s.tick
  | .keyWrite k => .next (s.setKeys k)
  | .keyDown k => .next (s.keyDown k)
  | .keyUp k => .next (s.keyUp k)
  | .loadProgram bytes => .next (s.loadProgram bytes)
  | .start => .next s.start
  | .stop => .next s.stop
  | .readDisplay => .next s.readDisplay
  | .readStatus => .next s.readStatus

/-- Take the next free choice. -/
def State.choose (s : State) : State := { s with oracle := s.oracle + 1 }

/-- The count of free choices at which the k-th exit falls: the gaps are free, so any times may be exits, but
every gap is finite, so exits never run out (R278, R251; log 7). -/
def exitTime : Nat → Nat
  | 0 => Config.exitGap 0
  | k + 1 => exitTime k + 1 + Config.exitGap (k + 1)

/-- The free choice numbered n, if it falls in `StopRequested`, is the CPU's exit (R278; log 7). -/
def exitsNow (n : Nat) : Bool := (List.range (n + 1)).any fun k => exitTime k == n

/-- The step when the schedule names none. DESIGN CHOICE (log 5): the CPU moves. While `Running` it executes,
the random port supplying a free byte (R258); in `StopRequested` a free choice says whether it exits (R278);
otherwise no CPU step is enabled and nothing changes (log 8). -/
def State.unscheduled (s : State) : Host.Outcome State Fault Refusal :=
  match s.run with
  | .running => State.cpuExec { s.choose with randomPort := Config.randomByte s.oracle }
  | .stopRequested =>
    if exitsNow s.oracle then .next s.choose.exit
    else State.cpuExec { s.choose with randomPort := Config.randomByte s.oracle }
  | _ => .next s

/-- Take the first scheduled step off the schedule. -/
def State.dequeue (s : State) : State := { s with schedule := s.schedule.tail }

/-- The address `withFetchWord` places an instruction at: PC, where both its bytes lie in memory, and
`PROG_BASE` otherwise. -/
def placeAt (pc : Word) : Word :=
  if pc.toNat + 1 < memSize then pc else BitVec.ofNat 16 progBase

/-- The state with an opcode word in memory where the CPU, running, fetches next. -/
def State.placeWord (s : State) (op : Word) : State :=
  { s.writeBytes (placeAt s.pc).toNat (bytesOfWord op) with
    pc := placeAt s.pc, run := .running, schedule := [] }

end Sys2Proof.Machine
end

