-- ==== Sys2Proof/Machine/Step.lean ====
section
/-! DEFINITION. One atomic transition of the block (60_exceptions.md R250, R251), and where the next instruction is fetched from. -/

namespace Sys2Proof.Machine

/-- One step: of the agent the schedule names next, else of the CPU (R250, R251; log 5). -/
def step (s : State) : Host.Outcome State Fault Refusal :=
  match s.schedule with
  | [] => s.unscheduled
  | e :: _ => agentStep e s.dequeue

/-- `s` with the instruction of `nbits` bits `w` placed where the next step fetches it: its bytes at PC, the
block `Running` and nothing scheduled before it (log 16). -/
def State.withFetchWord (s : State) (nbits w : Nat) : State := s.placeWord (tableWord nbits w)

end Sys2Proof.Machine
end

