-- ==== Sys2Proof/Machine/Runs.lean ====
section
/-! DEFINITION. Infinite interleavings of the agents' steps and their weak fairness (60_exceptions.md R248, R251). -/

namespace Sys2Proof.Machine

/-- Which steps may be taken in a run state (R250): `exec` and `exit` only where the CPU has them, a tick always,
and the host's requests always, since one that R275 does not list is refused without effect. -/
def AgentStep.enabled (e : AgentStep) (r : RunState) : Bool :=
  match e with
  | .exec _ => r.executes
  | .exit => decide (r = .stopRequested)
  | .tick => true
  | .keyWrite _ => true
  | .keyDown _ => true
  | .keyUp _ => true
  | .loadProgram _ => true
  | .start => true
  | .stop => true
  | .readDisplay => true
  | .readStatus => true

/-- The step is a CPU `exec`. -/
def AgentStep.isExec : AgentStep → Bool
  | .exec _ => true
  | _ => false

/-- An interleaving: an infinite run in which step n is the enabled agent step `moves n`, put on the schedule for
it (R250, R251). Any enabled step of any agent may be `moves n`. -/
structure Interleaving (moves : Nat → AgentStep) (run : Nat → State) : Prop where
  enabled : ∀ n, (moves n).enabled (run n).run = true
  steps : ∀ n, step { run n with schedule := [moves n] } = .next (run (n + 1))

/-- Weak fairness of the moves p while c: if c holds from some point on, a move of p is taken again and again. -/
def WeaklyFair (c : RunState → Bool) (p : AgentStep → Bool) (moves : Nat → AgentStep) (run : Nat → State) : Prop :=
  (∃ k, ∀ n, k ≤ n → c (run n).run = true) → ∀ k, ∃ n, k ≤ n ∧ p (moves n) = true

/-- A fair run (R251): weakly fair for CPU `exec` while `Running`, for CPU `exit` while `StopRequested`, and for
TIMER `tick` while either (R248). Host steps have no fairness. -/
structure FairRun (moves : Nat → AgentStep) (run : Nat → State) : Prop extends Interleaving moves run where
  exec_fair : WeaklyFair (fun r => decide (r = .running)) AgentStep.isExec moves run
  exit_fair : WeaklyFair (fun r => decide (r = .stopRequested)) (fun e => decide (e = .exit)) moves run
  tick_fair : WeaklyFair RunState.executes (fun e => decide (e = .tick)) moves run

end Sys2Proof.Machine
end

