-- ==== Sys2Proof/Safety.lean ====
section
/-! DEFINITION. What counts as a safe run, the invariants of the block, and the terms the statements are written in. -/

namespace Sys2Proof.Machine

/-! ## Safe runs and invariants -/

/-- A safe state: no fault has ended the instruction cycle (R241, R242). -/
def State.safe (s : State) : Bool :=
  match s.run with
  | .crashed _ => false
  | _ => true

/-- Memory is in its canonical form. -/
def State.memCanonical (s : State) : Prop := Memory.wf s.config s.mem

/-- The cell holds a value. -/
def Cell.isHeld {w : Nat} : Cell w → Bool
  | .held _ => true
  | .unwritten => false

/-- Under `RESET_POLICY = Zero` no register holds `⊥` (R47). -/
def State.allHeld (s : State) : Bool :=
  s.config.resetPolicy == .zero && s.v.toList.all Cell.isHeld && s.i.isHeld && s.dt.isHeld && s.st.isHeld

/-- The instructions R231 lists as raising `MEM_RANGE`. -/
def accessesMemory : Instr → Bool
  | .drw _ _ _ => true
  | .ldBVx _ => true
  | .ldMemVx _ => true
  | .ldVxMem _ => true
  | _ => false

/-- The instructions R231 lists as raising `KEY_RANGE`. -/
def testsKey : Instr → Bool
  | .skp _ => true
  | .sknp _ => true
  | _ => false

/-- The instruction R231 lists as raising `STACK_OVERFLOW`. -/
def isCall : Instr → Bool
  | .call _ => true
  | _ => false

/-- The word is that of an instruction for which p holds. -/
def wordIs (p : Instr → Bool) (op : Word) : Bool :=
  match decode op with
  | .ok i => p i
  | .error _ => false

/-- A crash record is one the table of R231 allows: its code, who raised it and its info belong to its cause. -/
def CrashRecord.fits (r : CrashRecord) : Bool :=
  match r.cause, r.opcode, r.info with
  | .memRange, none, .number a => r.code == 1 && decide (4095 ≤ a) && (a == r.pc.toNat || a == r.pc.toNat + 1)
  | .memRange, some op, .number a => r.code == 1 && decide (4095 ≤ a) && wordIs accessesMemory op
  | .stackOverflow, some op, .number n => r.code == 2 && n == 16 && wordIs isCall op
  | .stackUnderflow, some op, .number n => r.code == 3 && n == 0 && op == 0x00EE#16
  | .keyRange, some op, .number k => r.code == 4 && decide (15 < k) && decide (k < 256) && wordIs testsKey op
  | .unwritten, none, .cell (.mem a) => r.code == 5 && (a == r.pc.toNat || a == r.pc.toNat + 1)
  | .unwritten, some _, .cell _ => r.code == 5
  | _, _, _ => false

/-- Any crash record the block holds fits R231. -/
def State.crashFits (s : State) : Bool :=
  match s.run with
  | .crashed r => r.fits
  | _ => true

/-! ## Frames: what a step leaves as it was

Each says that every field but the named ones is unchanged: the other registers, I, PC, SP, the stack, the
timers, memory, the display, the latch, the run state, the configuration and the model's own fields. -/

/-- Nothing but V0..VF changed. -/
def onlyV (s t : State) : Prop := t = { s with v := t.v }

/-- Nothing but PC changed. -/
def onlyPc (s t : State) : Prop := t = { s with pc := t.pc }

/-- Nothing but I changed. -/
def onlyI (s t : State) : Prop := t = { s with i := t.i }

/-- Every register but x and VF is as it was. -/
def keepsRegsBut (s t : State) (x : Nibble) : Prop := ∀ k : Nibble, k ≠ x → k ≠ 15 → t.reg k = s.reg k

/-- Every byte of memory outside the n bytes at a reads as it did. -/
def keepsBytesBut (s t : State) (a n : Nat) : Prop := ∀ b : Nat, b < a ∨ a + n ≤ b → t.byteAt b = s.byteAt b

/-- What an ALU instruction leaves (R24, R141): result r in Vx and flag f in VF, the order of `VF_ORDER`
deciding when x = 15, and nothing else changed. -/
def aluLeaves (s t : State) (x : Nibble) (r f : Byte) : Prop :=
  onlyV s t ∧ keepsRegsBut s t x ∧
  (x ≠ 15 → t.reg x = .held r ∧ t.reg 15 = .held f) ∧
  (x = 15 → t.reg 15 = .held (if s.config.vfOrder = .flagLast then f else r))

/-- What a taken fault leaves (R241), for an instruction whose rule began in `s`: PC back at `pc0`, the block
`Crashed` with this record, and nothing else changed. -/
def crashes (s t : State) (cause : FaultCause) (code : Nat) (op : Word) (info : FaultInfo) : Prop :=
  t = { s with
        pc := s.pc - 2
        run := .crashed { cause := cause, code := code, pc := s.pc - 2, opcode := some op, info := info } }

/-- The step of `s` is a CPU `exec`, and `u` is the state its fetch sees (R250): the step the schedule names next,
with the random byte it carries; or, with nothing scheduled, the block `Running`, or `StopRequested` with a free
choice that is no exit, and a free random byte (logs 5, 6, 7). -/
def cpuMoves (s u : State) : Prop :=
  (∃ (r : Byte) (es : List AgentStep), s.schedule = .exec r :: es ∧ (s.run = .running ∨ s.run = .stopRequested) ∧
    u = { s with schedule := es, randomPort := r }) ∨
  (s.schedule = [] ∧ (s.run = .running ∨ (s.run = .stopRequested ∧ exitsNow s.oracle = false)) ∧
    u = { s with oracle := s.oracle + 1, randomPort := Config.randomByte s.oracle })

/-- The step of `s`, a CPU step whose fetch sees `u` and faults, leaves PC where it was, the block `Crashed` with no
opcode recorded, and nothing else of `u` changed (R95, R241). -/
def fetchCrashes (s u : State) (cause : FaultCause) (code : Nat) (info : FaultInfo) : Prop :=
  step s = .next { u with
    run := .crashed { cause := cause, code := code, pc := s.pc, opcode := none, info := info } }

/-! ## Families, as the rules list them -/

/-- The destination register of an instruction of the ALU family (41_alu.md R142-R153). -/
def aluDest : Instr → Option Nibble
  | .ldVxKk x _ => some x
  | .addVxKk x _ => some x
  | .ldVxVy x _ => some x
  | .orVxVy x _ => some x
  | .andVxVy x _ => some x
  | .xorVxVy x _ => some x
  | .addVxVy x _ => some x
  | .subVxVy x _ => some x
  | .shrVxVy x _ => some x
  | .subnVxVy x _ => some x
  | .shlVxVy x _ => some x
  | .rnd x _ => some x
  | _ => none

/-- The cells V0..Vx, ascending (R174). -/
def registerBlock (x : Nibble) : List CellName :=
  (List.range (x.toNat + 1)).map fun k => .v (BitVec.ofNat 4 k)

/-- The registers an instruction reads before it touches memory, in the order of its rule's pseudocode (R239). -/
def registerReads : Instr → List CellName
  | .jpV0 _ => [.v 0]
  | .seVxKk x _ => [.v x]
  | .sneVxKk x _ => [.v x]
  | .seVxVy x y => [.v x, .v y]
  | .sneVxVy x y => [.v x, .v y]
  | .addVxKk x _ => [.v x]
  | .ldVxVy _ y => [.v y]
  | .orVxVy x y => [.v x, .v y]
  | .andVxVy x y => [.v x, .v y]
  | .xorVxVy x y => [.v x, .v y]
  | .addVxVy x y => [.v x, .v y]
  | .subVxVy x y => [.v x, .v y]
  | .shrVxVy _ y => [.v y]
  | .subnVxVy x y => [.v x, .v y]
  | .shlVxVy _ y => [.v y]
  | .addIVx x => [.i, .v x]
  | .ldFVx x => [.v x]
  | .ldBVx x => [.v x, .i]
  | .ldMemVx x => .i :: registerBlock x
  | .ldVxMem _ => [.i]
  | .ldVxDt _ => [.dt]
  | .ldDtVx x => [.v x]
  | .ldStVx x => [.v x]
  | .drw x y _ => [.v x, .v y, .i]
  | .skp x => [.v x]
  | .sknp x => [.v x]
  | .cls => []
  | .ret => []
  | .sys _ => []
  | .jp _ => []
  | .call _ => []
  | .ldVxKk _ _ => []
  | .ldI _ => []
  | .rnd _ _ => []
  | .ldVxK _ => []

/-- How many bytes of memory an instruction reads at I (R175, R204). -/
def bytesRead : Instr → Nat
  | .ldVxMem x => x.toNat + 1
  | .drw _ _ n => n.toNat
  | _ => 0

/-- The named cell holds `⊥`. -/
def State.lacks (s : State) : CellName → Prop
  | .v x => s.reg x = .unwritten
  | .i => s.i = .unwritten
  | .dt => s.dt = .unwritten
  | .mem a => s.byteAt a = .unwritten

/-- The faults an instruction may raise in a state (R231): who raises it, and on what. -/
def raises (i : Instr) (s : State) : Fault → Prop
  | .memRange a => 4095 ≤ a ∧ accessesMemory i = true
  | .stackOverflow n => n = 16 ∧ s.sp.val = 16 ∧ isCall i = true
  | .stackUnderflow n => n = 0 ∧ s.sp.val = 0 ∧ i = .ret
  | .keyRange k => 15 < k.toNat ∧ testsKey i = true
  | .unwritten c => s.lacks c

/-- The agent step is one of the host's (R250). -/
def AgentStep.byHost : AgentStep → Bool
  | .keyWrite _ => true
  | .keyDown _ => true
  | .keyUp _ => true
  | .loadProgram _ => true
  | .start => true
  | .stop => true
  | .readDisplay => true
  | .readStatus => true
  | .exec _ => false
  | .exit => false
  | .tick => false

/-! ## Sprites (44_display.md) -/

/-- DRW's operands and sprite bytes are readable: Vx, Vy, I and the n bytes at I, all inside memory (R204). -/
def spriteReady (s : State) (x y n : Nibble) (ox oy : Byte) (base : Word) (rows : List Byte) : Prop :=
  s.reg x = .held ox ∧ s.reg y = .held oy ∧ s.i = .held base ∧ rows.length = n.toNat ∧
  ∀ (r : Nat) (row : Byte), rows[r]? = some row → base.toNat + r < 4095 ∧ s.byteAt (base.toNat + r) = .held row

/-- The sprite has a pixel at (px, py) of the grid: bit 7 - c of row r is 1 (R205), and (ox + c, oy + r) is
that position, both coordinates wrapped exactly when the origin lies outside the grid (R206). -/
def spriteCovers (ox oy : Byte) (rows : List Byte) (px py : Nat) : Prop :=
  ∃ (r c : Nat) (row : Byte), c < 8 ∧ rows[r]? = some row ∧ row.getLsbD (7 - c) = true ∧
    if ox.toNat ≥ 64 ∨ oy.toNat ≥ 32 then px = (ox.toNat + c) % 64 ∧ py = (oy.toNat + r) % 32
    else px = ox.toNat + c ∧ py = oy.toNat + r

/-- VF after a draw (R208): 1 if a pixel collided, else 0 or unchanged as `DRW_VF` says. -/
def drawFlag (s : State) (collided : Prop) (after : Cell8) : Prop :=
  (collided → after = .held 1) ∧
  (¬collided → after = if s.config.drwVf = .clear then .held 0 else s.reg 15)

/-! ## Nested calls (40_control_flow.md R132) -/

/-- `t` is reached from `s` by steps that leave the stack alone and by calls with their returns, properly nested. -/
inductive WellNested : State → State → Prop where
  /-- No step. -/
  | nil (s : State) : WellNested s s
  /-- Any change that leaves SP and the stack alone (any instruction but CALL and RET, a fetch, another agent's step). -/
  | quiet (s t u : State) : t.sp = s.sp → t.stack = s.stack → WellNested t u → WellNested s u
  /-- A CALL that does not overflow, a nested run, and its RET. -/
  | call (s t u v w : State) (nnn : Addr) : s.sp.val < 16 → exec (.call nnn) s = .next t → WellNested t u →
      exec .ret u = .next v → WellNested v w → WellNested s w

end Sys2Proof.Machine
end

