-- ==== Sys2Proof/Certificates/Slice0/Obligations.lean ====
section
/-! DEFINITION. The statements for the provers, from the spec's numbered rules. A statement about `exec` starts from a state whose PC is already `pc0 + 2` (R15, R96). -/

open Sys2Proof Sys2Proof.Machine

/-! ## Encoding and decoding (30_encoding.md) -/

/-- Words written out from R98, one or more per family, decode as the table says; the last five are the
unrecognised words of 95_test_vectors.md section 2.1. -/
def Obligations.SampleWordsDecode : Prop :=
  decode 0x00E0 = .ok .cls ∧ decode 0x00EE = .ok .ret ∧ decode 0x0123 = .ok (.sys 0x123) ∧
  decode 0x1234 = .ok (.jp 0x234) ∧ decode 0x2300 = .ok (.call 0x300) ∧ decode 0x3310 = .ok (.seVxKk 3 0x10) ∧
  decode 0x5120 = .ok (.seVxVy 1 2) ∧ decode 0x7102 = .ok (.addVxKk 1 2) ∧ decode 0x8126 = .ok (.shrVxVy 1 2) ∧
  decode 0xA300 = .ok (.ldI 0x300) ∧ decode 0xB300 = .ok (.jpV0 0x300) ∧ decode 0xC30F = .ok (.rnd 3 0x0F) ∧
  decode 0xD012 = .ok (.drw 0 1 2) ∧ decode 0xE19E = .ok (.skp 1) ∧ decode 0xF507 = .ok (.ldVxDt 5) ∧
  decode 0xF733 = .ok (.ldBVx 7) ∧
  decode 0x5121 = .error (.unrecognised 0x5121) ∧ decode 0x912F = .error (.unrecognised 0x912F) ∧
  decode 0x8008 = .error (.unrecognised 0x8008) ∧ decode 0xE09F = .error (.unrecognised 0xE09F) ∧
  decode 0xF0FF = .error (.unrecognised 0xF0FF)

/-- The decoder reads back every well-formed instruction from its two bytes, with every operand (R98, R111). -/
def Obligations.DecodeReadsBackEncode : Prop :=
  ∀ i : Instr, i.wellFormed = true → decodeBytes (encodeBytes i) = .ok i

/-- A word the decoder accepts is the encoding of what it answers, which is well-formed: no bit of the word
is dropped and no two words give one instruction (R98, R99). -/
def Obligations.DecodedWordReencodes : Prop :=
  ∀ (op : Word) (i : Instr), decode op = .ok i → i.wellFormed = true ∧ encode i = op

/-- The decoder rejects exactly the words R99-R103 leave unrecognised, and every one as unrecognised: `5XYn` and
`9XYn` with n not 0, `8XYn` with n in 8..D or F, `EXkk` and `FXkk` with kk none of the listed bytes. -/
def Obligations.RejectsExactlyTheUnrecognisedWords : Prop :=
  ∀ op : Word,
    ((∃ e, decode op = .error e) ↔
      ((op.toNat / 0x1000 = 5 ∨ op.toNat / 0x1000 = 9) ∧ op.toNat % 16 ≠ 0) ∨
      (op.toNat / 0x1000 = 8 ∧ op.toNat % 16 ∈ [8, 9, 0xA, 0xB, 0xC, 0xD, 0xF]) ∨
      (op.toNat / 0x1000 = 0xE ∧ op.toNat % 256 ∉ [0x9E, 0xA1]) ∨
      (op.toNat / 0x1000 = 0xF ∧ op.toNat % 256 ∉ [0x07, 0x0A, 0x15, 0x18, 0x1E, 0x29, 0x33, 0x55, 0x65])) ∧
    ∀ e, decode op = .error e → e = .unrecognised op

/-! ## The instruction cycle (30_encoding.md R95-R97, R104) -/

/-- A step that fetches a word which decodes to an instruction is `exec` of it with PC two further (R95-R97).
In the model's terms: the step is the CPU's by the schedule, which also supplies the random byte; or, with
nothing scheduled, because the block is `Running`, or `StopRequested` and a free choice does not end the cycle
first (logs 5, 6, 7). -/
def Obligations.StepRunsDecodedInstruction : Prop :=
  ∀ (s : State) (hi lo : Byte) (i : Instr),
    s.pc.toNat + 1 < 4095 → s.byteAt s.pc.toNat = .held hi → s.byteAt (s.pc.toNat + 1) = .held lo →
    decode (hi ++ lo) = .ok i →
    (∀ (r : Byte) (es : List AgentStep), s.schedule = .exec r :: es → (s.run = .running ∨ s.run = .stopRequested) →
      step s = exec i { s with schedule := es, randomPort := r, pc := s.pc + 2 }) ∧
    (s.schedule = [] → s.run = .running →
      step s = exec i { s with randomPort := Config.randomByte s.oracle, oracle := s.oracle + 1, pc := s.pc + 2 }) ∧
    (s.schedule = [] → s.run = .stopRequested →
      step s = if exitsNow s.oracle then .next { s with oracle := s.oracle + 1, run := .stopped }
        else exec i { s with randomPort := Config.randomByte s.oracle, oracle := s.oracle + 1, pc := s.pc + 2 })

/-- An unrecognised opcode executes as a no-op: the only effect of the CPU step that fetches it is the PC advance
(R104), whether the schedule names the step or not. -/
def Obligations.UnrecognisedOpcodeOnlyAdvancesPc : Prop :=
  ∀ (s u : State) (hi lo : Byte) (e : Reject), cpuMoves s u →
    s.pc.toNat + 1 < 4095 → s.byteAt s.pc.toNat = .held hi → s.byteAt (s.pc.toNat + 1) = .held lo →
    decode (hi ++ lo) = .error e → step s = .next { u with pc := s.pc + 2 }

/-- Where the fetch of a CPU step faults, and how the fault is taken, whether the schedule names the step or not:
first the two addresses, then the two cells, in that order, recorded with no opcode and with PC and everything
else as before (R95, R239, R241). -/
def Obligations.FetchFaultsInOrder : Prop :=
  ∀ (s u : State) (hi : Byte), cpuMoves s u →
    (4095 ≤ s.pc.toNat → fetchCrashes s u .memRange 1 (.number s.pc.toNat)) ∧
    (s.pc.toNat = 4094 → fetchCrashes s u .memRange 1 (.number 4095)) ∧
    (s.pc.toNat < 4094 → s.byteAt s.pc.toNat = .unwritten →
      fetchCrashes s u .unwritten 5 (.cell (.mem s.pc.toNat))) ∧
    (s.pc.toNat < 4094 → s.byteAt s.pc.toNat = .held hi → s.byteAt (s.pc.toNat + 1) = .unwritten →
      fetchCrashes s u .unwritten 5 (.cell (.mem (s.pc.toNat + 1))))

/-- Outside `Running` and `StopRequested` no instruction executes: a scheduled CPU step changes nothing of the
block, and with nothing scheduled nothing changes at all (R250, R275; logs 5, 8). -/
def Obligations.NoInstructionUnlessRunning : Prop :=
  ∀ s : State, s.run ≠ .running → s.run ≠ .stopRequested →
    (s.schedule = [] → step s = .next s) ∧
    (∀ (r : Byte) (es : List AgentStep), s.schedule = .exec r :: es →
      step s = .next { s with schedule := es, randomPort := r })

/-- Every step answers a next state: no state of the block faults or refuses in the host's sense, since every
fault of R231 is taken (R241) and every word is an instruction or a no-op (R97). -/
def Obligations.EveryStepAnswersNext : Prop :=
  (∀ (i : Instr) (s : State), ∃ t, exec i s = .next t) ∧ ∀ s : State, ∃ t, step s = .next t

/-! ## Control transfer (40_control_flow.md) -/

/-- SYS has no effect (R120, D11). -/
def Obligations.SysHasNoEffect : Prop :=
  ∀ (nnn : Addr) (s : State), exec (.sys nnn) s = .next s

/-- JP writes its zero-extended target to PC and nothing else (R121). -/
def Obligations.JpSetsPc : Prop :=
  ∀ (nnn : Addr) (s : State), ∃ t, exec (.jp nnn) s = .next t ∧ t.pc.toNat = nnn.toNat ∧ onlyPc s t

/-- JP V0 goes to the full sum of V0 and nnn, not reduced mod 2^12 (R124). -/
def Obligations.JpV0GoesToTheFullSum : Prop :=
  ∀ (nnn : Addr) (a : Byte) (s : State), s.reg 0 = .held a →
    ∃ t, exec (.jpV0 nnn) s = .next t ∧ t.pc.toNat = a.toNat + nnn.toNat ∧ onlyPc s t

/-- CALL below depth 16 pushes the advanced PC and jumps, leaving the other entries and everything else;
at depth 16 it takes STACK_OVERFLOW with nothing else changed (R122, R232, R241). -/
def Obligations.CallPushesAndJumps : Prop :=
  ∀ (nnn : Addr) (s : State),
    (s.sp.val < 16 → ∃ t, exec (.call nnn) s = .next t ∧ t.stack[s.sp.val]? = some s.pc ∧
      (∀ j : Nat, j ≠ s.sp.val → t.stack[j]? = s.stack[j]?) ∧ t.sp.val = s.sp.val + 1 ∧
      t.pc.toNat = nnn.toNat ∧ t = { s with stack := t.stack, sp := t.sp, pc := t.pc }) ∧
    (s.sp.val = 16 → ∃ t, exec (.call nnn) s = .next t ∧
      crashes s t .stackOverflow 2 (BitVec.ofNat 16 (0x2000 + nnn.toNat)) (.number 16))

/-- RET above depth 0 pops the most recent entry into PC and changes only SP and PC; at depth 0 it takes
STACK_UNDERFLOW with nothing else changed (R123, R233, R241). -/
def Obligations.RetPopsIntoPc : Prop :=
  ∀ s : State,
    (0 < s.sp.val → ∃ t, exec .ret s = .next t ∧ s.stack[s.sp.val - 1]? = some t.pc ∧
      t.sp.val = s.sp.val - 1 ∧ t = { s with sp := t.sp, pc := t.pc }) ∧
    (s.sp.val = 0 → ∃ t, exec .ret s = .next t ∧ crashes s t .stackUnderflow 3 0x00EE (.number 0))

/-- SE and SNE with a byte skip the next word exactly when Vx equals it, or differs (R125, R126). -/
def Obligations.ByteSkips : Prop :=
  ∀ (x : Nibble) (kk a : Byte) (s : State), s.reg x = .held a →
    exec (.seVxKk x kk) s = .next { s with pc := if a = kk then s.pc + 2 else s.pc } ∧
    exec (.sneVxKk x kk) s = .next { s with pc := if a = kk then s.pc else s.pc + 2 }

/-- SE and SNE with two registers skip the next word exactly when they are equal, or differ (R127, R128). -/
def Obligations.RegisterSkips : Prop :=
  ∀ (x y : Nibble) (a b : Byte) (s : State), s.reg x = .held a → s.reg y = .held b →
    exec (.seVxVy x y) s = .next { s with pc := if a = b then s.pc + 2 else s.pc } ∧
    exec (.sneVxVy x y) s = .next { s with pc := if a = b then s.pc else s.pc + 2 }

/-- Only CALL and RET change SP or the stack (R131). -/
def Obligations.OnlyCallAndRetTouchTheStack : Prop :=
  ∀ (i : Instr) (s t : State), exec i s = .next t → i ≠ .ret → (∀ nnn, i ≠ .call nnn) →
    t.sp = s.sp ∧ t.stack = s.stack

/-- Each RET restores the PC its CALL saw, advanced past the CALL, however the calls between them nest (R132). -/
def Obligations.ReturnRestoresTheCallersPc : Prop :=
  ∀ (nnn : Addr) (s t u : State), s.sp.val < 16 → exec (.call nnn) s = .next t → WellNested t u →
    ∃ v, exec .ret u = .next v ∧ v.pc = s.pc ∧ v.sp = s.sp ∧ ∀ j : Nat, j < s.sp.val → v.stack[j]? = s.stack[j]?

/-- A self-jump parks the block: every CPU step at it, scheduled or not, leaves everything of the block as it is (R284). -/
def Obligations.SelfJumpParks : Prop :=
  ∀ (s u : State) (hi lo : Byte) (nnn : Addr), cpuMoves s u → s.run = .running →
    s.byteAt s.pc.toNat = .held hi → s.byteAt (s.pc.toNat + 1) = .held lo →
    s.pc.toNat + 1 < 4095 → decode (hi ++ lo) = .ok (.jp nnn) → s.pc.toNat = nnn.toNat →
    step s = .next u

/-! ## ALU and register moves (41_alu.md) -/

/-- LD Vx, kk and LD Vx, Vy write Vx and nothing else, VF only as the destination (R142, R144). -/
def Obligations.RegisterLoadsWriteVx : Prop :=
  ∀ (x y : Nibble) (kk b : Byte) (s : State),
    (∃ t, exec (.ldVxKk x kk) s = .next t ∧ t.reg x = .held kk ∧ (∀ k : Nibble, k ≠ x → t.reg k = s.reg k) ∧ onlyV s t) ∧
    (s.reg y = .held b →
      ∃ t, exec (.ldVxVy x y) s = .next t ∧ t.reg x = .held b ∧ (∀ k : Nibble, k ≠ x → t.reg k = s.reg k) ∧ onlyV s t)

/-- RND writes the random port's byte masked with kk, whatever byte that is (R153, R258). -/
def Obligations.RndMasksTheRandomByte : Prop :=
  ∀ (x : Nibble) (kk : Byte) (s : State),
    ∃ t, exec (.rnd x kk) s = .next t ∧ t.reg x = .held (s.randomPort &&& kk) ∧
      (∀ k : Nibble, k ≠ x → t.reg k = s.reg k) ∧ onlyV s t

/-- ADD Vx, kk: the sum mod 256; on a carry VF is 1, otherwise VF is unchanged under `ADDI_VF = Keep` and 0
under `Clear`, `VF_ORDER` deciding when x = 15 (R143, R141). -/
def Obligations.AddByteSetsCarry : Prop :=
  ∀ (x : Nibble) (kk a : Byte) (s : State), s.reg x = .held a →
    ∃ t, exec (.addVxKk x kk) s = .next t ∧
      (a.toNat + kk.toNat > 255 → aluLeaves s t x (BitVec.ofNat 8 (a.toNat + kk.toNat - 256)) 1) ∧
      (a.toNat + kk.toNat ≤ 255 → s.config.addiVf = .clear →
        aluLeaves s t x (BitVec.ofNat 8 (a.toNat + kk.toNat)) 0) ∧
      (a.toNat + kk.toNat ≤ 255 → s.config.addiVf = .keep →
        onlyV s t ∧ t.reg x = .held (BitVec.ofNat 8 (a.toNat + kk.toNat)) ∧ ∀ k : Nibble, k ≠ x → t.reg k = s.reg k)

/-- OR, AND and XOR work bit by bit and clear VF (R145-R147). -/
def Obligations.BitwiseOpsClearVf : Prop :=
  ∀ (x y : Nibble) (a b : Byte) (s : State), s.reg x = .held a → s.reg y = .held b →
    ∃ t u w, exec (.orVxVy x y) s = .next t ∧ exec (.andVxVy x y) s = .next u ∧ exec (.xorVxVy x y) s = .next w ∧
      ∃ ro ra rx : Byte, aluLeaves s t x ro 0 ∧ aluLeaves s u x ra 0 ∧ aluLeaves s w x rx 0 ∧
        ∀ j : Nat, ro.getLsbD j = (a.getLsbD j || b.getLsbD j) ∧ ra.getLsbD j = (a.getLsbD j && b.getLsbD j) ∧
          rx.getLsbD j = (a.getLsbD j != b.getLsbD j)

/-- ADD Vx, Vy: the sum mod 256, VF = 1 iff the sum exceeds 255 (R148). -/
def Obligations.AddSetsCarry : Prop :=
  ∀ (x y : Nibble) (a b : Byte) (s : State), s.reg x = .held a → s.reg y = .held b →
    ∃ t, exec (.addVxVy x y) s = .next t ∧
      aluLeaves s t x (BitVec.ofNat 8 ((a.toNat + b.toNat) % 256)) (if a.toNat + b.toNat > 255 then 1 else 0)

/-- SUB and SUBN: the difference mod 256, VF = 1 iff nothing is borrowed (R149, R151). -/
def Obligations.SubtractionsSetNoBorrow : Prop :=
  ∀ (x y : Nibble) (a b : Byte) (s : State), s.reg x = .held a → s.reg y = .held b →
    ∃ t u, exec (.subVxVy x y) s = .next t ∧ exec (.subnVxVy x y) s = .next u ∧
      aluLeaves s t x (BitVec.ofNat 8 ((256 + a.toNat - b.toNat) % 256)) (if a.toNat ≥ b.toNat then 1 else 0) ∧
      aluLeaves s u x (BitVec.ofNat 8 ((256 + b.toNat - a.toNat) % 256)) (if b.toNat ≥ a.toNat then 1 else 0)

/-- SHR and SHL shift a copy of Vy into Vx, VF the bit shifted out; the old Vx is not read (R150, R152). -/
def Obligations.ShiftsCopyVyFirst : Prop :=
  ∀ (x y : Nibble) (b : Byte) (s : State), s.reg y = .held b →
    ∃ t u, exec (.shrVxVy x y) s = .next t ∧ exec (.shlVxVy x y) s = .next u ∧
      aluLeaves s t x (BitVec.ofNat 8 (b.toNat / 2)) (BitVec.ofNat 8 (b.toNat % 2)) ∧
      aluLeaves s u x (BitVec.ofNat 8 (b.toNat * 2 % 256)) (BitVec.ofNat 8 (b.toNat / 128))

/-- The ALU family writes only Vx and VF, and the only fault it takes is UNWRITTEN (R154). -/
def Obligations.AluWritesOnlyVxAndVf : Prop :=
  ∀ (i : Instr) (x : Nibble) (s t : State), aluDest i = some x → exec i s = .next t →
    (onlyV s t ∧ keepsRegsBut s t x) ∨
    ∃ c : CellName, s.lacks c ∧ crashes s t .unwritten 5 (encode i) (.cell c)

/-- When x is not 15, `VF_ORDER` makes no difference (R141). -/
def Obligations.VfOrderMattersOnlyForVf : Prop :=
  ∀ (i : Instr) (x : Nibble) (s t : State) (o : VfOrder), aluDest i = some x → x ≠ 15 → exec i s = .next t →
    exec i { s with config := { s.config with vfOrder := o } } =
      .next { t with config := { s.config with vfOrder := o } }

/-! ## Index register and memory transfers (42_index_memory.md) -/

/-- LD I writes the zero-extended address; ADD I adds Vx mod 2^16 and leaves VF (R170, R171). -/
def Obligations.IndexLoadAndAdd : Prop :=
  ∀ (nnn : Addr) (x : Nibble) (a : Word) (b : Byte) (s : State),
    (∃ t, exec (.ldI nnn) s = .next t ∧ t.i = .held (BitVec.ofNat 16 nnn.toNat) ∧ onlyI s t) ∧
    (s.i = .held a → s.reg x = .held b →
      ∃ t, exec (.addIVx x) s = .next t ∧ t.i = .held (BitVec.ofNat 16 ((a.toNat + b.toNat) % 65536)) ∧ onlyI s t)

/-- LD F points I at glyph Vx: 5 times Vx, or 5 times its low nibble under `FONT_HI = LowNibble` (R172). -/
def Obligations.GlyphAddressIsFiveTimesTheDigit : Prop :=
  ∀ (x : Nibble) (b : Byte) (s : State), s.reg x = .held b →
    ∃ t, exec (.ldFVx x) s = .next t ∧ onlyI s t ∧
      t.i = .held (BitVec.ofNat 16 (if s.config.fontHi = .unmasked then 5 * b.toNat else 5 * (b.toNat % 16)))

/-- LD B stores hundreds, tens and units at I, I+1, I+2 and changes nothing else, I included (R173). -/
def Obligations.BcdStoresThreeDigits : Prop :=
  ∀ (x : Nibble) (b : Byte) (base : Word) (s : State), s.reg x = .held b → s.i = .held base → base.toNat + 2 < 4095 →
    ∃ t, exec (.ldBVx x) s = .next t ∧
      (∃ d₀ d₁ d₂ : Byte, t.byteAt base.toNat = .held d₀ ∧ t.byteAt (base.toNat + 1) = .held d₁ ∧
        t.byteAt (base.toNat + 2) = .held d₂ ∧ d₁.toNat < 10 ∧ d₂.toNat < 10 ∧
        100 * d₀.toNat + 10 * d₁.toNat + d₂.toNat = b.toNat) ∧
      keepsBytesBut s t base.toNat 3 ∧ t = { s with mem := t.mem }

/-- LD [I] stores V0..Vx at I and up and advances I by x + 1; nothing else changes (R174). -/
def Obligations.DumpStoresTheRegisterBlock : Prop :=
  ∀ (x : Nibble) (val : Nibble → Byte) (base : Word) (s : State),
    (∀ r : Nibble, r.toNat ≤ x.toNat → s.reg r = .held (val r)) → s.i = .held base → base.toNat + x.toNat < 4095 →
    ∃ t, exec (.ldMemVx x) s = .next t ∧
      (∀ r : Nibble, r.toNat ≤ x.toNat → t.byteAt (base.toNat + r.toNat) = .held (val r)) ∧
      keepsBytesBut s t base.toNat (x.toNat + 1) ∧ t.i = .held (BitVec.ofNat 16 (base.toNat + x.toNat + 1)) ∧
      t = { s with mem := t.mem, i := t.i }

/-- LD Vx, [I] loads V0..Vx from I and up and advances I by x + 1; the registers above x and everything else
are unchanged (R175). -/
def Obligations.LoadFillsTheRegisterBlock : Prop :=
  ∀ (x : Nibble) (val : Nibble → Byte) (base : Word) (s : State),
    (∀ r : Nibble, r.toNat ≤ x.toNat → s.byteAt (base.toNat + r.toNat) = .held (val r)) → s.i = .held base →
    base.toNat + x.toNat < 4095 →
    ∃ t, exec (.ldVxMem x) s = .next t ∧
      (∀ r : Nibble, r.toNat ≤ x.toNat → t.reg r = .held (val r)) ∧
      (∀ r : Nibble, x.toNat < r.toNat → t.reg r = s.reg r) ∧
      t.i = .held (BitVec.ofNat 16 (base.toNat + x.toNat + 1)) ∧ t = { s with v := t.v, i := t.i }

/-- An instruction whose block at I leaves memory takes MEM_RANGE at the first address that is not below
4095, before anything is written: LD B, LD [I], LD Vx,[I] and DRW, their registers readable (R178, R210, R234, R241). -/
def Obligations.BlockOutsideMemoryCrashes : Prop :=
  ∀ (x y n : Nibble) (val : Nibble → Byte) (b : Byte) (base : Word) (s : State),
    s.i = .held base →
    (s.reg x = .held b → 4095 < base.toNat + 3 → ∃ t, exec (.ldBVx x) s = .next t ∧
      crashes s t .memRange 1 (BitVec.ofNat 16 (0xF033 + 0x100 * x.toNat)) (.number (max 4095 base.toNat))) ∧
    ((∀ r : Nibble, r.toNat ≤ x.toNat → s.reg r = .held (val r)) → 4095 < base.toNat + x.toNat + 1 →
      ∃ t, exec (.ldMemVx x) s = .next t ∧
        crashes s t .memRange 1 (BitVec.ofNat 16 (0xF055 + 0x100 * x.toNat)) (.number (max 4095 base.toNat))) ∧
    (4095 < base.toNat + x.toNat + 1 → ∃ t, exec (.ldVxMem x) s = .next t ∧
      crashes s t .memRange 1 (BitVec.ofNat 16 (0xF065 + 0x100 * x.toNat)) (.number (max 4095 base.toNat))) ∧
    (s.reg x = .held b → s.reg y = .held (val y) → 0 < n.toNat → 4095 < base.toNat + n.toNat →
      ∃ t, exec (.drw x y n) s = .next t ∧
        crashes s t .memRange 1 (BitVec.ofNat 16 (0xD000 + 0x100 * x.toNat + 0x10 * y.toNat + n.toNat))
          (.number (max 4095 base.toNat)))

/-- The next fetch sees a store: opcode bytes that LD [I] has just written are the word fetched (R81). -/
def Obligations.FetchSeesTheStore : Prop :=
  ∀ (x r r' : Nibble) (val : Nibble → Byte) (base : Word) (s t : State),
    (∀ k : Nibble, k.toNat ≤ x.toNat → s.reg k = .held (val k)) → s.i = .held base → base.toNat + x.toNat < 4095 →
    exec (.ldMemVx x) s = .next t → r'.toNat = r.toNat + 1 → r'.toNat ≤ x.toNat →
    s.pc.toNat = base.toNat + r.toNat → t.fetch = .ok (val r ++ val r')

/-! ## Timers (43_timer_regs.md, 60_exceptions.md R245-R246) -/

/-- LD Vx, DT reads DT; LD DT and LD ST write their timer; nothing else changes (R190-R192). -/
def Obligations.TimerRegistersMove : Prop :=
  ∀ (x : Nibble) (b : Byte) (s : State),
    (s.dt = .held b → ∃ t, exec (.ldVxDt x) s = .next t ∧ t.reg x = .held b ∧
      (∀ k : Nibble, k ≠ x → t.reg k = s.reg k) ∧ onlyV s t) ∧
    (s.reg x = .held b → exec (.ldDtVx x) s = .next { s with dt := .held b } ∧
      exec (.ldStVx x) s = .next { s with st := .held b })

/-- A tick takes 1 from each timer that is above 0 and changes nothing else, in every run state; an unwritten
timer stays unwritten (R245, R246). So in a fair run that goes on executing and in which no instruction writes DT,
the ticks bring DT to 0, whatever it holds (R248, R251). -/
def Obligations.TickDecrementsBothTimers : Prop :=
  (∀ (s : State) (es : List AgentStep), s.schedule = .tick :: es →
    ∃ t, step s = .next t ∧ t = { s with schedule := es, dt := t.dt, st := t.st } ∧
      (s.dt = .unwritten → t.dt = .unwritten) ∧ (s.st = .unwritten → t.st = .unwritten) ∧
      (∀ a : Byte, s.dt = .held a → t.dt = .held (BitVec.ofNat 8 (a.toNat - 1))) ∧
      (∀ a : Byte, s.st = .held a → t.st = .held (BitVec.ofNat 8 (a.toNat - 1)))) ∧
  ∀ (moves : Nat → AgentStep) (run : Nat → State) (k : Nat) (a : Byte), FairRun moves run →
    (∀ n, k ≤ n → (run n).run = .running ∨ (run n).run = .stopRequested) →
    (∀ n, k ≤ n → (moves n).isExec = true → (run (n + 1)).dt = (run n).dt) →
    (run k).dt = .held a → ∃ m, k ≤ m ∧ ∀ n, m ≤ n → (run n).dt = .held 0

/-- No instruction reads ST: what it holds shows in nothing but ST itself (R37). -/
def Obligations.NoInstructionReadsSt : Prop :=
  ∀ (i : Instr) (s t : State) (c : Cell8), exec i s = .next t →
    ∃ t', exec i { s with st := c } = .next t' ∧ t' = { t with st := t'.st }

/-! ## Display (44_display.md) -/

/-- CLS sets all 2048 pixels to 0 and changes nothing else, VF included (R203). -/
def Obligations.ClsClearsEveryPixel : Prop :=
  ∀ s : State, ∃ t, exec .cls s = .next t ∧ (∀ px py : Nat, px < 64 → py < 32 → t.disp.pixel px py = false) ∧
    t = { s with disp := t.disp }

/-- DRW toggles exactly the pixels its sprite covers, wrapped or clipped as R206 says, sets VF to 1 iff one of
them was on, and changes nothing else (R204-R209). -/
def Obligations.DrwTogglesExactlyTheSprite : Prop :=
  ∀ (x y n : Nibble) (ox oy : Byte) (base : Word) (rows : List Byte) (s : State),
    spriteReady s x y n ox oy base rows →
    ∃ t, exec (.drw x y n) s = .next t ∧
      (∀ px py : Nat, px < 64 → py < 32 →
        (spriteCovers ox oy rows px py → t.disp.pixel px py = !s.disp.pixel px py) ∧
        (¬spriteCovers ox oy rows px py → t.disp.pixel px py = s.disp.pixel px py)) ∧
      drawFlag s (∃ px py : Nat, px < 64 ∧ py < 32 ∧ spriteCovers ox oy rows px py ∧ s.disp.pixel px py = true) (t.reg 15) ∧
      (∀ k : Nibble, k ≠ 15 → t.reg k = s.reg k) ∧ t = { s with v := t.v, disp := t.disp }

/-- Drawing the identical sprite at the identical coordinates twice restores the display; the second draw reports
a collision iff the sprite covers a pixel that the first draw turned on (R204, R207, R208). R211 gives the first
clause as a consequence; its remark that the second draw always reports one holds only on such pixels (log 21). -/
def Obligations.DrawingTwiceRestoresTheDisplay : Prop :=
  ∀ (x y n : Nibble) (ox oy : Byte) (base : Word) (rows : List Byte) (s t u : State),
    spriteReady s x y n ox oy base rows → exec (.drw x y n) s = .next t →
    spriteReady u x y n ox oy base rows → u.disp = t.disp →
    ∃ w, exec (.drw x y n) u = .next w ∧ w.disp = s.disp ∧
      drawFlag u (∃ px py : Nat, px < 64 ∧ py < 32 ∧ spriteCovers ox oy rows px py ∧ s.disp.pixel px py = false) (w.reg 15)

/-- A step that changes the display is a CPU step, with the block `Running` or `StopRequested` and the schedule
empty or naming `exec`, and the instruction it executes is CLS or DRW (R201). -/
def Obligations.OnlyClsAndDrwChangeTheDisplay : Prop :=
  ∀ (s t : State), step s = .next t → t.disp ≠ s.disp →
    (s.run = .running ∨ s.run = .stopRequested) ∧
    (s.schedule = [] ∨ ∃ (r : Byte) (es : List AgentStep), s.schedule = .exec r :: es) ∧
    ∃ (u : State) (hi lo : Byte) (i : Instr), cpuMoves s u ∧
      s.byteAt s.pc.toNat = .held hi ∧ s.byteAt (s.pc.toNat + 1) = .held lo ∧ decode (hi ++ lo) = .ok i ∧
      (i = .cls ∨ ∃ x y n : Nibble, i = .drw x y n) ∧ exec i { u with pc := s.pc + 2 } = .next t

/-! ## Keyboard (45_keyboard.md) -/

/-- SKP skips the next word iff key Vx is pressed, SKNP iff it is not (R222, R223). -/
def Obligations.KeySkips : Prop :=
  ∀ (x : Nibble) (k : Byte) (s : State), s.reg x = .held k → k.toNat < 16 →
    exec (.skp x) s = .next { s with pc := if s.keys.getLsbD k.toNat then s.pc + 2 else s.pc } ∧
    exec (.sknp x) s = .next { s with pc := if s.keys.getLsbD k.toNat then s.pc else s.pc + 2 }

/-- A key number above 15 takes KEY_RANGE with that number; Vx is not masked (R225, R235, R241). -/
def Obligations.KeyNumberAbove15Crashes : Prop :=
  ∀ (x : Nibble) (k : Byte) (s : State), s.reg x = .held k → 15 < k.toNat →
    ∃ t u, exec (.skp x) s = .next t ∧ exec (.sknp x) s = .next u ∧
      crashes s t .keyRange 4 (BitVec.ofNat 16 (0xE09E + 0x100 * x.toNat)) (.number k.toNat) ∧
      crashes s u .keyRange 4 (BitVec.ofNat 16 (0xE0A1 + 0x100 * x.toNat)) (.number k.toNat)

/-- LD Vx, K with no key held rewinds PC and changes nothing else; with a key held it captures the lowest one
(R224, R221). -/
def Obligations.KeyWaitRewindsOrCaptures : Prop :=
  ∀ (x : Nibble) (s : State),
    ((∀ k : Nat, k < 16 → s.keys.getLsbD k = false) → exec (.ldVxK x) s = .next { s with pc := s.pc - 2 }) ∧
    (∀ k : Nat, k < 16 → s.keys.getLsbD k = true → (∀ j : Nat, j < k → s.keys.getLsbD j = false) →
      ∃ t, exec (.ldVxK x) s = .next t ∧ t.reg x = .held (BitVec.ofNat 8 k) ∧
        (∀ r : Nibble, r ≠ x → t.reg r = s.reg r) ∧ onlyV s t)

/-- The host's writes to the latch: all 16 bits at once, or one bit; nothing else changes (R226, R254). -/
def Obligations.HostWritesTheKeyLatch : Prop :=
  ∀ (s : State) (es : List AgentStep) (v : Word) (k : Nibble),
    (s.schedule = .keyWrite v :: es → step s = .next { s with schedule := es, keys := v }) ∧
    (s.schedule = .keyDown k :: es → ∃ t, step s = .next t ∧ t = { s with schedule := es, keys := t.keys } ∧
      ∀ j : Nat, j < 16 → t.keys.getLsbD j = (s.keys.getLsbD j || j == k.toNat)) ∧
    (s.schedule = .keyUp k :: es → ∃ t, step s = .next t ∧ t = { s with schedule := es, keys := t.keys } ∧
      ∀ j : Nat, j < 16 → t.keys.getLsbD j = (s.keys.getLsbD j && j != k.toNat))

/-- Only the host's latch writes change the key latch: no instruction, tick or other host step does (R40, R220). -/
def Obligations.OnlyTheHostWritesKeys : Prop :=
  ∀ (s t : State), step s = .next t → t.keys ≠ s.keys →
    ∃ es : List AgentStep, (∃ v, s.schedule = .keyWrite v :: es) ∨ (∃ k, s.schedule = .keyDown k :: es) ∨
      ∃ k, s.schedule = .keyUp k :: es

/-! ## Faults (60_exceptions.md) -/

/-- An instruction takes UNWRITTEN at the first cell it reads that holds `⊥`, with nothing else changed (R47, R238,
R239, R241): the first such register in the order of its rule; then, for LD Vx, [I] and DRW, whose registers are
readable and whose block lies in memory, the first such byte of the block. -/
def Obligations.UnwrittenOperandCrashes : Prop :=
  (∀ (i : Instr) (s : State) (before after : List CellName) (c : CellName),
    registerReads i = before ++ c :: after → (∀ d ∈ before, ¬s.lacks d) → s.lacks c →
    ∃ t, exec i s = .next t ∧ crashes s t .unwritten 5 (encode i) (.cell c)) ∧
  ∀ (i : Instr) (s : State) (base : Word) (k : Nat),
    (∀ d ∈ registerReads i, ¬s.lacks d) → s.i = .held base → base.toNat + bytesRead i ≤ 4095 → k < bytesRead i →
    (∀ j : Nat, j < k → ¬s.lacks (.mem (base.toNat + j))) → s.lacks (.mem (base.toNat + k)) →
    ∃ t, exec i s = .next t ∧ crashes s t .unwritten 5 (encode i) (.cell (.mem (base.toNat + k)))

/-- A fault is precise: a step that crashes the block leaves V, I, PC, SP, the stack, the timers, memory, the
display and the latch as they were, and records where and what was fetched (R241). -/
def Obligations.FaultsArePrecise : Prop :=
  ∀ (s t : State) (rec : CrashRecord), s.safe = true → step s = .next t → t.run = .crashed rec →
    t = { s with run := t.run, schedule := t.schedule, randomPort := t.randomPort, oracle := t.oracle } ∧
    rec.pc = s.pc ∧
    (∀ op : Word, rec.opcode = some op ↔
      s.pc.toNat + 1 < 4095 ∧ ∃ hi lo : Byte, s.byteAt s.pc.toNat = .held hi ∧
        s.byteAt (s.pc.toNat + 1) = .held lo ∧ op = hi ++ lo)

/-- `Crashed` is terminal: no step of any agent leaves it or touches its record, and none changes a register
of the CPU, memory or the display; the timers may still tick (R242, R283). -/
def Obligations.CrashedIsTerminal : Prop :=
  ∀ (s t : State) (rec : CrashRecord), s.run = .crashed rec → step s = .next t →
    t = { s with dt := t.dt, st := t.st, keys := t.keys, schedule := t.schedule, randomPort := t.randomPort, reply := t.reply }

/-- Every step keeps the crash record, if there is one, a row of R231's table: code, raiser and info belong to
the cause. -/
def Obligations.StepKeepsCrashRecordsFitting : Prop :=
  ∀ (s t : State), s.crashFits = true → step s = .next t → t.crashFits = true

/-! ## Construction, load and lifecycle (70_reset_and_hazards.md) -/

/-- What construction leaves, for every configuration and every KEYS0 (R270). -/
def Obligations.ConstructionLeaves : Prop :=
  ∀ (c : Config) (keys0 : Word) (a : Nat),
    let s := State.construct c keys0
    (∀ h : a < 80, s.byteAt a = .held c.fontData[a]) ∧
    (80 ≤ a → a < 4095 → s.byteAt a = if c.resetPolicy = .zero then .held 0 else .unwritten) ∧
    (∀ x : Nibble, s.reg x = if c.resetPolicy = .zero then .held 0 else .unwritten) ∧
    s.i = (if c.resetPolicy = .zero then .held 0 else .unwritten) ∧
    s.dt = (if c.resetPolicy = .zero then .held 0 else .unwritten) ∧
    s.st = (if c.resetPolicy = .zero then .held 0 else .unwritten) ∧
    s.pc = 0x200 ∧ s.sp.val = 0 ∧ (∀ px py : Nat, px < 64 → py < 32 → s.disp.pixel px py = false) ∧
    s.keys = keys0 ∧ s.run = .idle ∧ s.config = c

/-- The reset state satisfies every invariant stated here. It rests on the model's choice of RESET_POLICY =
Zero for `State.reset` (log 1). -/
def Obligations.ResetMeetsTheInvariants : Prop :=
  State.reset.memCanonical ∧ State.reset.allHeld = true ∧ State.reset.crashFits = true ∧ State.reset.safe = true

/-- loadProgram in `Idle`: up to 3583 bytes are written from 0x200 up, every other byte untouched, and the block
is `Loaded`; a longer program writes nothing; in any other run state the load is refused without effect (R272-R275, R280). -/
def Obligations.LoadProgramWritesOrRefuses : Prop :=
  ∀ (s : State) (bytes : List Byte) (es : List AgentStep), s.schedule = .loadProgram bytes :: es →
    (s.run = .idle → bytes.length ≤ 3583 → ∃ t, step s = .next t ∧
      (∀ (k : Nat) (b : Byte), bytes[k]? = some b → t.byteAt (0x200 + k) = .held b) ∧
      keepsBytesBut s t 0x200 bytes.length ∧
      t = { s with schedule := es, mem := t.mem, run := .loaded, reply := some .loadOk }) ∧
    (s.run = .idle → 3583 < bytes.length → step s = .next { s with schedule := es, reply := some .programTooLarge }) ∧
    (s.run ≠ .idle → step s = .next { s with schedule := es, reply := some .refused })

/-- start(), stop() and the CPU's exit move the run state as R275's table says and change nothing else of the block
(R276, R277, R279). That an exit scheduled outside `StopRequested` is a step which only uses up its entry is the
model's choice (log 8). `StopRequested` does not last (R278): in a fair run (R251), and in a run with nothing
scheduled (log 7), the block comes to `Stopped` or to `Crashed`. -/
def Obligations.LifecycleMovesTheRunState : Prop :=
  (∀ (s : State) (es : List AgentStep),
    (s.schedule = .start :: es → step s = .next
      { s with schedule := es, run := if s.run = .loaded ∨ s.run = .stopped then .running else s.run }) ∧
    (s.schedule = .stop :: es → step s = .next
      { s with schedule := es, run := if s.run = .running then .stopRequested else s.run }) ∧
    (s.schedule = .exit :: es → step s = .next
      { s with schedule := es, run := if s.run = .stopRequested then .stopped else s.run })) ∧
  (∀ (moves : Nat → AgentStep) (run : Nat → State) (k : Nat), FairRun moves run → (run k).run = .stopRequested →
    ∃ m, k < m ∧ ((run m).run = .stopped ∨ ∃ rec, (run m).run = .crashed rec)) ∧
  ∀ run : Nat → State, (∀ n, step (run n) = .next (run (n + 1))) → (run 0).schedule = [] →
    (run 0).run = .stopRequested → ∃ m, (run m).run = .stopped ∨ ∃ rec, (run m).run = .crashed rec

/-- The host's read ports give back the display and the run state as they stand, and change nothing of the
block (R212, R253, R255). -/
def Obligations.HostReadsLeaveTheBlock : Prop :=
  ∀ (s : State) (es : List AgentStep),
    (s.schedule = .readDisplay :: es → step s = .next { s with schedule := es, reply := some (.display s.disp) }) ∧
    (s.schedule = .readStatus :: es → step s = .next { s with schedule := es, reply := some (.status s.run) })

/-- The host reaches no register, timer, stack entry or pixel, and no byte of memory once it is past `Idle` (R255). -/
def Obligations.HostCannotReachTheCpu : Prop :=
  ∀ (s t : State) (e : AgentStep) (es : List AgentStep), s.schedule = e :: es → e.byHost = true → step s = .next t →
    t = { s with mem := t.mem, keys := t.keys, run := t.run, schedule := es, reply := t.reply } ∧
    (s.run ≠ .idle → t.mem = s.mem)

/-! ## Invariants every step keeps -/

/-- Every step keeps memory in its canonical form. That form is the model's own choice of how to list the cells
(log 2); the spec gives the cells alone. -/
def Obligations.StepKeepsMemoryCanonical : Prop :=
  ∀ (s t : State), s.memCanonical → step s = .next t → t.memCanonical

/-- Under RESET_POLICY = Zero no cell ever holds `⊥`: every step keeps every register held, every byte of memory
reads as one, and no step crashes with UNWRITTEN (R47, R238). -/
def Obligations.ZeroPolicyNeverUnwritten : Prop :=
  ∀ (s t : State), s.allHeld = true → step s = .next t →
    t.allHeld = true ∧ (∀ a : Nat, a < 4095 → (t.byteAt a).isHeld = true) ∧
    ∀ rec : CrashRecord, s.safe = true → t.run = .crashed rec → rec.cause ≠ .unwritten

/-- No step changes the configuration (log 4), and no step takes a value back: a general register, I, DT, ST or a
byte of memory that holds a value goes on holding one, since every write replaces `⊥` and none makes one (R7, R47). -/
def Obligations.ConfigurationNeverChanges : Prop :=
  ∀ (s t : State), step s = .next t →
    t.config = s.config ∧ (∀ c : CellName, ¬s.lacks c → ¬t.lacks c) ∧ (s.st ≠ .unwritten → t.st ≠ .unwritten)
end

