-- ==== Sys2Proof/Laws/State.lean ====
section
/-! SUPPORT. One lemma per field per update of State, each true by rfl. -/

namespace Sys2Proof.Machine

/-! ### setReg -/

@[simp] theorem State.setReg_i (s : State) (x : Nibble) (b : Byte) : (s.setReg x b).i = s.i := rfl
@[simp] theorem State.setReg_pc (s : State) (x : Nibble) (b : Byte) : (s.setReg x b).pc = s.pc := rfl
@[simp] theorem State.setReg_sp (s : State) (x : Nibble) (b : Byte) : (s.setReg x b).sp = s.sp := rfl
@[simp] theorem State.setReg_stack (s : State) (x : Nibble) (b : Byte) : (s.setReg x b).stack = s.stack := rfl
@[simp] theorem State.setReg_dt (s : State) (x : Nibble) (b : Byte) : (s.setReg x b).dt = s.dt := rfl
@[simp] theorem State.setReg_st (s : State) (x : Nibble) (b : Byte) : (s.setReg x b).st = s.st := rfl
@[simp] theorem State.setReg_mem (s : State) (x : Nibble) (b : Byte) : (s.setReg x b).mem = s.mem := rfl
@[simp] theorem State.setReg_disp (s : State) (x : Nibble) (b : Byte) : (s.setReg x b).disp = s.disp := rfl
@[simp] theorem State.setReg_keys (s : State) (x : Nibble) (b : Byte) : (s.setReg x b).keys = s.keys := rfl
@[simp] theorem State.setReg_run (s : State) (x : Nibble) (b : Byte) : (s.setReg x b).run = s.run := rfl
@[simp] theorem State.setReg_config (s : State) (x : Nibble) (b : Byte) : (s.setReg x b).config = s.config := rfl
@[simp] theorem State.setReg_schedule (s : State) (x : Nibble) (b : Byte) : (s.setReg x b).schedule = s.schedule := rfl
@[simp] theorem State.setReg_randomPort (s : State) (x : Nibble) (b : Byte) : (s.setReg x b).randomPort = s.randomPort := rfl
@[simp] theorem State.setReg_oracle (s : State) (x : Nibble) (b : Byte) : (s.setReg x b).oracle = s.oracle := rfl
@[simp] theorem State.setReg_reply (s : State) (x : Nibble) (b : Byte) : (s.setReg x b).reply = s.reply := rfl

/-! ### setI -/

@[simp] theorem State.setI_v (s : State) (a : Word) : (s.setI a).v = s.v := rfl
@[simp] theorem State.setI_i (s : State) (a : Word) : (s.setI a).i = .held a := rfl
@[simp] theorem State.setI_pc (s : State) (a : Word) : (s.setI a).pc = s.pc := rfl
@[simp] theorem State.setI_sp (s : State) (a : Word) : (s.setI a).sp = s.sp := rfl
@[simp] theorem State.setI_stack (s : State) (a : Word) : (s.setI a).stack = s.stack := rfl
@[simp] theorem State.setI_dt (s : State) (a : Word) : (s.setI a).dt = s.dt := rfl
@[simp] theorem State.setI_st (s : State) (a : Word) : (s.setI a).st = s.st := rfl
@[simp] theorem State.setI_mem (s : State) (a : Word) : (s.setI a).mem = s.mem := rfl
@[simp] theorem State.setI_disp (s : State) (a : Word) : (s.setI a).disp = s.disp := rfl
@[simp] theorem State.setI_keys (s : State) (a : Word) : (s.setI a).keys = s.keys := rfl
@[simp] theorem State.setI_run (s : State) (a : Word) : (s.setI a).run = s.run := rfl
@[simp] theorem State.setI_config (s : State) (a : Word) : (s.setI a).config = s.config := rfl
@[simp] theorem State.setI_schedule (s : State) (a : Word) : (s.setI a).schedule = s.schedule := rfl
@[simp] theorem State.setI_randomPort (s : State) (a : Word) : (s.setI a).randomPort = s.randomPort := rfl
@[simp] theorem State.setI_oracle (s : State) (a : Word) : (s.setI a).oracle = s.oracle := rfl
@[simp] theorem State.setI_reply (s : State) (a : Word) : (s.setI a).reply = s.reply := rfl

/-! ### setDt -/

@[simp] theorem State.setDt_v (s : State) (b : Byte) : (s.setDt b).v = s.v := rfl
@[simp] theorem State.setDt_i (s : State) (b : Byte) : (s.setDt b).i = s.i := rfl
@[simp] theorem State.setDt_pc (s : State) (b : Byte) : (s.setDt b).pc = s.pc := rfl
@[simp] theorem State.setDt_sp (s : State) (b : Byte) : (s.setDt b).sp = s.sp := rfl
@[simp] theorem State.setDt_stack (s : State) (b : Byte) : (s.setDt b).stack = s.stack := rfl
@[simp] theorem State.setDt_dt (s : State) (b : Byte) : (s.setDt b).dt = .held b := rfl
@[simp] theorem State.setDt_st (s : State) (b : Byte) : (s.setDt b).st = s.st := rfl
@[simp] theorem State.setDt_mem (s : State) (b : Byte) : (s.setDt b).mem = s.mem := rfl
@[simp] theorem State.setDt_disp (s : State) (b : Byte) : (s.setDt b).disp = s.disp := rfl
@[simp] theorem State.setDt_keys (s : State) (b : Byte) : (s.setDt b).keys = s.keys := rfl
@[simp] theorem State.setDt_run (s : State) (b : Byte) : (s.setDt b).run = s.run := rfl
@[simp] theorem State.setDt_config (s : State) (b : Byte) : (s.setDt b).config = s.config := rfl
@[simp] theorem State.setDt_schedule (s : State) (b : Byte) : (s.setDt b).schedule = s.schedule := rfl
@[simp] theorem State.setDt_randomPort (s : State) (b : Byte) : (s.setDt b).randomPort = s.randomPort := rfl
@[simp] theorem State.setDt_oracle (s : State) (b : Byte) : (s.setDt b).oracle = s.oracle := rfl
@[simp] theorem State.setDt_reply (s : State) (b : Byte) : (s.setDt b).reply = s.reply := rfl

/-! ### setSt -/

@[simp] theorem State.setSt_v (s : State) (b : Byte) : (s.setSt b).v = s.v := rfl
@[simp] theorem State.setSt_i (s : State) (b : Byte) : (s.setSt b).i = s.i := rfl
@[simp] theorem State.setSt_pc (s : State) (b : Byte) : (s.setSt b).pc = s.pc := rfl
@[simp] theorem State.setSt_sp (s : State) (b : Byte) : (s.setSt b).sp = s.sp := rfl
@[simp] theorem State.setSt_stack (s : State) (b : Byte) : (s.setSt b).stack = s.stack := rfl
@[simp] theorem State.setSt_dt (s : State) (b : Byte) : (s.setSt b).dt = s.dt := rfl
@[simp] theorem State.setSt_st (s : State) (b : Byte) : (s.setSt b).st = .held b := rfl
@[simp] theorem State.setSt_mem (s : State) (b : Byte) : (s.setSt b).mem = s.mem := rfl
@[simp] theorem State.setSt_disp (s : State) (b : Byte) : (s.setSt b).disp = s.disp := rfl
@[simp] theorem State.setSt_keys (s : State) (b : Byte) : (s.setSt b).keys = s.keys := rfl
@[simp] theorem State.setSt_run (s : State) (b : Byte) : (s.setSt b).run = s.run := rfl
@[simp] theorem State.setSt_config (s : State) (b : Byte) : (s.setSt b).config = s.config := rfl
@[simp] theorem State.setSt_schedule (s : State) (b : Byte) : (s.setSt b).schedule = s.schedule := rfl
@[simp] theorem State.setSt_randomPort (s : State) (b : Byte) : (s.setSt b).randomPort = s.randomPort := rfl
@[simp] theorem State.setSt_oracle (s : State) (b : Byte) : (s.setSt b).oracle = s.oracle := rfl
@[simp] theorem State.setSt_reply (s : State) (b : Byte) : (s.setSt b).reply = s.reply := rfl

/-! ### setPc -/

@[simp] theorem State.setPc_v (s : State) (a : Word) : (s.setPc a).v = s.v := rfl
@[simp] theorem State.setPc_i (s : State) (a : Word) : (s.setPc a).i = s.i := rfl
@[simp] theorem State.setPc_pc (s : State) (a : Word) : (s.setPc a).pc = a := rfl
@[simp] theorem State.setPc_sp (s : State) (a : Word) : (s.setPc a).sp = s.sp := rfl
@[simp] theorem State.setPc_stack (s : State) (a : Word) : (s.setPc a).stack = s.stack := rfl
@[simp] theorem State.setPc_dt (s : State) (a : Word) : (s.setPc a).dt = s.dt := rfl
@[simp] theorem State.setPc_st (s : State) (a : Word) : (s.setPc a).st = s.st := rfl
@[simp] theorem State.setPc_mem (s : State) (a : Word) : (s.setPc a).mem = s.mem := rfl
@[simp] theorem State.setPc_disp (s : State) (a : Word) : (s.setPc a).disp = s.disp := rfl
@[simp] theorem State.setPc_keys (s : State) (a : Word) : (s.setPc a).keys = s.keys := rfl
@[simp] theorem State.setPc_run (s : State) (a : Word) : (s.setPc a).run = s.run := rfl
@[simp] theorem State.setPc_config (s : State) (a : Word) : (s.setPc a).config = s.config := rfl
@[simp] theorem State.setPc_schedule (s : State) (a : Word) : (s.setPc a).schedule = s.schedule := rfl
@[simp] theorem State.setPc_randomPort (s : State) (a : Word) : (s.setPc a).randomPort = s.randomPort := rfl
@[simp] theorem State.setPc_oracle (s : State) (a : Word) : (s.setPc a).oracle = s.oracle := rfl
@[simp] theorem State.setPc_reply (s : State) (a : Word) : (s.setPc a).reply = s.reply := rfl

/-! ### setDisp -/

@[simp] theorem State.setDisp_v (s : State) (d : Display) : (s.setDisp d).v = s.v := rfl
@[simp] theorem State.setDisp_i (s : State) (d : Display) : (s.setDisp d).i = s.i := rfl
@[simp] theorem State.setDisp_pc (s : State) (d : Display) : (s.setDisp d).pc = s.pc := rfl
@[simp] theorem State.setDisp_sp (s : State) (d : Display) : (s.setDisp d).sp = s.sp := rfl
@[simp] theorem State.setDisp_stack (s : State) (d : Display) : (s.setDisp d).stack = s.stack := rfl
@[simp] theorem State.setDisp_dt (s : State) (d : Display) : (s.setDisp d).dt = s.dt := rfl
@[simp] theorem State.setDisp_st (s : State) (d : Display) : (s.setDisp d).st = s.st := rfl
@[simp] theorem State.setDisp_mem (s : State) (d : Display) : (s.setDisp d).mem = s.mem := rfl
@[simp] theorem State.setDisp_disp (s : State) (d : Display) : (s.setDisp d).disp = d := rfl
@[simp] theorem State.setDisp_keys (s : State) (d : Display) : (s.setDisp d).keys = s.keys := rfl
@[simp] theorem State.setDisp_run (s : State) (d : Display) : (s.setDisp d).run = s.run := rfl
@[simp] theorem State.setDisp_config (s : State) (d : Display) : (s.setDisp d).config = s.config := rfl
@[simp] theorem State.setDisp_schedule (s : State) (d : Display) : (s.setDisp d).schedule = s.schedule := rfl
@[simp] theorem State.setDisp_randomPort (s : State) (d : Display) : (s.setDisp d).randomPort = s.randomPort := rfl
@[simp] theorem State.setDisp_oracle (s : State) (d : Display) : (s.setDisp d).oracle = s.oracle := rfl
@[simp] theorem State.setDisp_reply (s : State) (d : Display) : (s.setDisp d).reply = s.reply := rfl

/-! ### setRun -/

@[simp] theorem State.setRun_v (s : State) (r : RunState) : (s.setRun r).v = s.v := rfl
@[simp] theorem State.setRun_i (s : State) (r : RunState) : (s.setRun r).i = s.i := rfl
@[simp] theorem State.setRun_pc (s : State) (r : RunState) : (s.setRun r).pc = s.pc := rfl
@[simp] theorem State.setRun_sp (s : State) (r : RunState) : (s.setRun r).sp = s.sp := rfl
@[simp] theorem State.setRun_stack (s : State) (r : RunState) : (s.setRun r).stack = s.stack := rfl
@[simp] theorem State.setRun_dt (s : State) (r : RunState) : (s.setRun r).dt = s.dt := rfl
@[simp] theorem State.setRun_st (s : State) (r : RunState) : (s.setRun r).st = s.st := rfl
@[simp] theorem State.setRun_mem (s : State) (r : RunState) : (s.setRun r).mem = s.mem := rfl
@[simp] theorem State.setRun_disp (s : State) (r : RunState) : (s.setRun r).disp = s.disp := rfl
@[simp] theorem State.setRun_keys (s : State) (r : RunState) : (s.setRun r).keys = s.keys := rfl
@[simp] theorem State.setRun_run (s : State) (r : RunState) : (s.setRun r).run = r := rfl
@[simp] theorem State.setRun_config (s : State) (r : RunState) : (s.setRun r).config = s.config := rfl
@[simp] theorem State.setRun_schedule (s : State) (r : RunState) : (s.setRun r).schedule = s.schedule := rfl
@[simp] theorem State.setRun_randomPort (s : State) (r : RunState) : (s.setRun r).randomPort = s.randomPort := rfl
@[simp] theorem State.setRun_oracle (s : State) (r : RunState) : (s.setRun r).oracle = s.oracle := rfl
@[simp] theorem State.setRun_reply (s : State) (r : RunState) : (s.setRun r).reply = s.reply := rfl

/-! ### setKeys -/

@[simp] theorem State.setKeys_v (s : State) (k : Word) : (s.setKeys k).v = s.v := rfl
@[simp] theorem State.setKeys_i (s : State) (k : Word) : (s.setKeys k).i = s.i := rfl
@[simp] theorem State.setKeys_pc (s : State) (k : Word) : (s.setKeys k).pc = s.pc := rfl
@[simp] theorem State.setKeys_sp (s : State) (k : Word) : (s.setKeys k).sp = s.sp := rfl
@[simp] theorem State.setKeys_stack (s : State) (k : Word) : (s.setKeys k).stack = s.stack := rfl
@[simp] theorem State.setKeys_dt (s : State) (k : Word) : (s.setKeys k).dt = s.dt := rfl
@[simp] theorem State.setKeys_st (s : State) (k : Word) : (s.setKeys k).st = s.st := rfl
@[simp] theorem State.setKeys_mem (s : State) (k : Word) : (s.setKeys k).mem = s.mem := rfl
@[simp] theorem State.setKeys_disp (s : State) (k : Word) : (s.setKeys k).disp = s.disp := rfl
@[simp] theorem State.setKeys_keys (s : State) (k : Word) : (s.setKeys k).keys = k := rfl
@[simp] theorem State.setKeys_run (s : State) (k : Word) : (s.setKeys k).run = s.run := rfl
@[simp] theorem State.setKeys_config (s : State) (k : Word) : (s.setKeys k).config = s.config := rfl
@[simp] theorem State.setKeys_schedule (s : State) (k : Word) : (s.setKeys k).schedule = s.schedule := rfl
@[simp] theorem State.setKeys_randomPort (s : State) (k : Word) : (s.setKeys k).randomPort = s.randomPort := rfl
@[simp] theorem State.setKeys_oracle (s : State) (k : Word) : (s.setKeys k).oracle = s.oracle := rfl
@[simp] theorem State.setKeys_reply (s : State) (k : Word) : (s.setKeys k).reply = s.reply := rfl

/-! ### setReply -/

@[simp] theorem State.setReply_v (s : State) (r : HostReply) : (s.setReply r).v = s.v := rfl
@[simp] theorem State.setReply_i (s : State) (r : HostReply) : (s.setReply r).i = s.i := rfl
@[simp] theorem State.setReply_pc (s : State) (r : HostReply) : (s.setReply r).pc = s.pc := rfl
@[simp] theorem State.setReply_sp (s : State) (r : HostReply) : (s.setReply r).sp = s.sp := rfl
@[simp] theorem State.setReply_stack (s : State) (r : HostReply) : (s.setReply r).stack = s.stack := rfl
@[simp] theorem State.setReply_dt (s : State) (r : HostReply) : (s.setReply r).dt = s.dt := rfl
@[simp] theorem State.setReply_st (s : State) (r : HostReply) : (s.setReply r).st = s.st := rfl
@[simp] theorem State.setReply_mem (s : State) (r : HostReply) : (s.setReply r).mem = s.mem := rfl
@[simp] theorem State.setReply_disp (s : State) (r : HostReply) : (s.setReply r).disp = s.disp := rfl
@[simp] theorem State.setReply_keys (s : State) (r : HostReply) : (s.setReply r).keys = s.keys := rfl
@[simp] theorem State.setReply_run (s : State) (r : HostReply) : (s.setReply r).run = s.run := rfl
@[simp] theorem State.setReply_config (s : State) (r : HostReply) : (s.setReply r).config = s.config := rfl
@[simp] theorem State.setReply_schedule (s : State) (r : HostReply) : (s.setReply r).schedule = s.schedule := rfl
@[simp] theorem State.setReply_randomPort (s : State) (r : HostReply) : (s.setReply r).randomPort = s.randomPort := rfl
@[simp] theorem State.setReply_oracle (s : State) (r : HostReply) : (s.setReply r).oracle = s.oracle := rfl
@[simp] theorem State.setReply_reply (s : State) (r : HostReply) : (s.setReply r).reply = some r := rfl

/-! ### writeBytes -/

@[simp] theorem State.writeBytes_v (s : State) (a : Nat) (bs : List Byte) : (s.writeBytes a bs).v = s.v := rfl
@[simp] theorem State.writeBytes_i (s : State) (a : Nat) (bs : List Byte) : (s.writeBytes a bs).i = s.i := rfl
@[simp] theorem State.writeBytes_pc (s : State) (a : Nat) (bs : List Byte) : (s.writeBytes a bs).pc = s.pc := rfl
@[simp] theorem State.writeBytes_sp (s : State) (a : Nat) (bs : List Byte) : (s.writeBytes a bs).sp = s.sp := rfl
@[simp] theorem State.writeBytes_stack (s : State) (a : Nat) (bs : List Byte) : (s.writeBytes a bs).stack = s.stack := rfl
@[simp] theorem State.writeBytes_dt (s : State) (a : Nat) (bs : List Byte) : (s.writeBytes a bs).dt = s.dt := rfl
@[simp] theorem State.writeBytes_st (s : State) (a : Nat) (bs : List Byte) : (s.writeBytes a bs).st = s.st := rfl
@[simp] theorem State.writeBytes_mem (s : State) (a : Nat) (bs : List Byte) : (s.writeBytes a bs).mem = Memory.writeAll s.config s.mem a bs := rfl
@[simp] theorem State.writeBytes_disp (s : State) (a : Nat) (bs : List Byte) : (s.writeBytes a bs).disp = s.disp := rfl
@[simp] theorem State.writeBytes_keys (s : State) (a : Nat) (bs : List Byte) : (s.writeBytes a bs).keys = s.keys := rfl
@[simp] theorem State.writeBytes_run (s : State) (a : Nat) (bs : List Byte) : (s.writeBytes a bs).run = s.run := rfl
@[simp] theorem State.writeBytes_config (s : State) (a : Nat) (bs : List Byte) : (s.writeBytes a bs).config = s.config := rfl
@[simp] theorem State.writeBytes_schedule (s : State) (a : Nat) (bs : List Byte) : (s.writeBytes a bs).schedule = s.schedule := rfl
@[simp] theorem State.writeBytes_randomPort (s : State) (a : Nat) (bs : List Byte) : (s.writeBytes a bs).randomPort = s.randomPort := rfl
@[simp] theorem State.writeBytes_oracle (s : State) (a : Nat) (bs : List Byte) : (s.writeBytes a bs).oracle = s.oracle := rfl
@[simp] theorem State.writeBytes_reply (s : State) (a : Nat) (bs : List Byte) : (s.writeBytes a bs).reply = s.reply := rfl

/-! ### takeFault -/

@[simp] theorem State.takeFault_v (s : State) (f : Fault) (p : Word) (o : Option Word) : (s.takeFault f p o).v = s.v := rfl
@[simp] theorem State.takeFault_i (s : State) (f : Fault) (p : Word) (o : Option Word) : (s.takeFault f p o).i = s.i := rfl
@[simp] theorem State.takeFault_pc (s : State) (f : Fault) (p : Word) (o : Option Word) : (s.takeFault f p o).pc = p := rfl
@[simp] theorem State.takeFault_sp (s : State) (f : Fault) (p : Word) (o : Option Word) : (s.takeFault f p o).sp = s.sp := rfl
@[simp] theorem State.takeFault_stack (s : State) (f : Fault) (p : Word) (o : Option Word) : (s.takeFault f p o).stack = s.stack := rfl
@[simp] theorem State.takeFault_dt (s : State) (f : Fault) (p : Word) (o : Option Word) : (s.takeFault f p o).dt = s.dt := rfl
@[simp] theorem State.takeFault_st (s : State) (f : Fault) (p : Word) (o : Option Word) : (s.takeFault f p o).st = s.st := rfl
@[simp] theorem State.takeFault_mem (s : State) (f : Fault) (p : Word) (o : Option Word) : (s.takeFault f p o).mem = s.mem := rfl
@[simp] theorem State.takeFault_disp (s : State) (f : Fault) (p : Word) (o : Option Word) : (s.takeFault f p o).disp = s.disp := rfl
@[simp] theorem State.takeFault_keys (s : State) (f : Fault) (p : Word) (o : Option Word) : (s.takeFault f p o).keys = s.keys := rfl
@[simp] theorem State.takeFault_run (s : State) (f : Fault) (p : Word) (o : Option Word) : (s.takeFault f p o).run = .crashed (f.record p o) := rfl
@[simp] theorem State.takeFault_config (s : State) (f : Fault) (p : Word) (o : Option Word) : (s.takeFault f p o).config = s.config := rfl
@[simp] theorem State.takeFault_schedule (s : State) (f : Fault) (p : Word) (o : Option Word) : (s.takeFault f p o).schedule = s.schedule := rfl
@[simp] theorem State.takeFault_randomPort (s : State) (f : Fault) (p : Word) (o : Option Word) : (s.takeFault f p o).randomPort = s.randomPort := rfl
@[simp] theorem State.takeFault_oracle (s : State) (f : Fault) (p : Word) (o : Option Word) : (s.takeFault f p o).oracle = s.oracle := rfl
@[simp] theorem State.takeFault_reply (s : State) (f : Fault) (p : Word) (o : Option Word) : (s.takeFault f p o).reply = s.reply := rfl

/-! ### tick -/

@[simp] theorem State.tick_v (s : State) : (s.tick).v = s.v := rfl
@[simp] theorem State.tick_i (s : State) : (s.tick).i = s.i := rfl
@[simp] theorem State.tick_pc (s : State) : (s.tick).pc = s.pc := rfl
@[simp] theorem State.tick_sp (s : State) : (s.tick).sp = s.sp := rfl
@[simp] theorem State.tick_stack (s : State) : (s.tick).stack = s.stack := rfl
@[simp] theorem State.tick_dt (s : State) : (s.tick).dt = tickCell s.dt := rfl
@[simp] theorem State.tick_st (s : State) : (s.tick).st = tickCell s.st := rfl
@[simp] theorem State.tick_mem (s : State) : (s.tick).mem = s.mem := rfl
@[simp] theorem State.tick_disp (s : State) : (s.tick).disp = s.disp := rfl
@[simp] theorem State.tick_keys (s : State) : (s.tick).keys = s.keys := rfl
@[simp] theorem State.tick_run (s : State) : (s.tick).run = s.run := rfl
@[simp] theorem State.tick_config (s : State) : (s.tick).config = s.config := rfl
@[simp] theorem State.tick_schedule (s : State) : (s.tick).schedule = s.schedule := rfl
@[simp] theorem State.tick_randomPort (s : State) : (s.tick).randomPort = s.randomPort := rfl
@[simp] theorem State.tick_oracle (s : State) : (s.tick).oracle = s.oracle := rfl
@[simp] theorem State.tick_reply (s : State) : (s.tick).reply = s.reply := rfl

/-! ### choose -/

@[simp] theorem State.choose_v (s : State) : (s.choose).v = s.v := rfl
@[simp] theorem State.choose_i (s : State) : (s.choose).i = s.i := rfl
@[simp] theorem State.choose_pc (s : State) : (s.choose).pc = s.pc := rfl
@[simp] theorem State.choose_sp (s : State) : (s.choose).sp = s.sp := rfl
@[simp] theorem State.choose_stack (s : State) : (s.choose).stack = s.stack := rfl
@[simp] theorem State.choose_dt (s : State) : (s.choose).dt = s.dt := rfl
@[simp] theorem State.choose_st (s : State) : (s.choose).st = s.st := rfl
@[simp] theorem State.choose_mem (s : State) : (s.choose).mem = s.mem := rfl
@[simp] theorem State.choose_disp (s : State) : (s.choose).disp = s.disp := rfl
@[simp] theorem State.choose_keys (s : State) : (s.choose).keys = s.keys := rfl
@[simp] theorem State.choose_run (s : State) : (s.choose).run = s.run := rfl
@[simp] theorem State.choose_config (s : State) : (s.choose).config = s.config := rfl
@[simp] theorem State.choose_schedule (s : State) : (s.choose).schedule = s.schedule := rfl
@[simp] theorem State.choose_randomPort (s : State) : (s.choose).randomPort = s.randomPort := rfl
@[simp] theorem State.choose_oracle (s : State) : (s.choose).oracle = s.oracle + 1 := rfl
@[simp] theorem State.choose_reply (s : State) : (s.choose).reply = s.reply := rfl

/-! ### dequeue -/

@[simp] theorem State.dequeue_v (s : State) : (s.dequeue).v = s.v := rfl
@[simp] theorem State.dequeue_i (s : State) : (s.dequeue).i = s.i := rfl
@[simp] theorem State.dequeue_pc (s : State) : (s.dequeue).pc = s.pc := rfl
@[simp] theorem State.dequeue_sp (s : State) : (s.dequeue).sp = s.sp := rfl
@[simp] theorem State.dequeue_stack (s : State) : (s.dequeue).stack = s.stack := rfl
@[simp] theorem State.dequeue_dt (s : State) : (s.dequeue).dt = s.dt := rfl
@[simp] theorem State.dequeue_st (s : State) : (s.dequeue).st = s.st := rfl
@[simp] theorem State.dequeue_mem (s : State) : (s.dequeue).mem = s.mem := rfl
@[simp] theorem State.dequeue_disp (s : State) : (s.dequeue).disp = s.disp := rfl
@[simp] theorem State.dequeue_keys (s : State) : (s.dequeue).keys = s.keys := rfl
@[simp] theorem State.dequeue_run (s : State) : (s.dequeue).run = s.run := rfl
@[simp] theorem State.dequeue_config (s : State) : (s.dequeue).config = s.config := rfl
@[simp] theorem State.dequeue_schedule (s : State) : (s.dequeue).schedule = s.schedule.tail := rfl
@[simp] theorem State.dequeue_randomPort (s : State) : (s.dequeue).randomPort = s.randomPort := rfl
@[simp] theorem State.dequeue_oracle (s : State) : (s.dequeue).oracle = s.oracle := rfl
@[simp] theorem State.dequeue_reply (s : State) : (s.dequeue).reply = s.reply := rfl

end Sys2Proof.Machine
end

