-- ==== Sys2Proof/Laws/Memory.lean ====
section
/-! SUPPORT. Memory: a read after a write, and that every memory operation keeps the canonical form. -/

namespace Sys2Proof.Machine

/-! ## Reads after writes -/

theorem Memory.find_put_same (a : Nat) (b : Byte) (m : Memory) : Memory.find a (Memory.put a b m) = some b := by
  induction m with
  | nil => simp [Memory.put, Memory.find]
  | cons e rest ih =>
    obtain ⟨k, d⟩ := e
    simp only [Memory.put]
    split
    · simp [Memory.find]
    · split
      · simp [Memory.find]
      · simp only [Memory.find, ih]; split <;> first | omega | rfl

theorem Memory.find_put_other (a c : Nat) (b : Byte) (m : Memory) (h : c ≠ a) :
    Memory.find c (Memory.put a b m) = Memory.find c m := by
  induction m with
  | nil => simp [Memory.put, Memory.find]; omega
  | cons e rest ih =>
    obtain ⟨k, d⟩ := e
    simp only [Memory.put]
    split
    · simp only [Memory.find]; split <;> first | omega | rfl
    · split
      · rename_i hk; subst hk; simp [Memory.find]; split <;> first | omega | rfl
      · simp only [Memory.find, ih]

theorem Memory.find_drop_same (a : Nat) (m : Memory) : Memory.find a (Memory.drop a m) = none := by
  induction m with
  | nil => rfl
  | cons e rest ih =>
    obtain ⟨k, d⟩ := e
    simp only [Memory.drop]
    split
    · exact ih
    · simp only [Memory.find, ih]; split <;> first | omega | rfl

theorem Memory.find_drop_other (a c : Nat) (m : Memory) (h : c ≠ a) :
    Memory.find c (Memory.drop a m) = Memory.find c m := by
  induction m with
  | nil => rfl
  | cons e rest ih =>
    obtain ⟨k, d⟩ := e
    simp only [Memory.drop]
    split
    · rename_i hk; subst hk; simp only [ih, Memory.find]; split <;> first | omega | rfl
    · simp only [Memory.find, ih]

/-- A read of the address just written gives the byte written. -/
theorem Memory.read_write_same (c : Config) (m : Memory) (a : Nat) (b : Byte) :
    Memory.read c (Memory.write c m a b) a = .held b := by
  by_cases hu : Memory.unlisted c a = .held b
  · simp [Memory.read, Memory.write, hu, Memory.find_drop_same]
  · simp only [Memory.read, Memory.write, if_neg hu, Memory.find_put_same]

/-- A write leaves every other address alone. -/
theorem Memory.read_write_other (c : Config) (m : Memory) (a d : Nat) (b : Byte) (h : d ≠ a) :
    Memory.read c (Memory.write c m a b) d = Memory.read c m d := by
  by_cases hu : Memory.unlisted c a = .held b
  · simp only [Memory.read, Memory.write, if_pos hu, Memory.find_drop_other a d m h]
  · simp only [Memory.read, Memory.write, if_neg hu, Memory.find_put_other a d b m h]

/-- Bytes written at rising addresses leave every address outside the block alone. -/
theorem Memory.read_writeAll_outside (c : Config) (bs : List Byte) (m : Memory) (a d : Nat) (h : d < a ∨ a + bs.length ≤ d) :
    Memory.read c (Memory.writeAll c m a bs) d = Memory.read c m d := by
  induction bs generalizing m a with
  | nil => rfl
  | cons b rest ih =>
    simp only [List.length_cons] at h
    rw [Memory.writeAll, ih _ _ (by omega), Memory.read_write_other _ _ _ _ _ (by omega)]

/-- Inside the block a read gives the byte written there. -/
theorem Memory.read_writeAll_inside (c : Config) (bs : List Byte) (m : Memory) (a k : Nat) (b : Byte) (h : bs[k]? = some b) :
    Memory.read c (Memory.writeAll c m a bs) (a + k) = .held b := by
  induction bs generalizing m a k with
  | nil => simp at h
  | cons d rest ih =>
    cases k with
    | zero =>
      simp only [List.getElem?_cons_zero, Option.some.injEq] at h
      rw [Memory.writeAll, Memory.read_writeAll_outside _ _ _ _ _ (by omega), h, Nat.add_zero, Memory.read_write_same]
    | succ j =>
      simp only [List.getElem?_cons_succ] at h
      have := ih (Memory.write c m a d) (a + 1) j h
      rw [Memory.writeAll, show a + (j + 1) = a + 1 + j by omega]; exact this

/-! ## The canonical form -/

theorem Memory.wf_nil (c : Config) : Memory.wf c [] := by simp [Memory.wf]

theorem Memory.mem_put {a : Nat} {b : Byte} {m : Memory} {e : Host.Cell} (h : e ∈ Memory.put a b m) : e = (a, b) ∨ e ∈ m := by
  induction m with
  | nil => simpa [Memory.put] using h
  | cons f rest ih =>
    obtain ⟨k, d⟩ := f
    simp only [Memory.put] at h
    split at h
    · simpa using h
    · split at h
      · rcases List.mem_cons.mp h with h | h
        · exact .inl h
        · exact .inr (List.mem_cons_of_mem _ h)
      · rcases List.mem_cons.mp h with h | h
        · exact .inr (by simp [h])
        · rcases ih h with h | h
          · exact .inl h
          · exact .inr (List.mem_cons_of_mem _ h)

theorem Memory.mem_drop {a : Nat} {m : Memory} {e : Host.Cell} (h : e ∈ Memory.drop a m) : e ∈ m := by
  induction m with
  | nil => exact h
  | cons f rest ih =>
    obtain ⟨k, d⟩ := f
    simp only [Memory.drop] at h
    split at h
    · exact List.mem_cons_of_mem _ (ih h)
    · rcases List.mem_cons.mp h with h | h
      · simp [h]
      · exact List.mem_cons_of_mem _ (ih h)

theorem Memory.pairwise_put (a : Nat) (b : Byte) (m : Memory) (h : m.Pairwise (fun e f => e.1 < f.1)) :
    (Memory.put a b m).Pairwise (fun e f => e.1 < f.1) := by
  induction m with
  | nil => simp [Memory.put]
  | cons e rest ih =>
    obtain ⟨k, d⟩ := e
    obtain ⟨h1, h2⟩ := List.pairwise_cons.mp h
    simp only [Memory.put]
    split
    · rename_i hk
      refine List.pairwise_cons.mpr ⟨fun f hf => ?_, h⟩
      rcases List.mem_cons.mp hf with hf | hf
      · simpa [hf] using hk
      · have := h1 f hf; simp only at this ⊢; omega
    · split
      · rename_i hk; subst hk; exact List.pairwise_cons.mpr ⟨h1, h2⟩
      · refine List.pairwise_cons.mpr ⟨fun f hf => ?_, ih h2⟩
        rcases Memory.mem_put hf with hf | hf
        · subst hf; simp only; omega
        · exact h1 f hf

theorem Memory.pairwise_drop (a : Nat) (m : Memory) (h : m.Pairwise (fun e f => e.1 < f.1)) :
    (Memory.drop a m).Pairwise (fun e f => e.1 < f.1) := by
  induction m with
  | nil => exact h
  | cons e rest ih =>
    obtain ⟨k, d⟩ := e
    obtain ⟨h1, h2⟩ := List.pairwise_cons.mp h
    simp only [Memory.drop]
    split
    · exact ih h2
    · exact List.pairwise_cons.mpr ⟨fun f hf => h1 f (Memory.mem_drop hf), ih h2⟩

/-- A write inside memory keeps the canonical form. -/
theorem Memory.wf_write (c : Config) (m : Memory) (a : Nat) (b : Byte) (h : Memory.wf c m) (ha : a < memSize) :
    Memory.wf c (Memory.write c m a b) := by
  simp only [Memory.write]
  split <;> rename_i hu
  · exact ⟨Memory.pairwise_drop _ _ h.1, fun e he => h.2 e (Memory.mem_drop he)⟩
  · refine ⟨Memory.pairwise_put _ _ _ h.1, fun e he => ?_⟩
    rcases Memory.mem_put he with he | he
    · subst he; exact ⟨ha, hu⟩
    · exact h.2 e he

/-- A block written inside memory keeps the canonical form. -/
theorem Memory.wf_writeAll (c : Config) (bs : List Byte) (m : Memory) (a : Nat) (h : Memory.wf c m)
    (ha : a + bs.length ≤ memSize) : Memory.wf c (Memory.writeAll c m a bs) := by
  induction bs generalizing m a with
  | nil => exact h
  | cons b rest ih =>
    simp only [List.length_cons] at ha
    exact ih _ _ (Memory.wf_write c m a b h (by omega)) (by omega)

/-- Taking an address off a canonical memory keeps it canonical. -/
theorem Memory.wf_drop (c : Config) (m : Memory) (a : Nat) (h : Memory.wf c m) : Memory.wf c (Memory.drop a m) :=
  ⟨Memory.pairwise_drop _ _ h.1, fun e he => h.2 e (Memory.mem_drop he)⟩

end Sys2Proof.Machine
end

