-- ==== Sys2Proof/Laws/Ops.lean ====
section
/-! SUPPORT. For each shared operation, the lemmas that say what it can do; proofs cite these instead of unfolding it. -/

namespace Sys2Proof.Machine

/-! ## Ending an instruction -/

@[simp] theorem finish_ok (i : Instr) (s t : State) : finish i s (.ok t) = .next t := rfl

@[simp] theorem finish_error (i : Instr) (s : State) (f : Fault) :
    finish i s (.error f) = .next (s.takeFault f (s.pc - 2) (some (encode i))) := rfl

/-- An instruction ends in its own next state, or in the state its fault is taken to. -/
theorem finish_cases {i : Instr} {s t : State} {r : Except Fault State} (h : finish i s r = .next t) :
    r = .ok t ∨ ∃ f, r = .error f ∧ t = s.takeFault f (s.pc - 2) (some (encode i)) := by
  cases r with
  | ok u => exact .inl (by simpa using h)
  | error f => exact .inr ⟨f, rfl, by simpa using h.symm⟩

/-- Ending an instruction always answers a next state. -/
theorem finish_next (i : Instr) (s : State) (r : Except Fault State) : ∃ t, finish i s r = .next t := by
  cases r <;> exact ⟨_, rfl⟩

/-- Peel one read off a rule that completes. -/
theorem bind_ok {α β : Type} {r : Except Fault α} {k : α → Except Fault β} {b : β} (h : (r >>= k) = .ok b) :
    ∃ a, r = .ok a ∧ k a = .ok b := by
  cases r with
  | ok a => exact ⟨a, rfl, h⟩
  | error f => cases h

/-- Peel one read off a rule that faults: the read faults, or what follows it does. -/
theorem bind_error {α β : Type} {r : Except Fault α} {k : α → Except Fault β} {f : Fault} (h : (r >>= k) = .error f) :
    r = .error f ∨ ∃ a, r = .ok a ∧ k a = .error f := by
  cases r with
  | ok a => exact .inr ⟨a, rfl, h⟩
  | error g => exact .inl (congrArg _ (Except.error.inj (show (Except.error g : Except Fault β) = .error f from h)))

@[simp] theorem ok_bind {α β : Type} (a : α) (k : α → Except Fault β) : (Except.ok a >>= k) = k a := rfl

@[simp] theorem error_bind {α β : Type} (f : Fault) (k : α → Except Fault β) : ((Except.error f : Except Fault α) >>= k) = .error f := rfl

/-! ## Registers -/

/-- Reading the register just written. -/
@[simp] theorem State.reg_setReg_same (s : State) (x : Nibble) (b : Byte) : (s.setReg x b).reg x = .held b := by
  simp [State.reg, State.setReg]

/-- Writing one register leaves the others. -/
theorem State.reg_setReg_other (s : State) (x k : Nibble) (b : Byte) (h : k ≠ x) : (s.setReg x b).reg k = s.reg k := by
  have : x.toNat ≠ k.toNat := fun e => h (BitVec.eq_of_toNat_eq e.symm)
  simp [State.reg, State.setReg, this]

theorem State.reg_setReg (s : State) (x k : Nibble) (b : Byte) :
    (s.setReg x b).reg k = if k = x then .held b else s.reg k := by
  split
  · rename_i h; subst h; exact s.reg_setReg_same k b
  · rename_i h; exact s.reg_setReg_other x k b h

/-- Two states whose V agree read every register alike. -/
theorem State.reg_congr {s t : State} (h : t.v = s.v) (k : Nibble) : t.reg k = s.reg k := by
  simp [State.reg, h]

theorem Cell.read_held {w : Nat} {c : Cell w} {n : CellName} {b : BitVec w} : c.read n = .ok b ↔ c = .held b := by
  cases c <;> simp [Cell.read]

/-- The only fault of reading a cell is UNWRITTEN, naming it. -/
theorem Cell.read_error {w : Nat} {c : Cell w} {n : CellName} {f : Fault} :
    c.read n = .error f ↔ c = .unwritten ∧ f = .unwritten n := by
  cases c <;> simp [Cell.read, eq_comm]

theorem State.readV_ok {s : State} {x : Nibble} {b : Byte} : s.readV x = .ok b ↔ s.reg x = .held b := Cell.read_held

theorem State.readV_error {s : State} {x : Nibble} {f : Fault} :
    s.readV x = .error f ↔ s.reg x = .unwritten ∧ f = .unwritten (.v x) := Cell.read_error

theorem State.readI_ok {s : State} {a : Word} : s.readI = .ok a ↔ s.i = .held a := Cell.read_held

theorem State.readI_error {s : State} {f : Fault} : s.readI = .error f ↔ s.i = .unwritten ∧ f = .unwritten .i :=
  Cell.read_error

theorem State.readDt_ok {s : State} {b : Byte} : s.readDt = .ok b ↔ s.dt = .held b := Cell.read_held

theorem State.readDt_error {s : State} {f : Fault} : s.readDt = .error f ↔ s.dt = .unwritten ∧ f = .unwritten .dt :=
  Cell.read_error

/-- A cell that holds a value is not unwritten. -/
theorem Cell.ne_unwritten {w : Nat} {c : Cell w} {b : BitVec w} (h : c = .held b) : c ≠ .unwritten := by subst h; simp

theorem State.not_lacks_v {s : State} {x : Nibble} {b : Byte} (h : s.reg x = .held b) : ¬s.lacks (.v x) := Cell.ne_unwritten h

theorem State.not_lacks_i {s : State} {a : Word} (h : s.i = .held a) : ¬s.lacks .i := Cell.ne_unwritten h

theorem State.not_lacks_dt {s : State} {b : Byte} (h : s.dt = .held b) : ¬s.lacks .dt := Cell.ne_unwritten h

theorem State.not_lacks_mem {s : State} {a : Nat} {b : Byte} (h : s.byteAt a = .held b) : ¬s.lacks (.mem a) := Cell.ne_unwritten h

/-! ## Memory blocks -/

/-- The range check passes exactly when the whole block lies in memory. -/
theorem checkRange_ok {a n : Nat} {u : Unit} : checkRange a n = .ok u ↔ n = 0 ∨ a + n ≤ memSize := by
  induction n generalizing a with
  | zero => simp [checkRange]
  | succ n ih =>
    simp only [checkRange]
    split
    · rw [ih]; omega
    · simp; omega

/-- Otherwise it faults at the first address that is not in memory. -/
theorem checkRange_error {a n : Nat} {f : Fault} :
    checkRange a n = .error f ↔ n ≠ 0 ∧ memSize < a + n ∧ f = .memRange (max memSize a) := by
  induction n generalizing a with
  | zero => simp [checkRange]
  | succ n ih =>
    simp only [checkRange]
    split
    · rename_i h
      rw [ih, show max memSize (a + 1) = max memSize a by omega]
      constructor
      · rintro ⟨h1, h2, h3⟩; exact ⟨by omega, by omega, h3⟩
      · rintro ⟨h1, h2, h3⟩; exact ⟨by omega, by omega, h3⟩
    · rename_i h
      rw [show max memSize a = a by omega]
      simp only [Except.error.injEq, eq_comm (b := f)]
      constructor
      · intro h3; exact ⟨by omega, by omega, h3⟩
      · rintro ⟨-, -, h3⟩; exact h3

/-- A block of bytes read: each is what its cell holds, in address order. -/
theorem State.readBytes_ok {s : State} {a n : Nat} {bs : List Byte} :
    s.readBytes a n = .ok bs ↔ bs.length = n ∧ ∀ k b, bs[k]? = some b → s.byteAt (a + k) = .held b := by
  induction n generalizing a bs with
  | zero =>
    simp only [State.readBytes, Except.ok.injEq]
    constructor
    · rintro rfl; simp
    · rintro ⟨h, -⟩; exact (List.length_eq_zero_iff.mp h).symm
  | succ n ih =>
    constructor
    · intro h
      obtain ⟨b, hb, h⟩ := bind_ok h
      obtain ⟨rest, hr, h⟩ := bind_ok h
      obtain ⟨hl, hk⟩ := ih.mp hr
      simp only [Except.ok.injEq] at h; subst h
      refine ⟨by simp [hl], fun k d hd => ?_⟩
      cases k with
      | zero => simp at hd; subst hd; exact Cell.read_held.mp hb
      | succ j => simp at hd; rw [show a + (j + 1) = a + 1 + j by omega]; exact hk j d hd
    · rintro ⟨hl, hk⟩
      cases bs with
      | nil => simp at hl
      | cons b rest =>
        have h0 : (s.byteAt a).read (.mem a) = .ok b := Cell.read_held.mpr (by simpa using hk 0 b (by simp))
        have hr : s.readBytes (a + 1) n = .ok rest :=
          ih.mpr ⟨by simpa using hl, fun k d hd => by
            have := hk (k + 1) d (by simpa using hd)
            rwa [show a + (k + 1) = a + 1 + k by omega] at this⟩
        simp [State.readBytes, h0, hr]

/-- Reading a block faults only at an unwritten cell of it. -/
theorem State.readBytes_error {s : State} {a n : Nat} {f : Fault} (h : s.readBytes a n = .error f) :
    ∃ k, k < n ∧ s.byteAt (a + k) = .unwritten ∧ f = .unwritten (.mem (a + k)) := by
  induction n generalizing a with
  | zero => simp [State.readBytes] at h
  | succ n ih =>
    rcases bind_error h with h | ⟨b, -, h⟩
    · obtain ⟨h1, h2⟩ := Cell.read_error.mp h
      exact ⟨0, by omega, by simpa using h1, by simpa using h2⟩
    · rcases bind_error h with h | ⟨r, -, h⟩
      · obtain ⟨k, h1, h2, h3⟩ := ih h
        refine ⟨k + 1, by omega, ?_, ?_⟩
        · rw [show a + (k + 1) = a + 1 + k by omega]; exact h2
        · rw [show a + (k + 1) = a + 1 + k by omega]; exact h3
      · simp at h

/-- What a block write leaves at every address. -/
theorem State.byteAt_writeBytes_inside (s : State) (a k : Nat) (b : Byte) (bs : List Byte) (h : bs[k]? = some b) :
    (s.writeBytes a bs).byteAt (a + k) = .held b := Memory.read_writeAll_inside _ _ _ _ _ _ h

theorem State.byteAt_writeBytes_outside (s : State) (a d : Nat) (bs : List Byte) (h : d < a ∨ a + bs.length ≤ d) :
    (s.writeBytes a bs).byteAt d = s.byteAt d := Memory.read_writeAll_outside _ _ _ _ _ h

/-- Two states with the same configuration and memory read every byte alike. -/
theorem State.byteAt_congr {s t : State} (hc : t.config = s.config) (hm : t.mem = s.mem) (a : Nat) :
    t.byteAt a = s.byteAt a := by simp [State.byteAt, hc, hm]

/-- Which byte a block read faults at: the first unwritten one. -/
theorem State.readBytes_first {s : State} {a n k : Nat} (hk : k < n) (hj : ∀ j, j < k → s.byteAt (a + j) ≠ .unwritten)
    (hc : s.byteAt (a + k) = .unwritten) : s.readBytes a n = .error (.unwritten (.mem (a + k))) := by
  induction n generalizing a k with
  | zero => omega
  | succ n ih =>
    cases k with
    | zero => rw [State.readBytes, show s.byteAt a = .unwritten from hc]; rfl
    | succ k =>
      cases hb : s.byteAt a with
      | unwritten => exact absurd hb (hj 0 (by omega))
      | held b =>
        have shift : ∀ j, a + 1 + j = a + (j + 1) := fun j => by omega
        have hrest := ih (a := a + 1) (k := k) (by omega) (fun j h => by rw [shift]; exact hj (j + 1) (by omega)) (by rw [shift]; exact hc)
        rw [State.readBytes, hb, hrest, shift]; rfl

/-! ## Register blocks -/

/-- A block of registers read: each is what its cell holds, in order. -/
theorem readCells_ok {k : Nat} {cs : List Cell8} {bs : List Byte} :
    readCells k cs = .ok bs ↔ cs = bs.map Cell.held := by
  induction cs generalizing k bs with
  | nil => cases bs <;> simp [readCells]
  | cons c rest ih =>
    constructor
    · intro h
      obtain ⟨b, hb, h⟩ := bind_ok h
      obtain ⟨ds, hd, h⟩ := bind_ok h
      simp only [Except.ok.injEq] at h; subst h
      simp [Cell.read_held.mp hb, ih.mp hd]
    · intro h
      cases bs with
      | nil => simp at h
      | cons b ds =>
        simp only [List.map_cons, List.cons.injEq] at h
        have hd : readCells (k + 1) rest = .ok ds := ih.mpr h.2
        simp [readCells, h.1, Cell.read, hd]

/-- Reading registers faults only at an unwritten one. -/
theorem readCells_error {k : Nat} {cs : List Cell8} {f : Fault} (h : readCells k cs = .error f) :
    ∃ j, cs[j]? = some .unwritten ∧ f = .unwritten (.v (BitVec.ofNat 4 (k + j))) := by
  induction cs generalizing k with
  | nil => simp [readCells] at h
  | cons c rest ih =>
    rcases bind_error h with h | ⟨b, -, h⟩
    · obtain ⟨h1, h2⟩ := Cell.read_error.mp h
      exact ⟨0, by simp [h1], by simpa using h2⟩
    · rcases bind_error h with h | ⟨r, -, h⟩
      · obtain ⟨j, h1, h2⟩ := ih h
        exact ⟨j + 1, by simpa using h1, by rw [h2]; congr 3; omega⟩
      · simp at h

/-- The registers V0..Vx in a list are what `reg` reads. -/
theorem State.getElem?_regs (s : State) (x k : Nibble) (h : k.toNat ≤ x.toNat) :
    (s.v.toList.take (blockLen x))[k.toNat]? = some (s.reg k) := by
  have hk := k.isLt
  rw [List.getElem?_take_of_lt (by simp only [blockLen]; omega)]
  simp [State.reg]

/-- A register dump's values: one per register of V0..Vx. -/
theorem State.readRegs_ok {s : State} {x : Nibble} {bs : List Byte} :
    s.readRegs x = .ok bs ↔
      bs.length = x.toNat + 1 ∧ ∀ (k : Nibble) (b : Byte), k.toNat ≤ x.toNat → bs[k.toNat]? = some b → s.reg k = .held b := by
  have hx := x.isLt
  rw [State.readRegs, readCells_ok]
  constructor
  · intro h
    have hl : bs.length = x.toNat + 1 := by
      have := congrArg List.length h
      simp [blockLen] at this; omega
    refine ⟨hl, fun k b hk hb => ?_⟩
    have := s.getElem?_regs x k hk
    rw [h] at this
    simpa [hb] using this.symm
  · rintro ⟨hl, hk⟩
    apply List.ext_getElem?
    intro j
    by_cases hj : j ≤ x.toNat
    · have hj16 : (BitVec.ofNat 4 j).toNat = j := by simp; omega
      have h1 := s.getElem?_regs x (BitVec.ofNat 4 j) (by omega)
      rw [hj16] at h1
      have hb : bs[j]? = some bs[j] := by simp
      rw [h1, hk (BitVec.ofNat 4 j) bs[j] (by omega) (by rw [hj16]; exact hb)]
      simp [hb]
    · rw [List.getElem?_eq_none (by simp [blockLen]; omega), List.getElem?_eq_none (by simp [hl]; omega)]

/-- A register dump's values, where every register of the block holds one. -/
theorem State.readRegs_of_held {s : State} {x : Nibble} {val : Nibble → Byte}
    (h : ∀ r : Nibble, r.toNat ≤ x.toNat → s.reg r = .held (val r)) :
    s.readRegs x = .ok ((List.range (blockLen x)).map fun k => val (BitVec.ofNat 4 k)) := by
  have hx := x.isLt
  refine State.readRegs_ok.mpr ⟨by simp [blockLen], fun k b hk hb => ?_⟩
  rw [List.getElem?_map, List.getElem?_range (by simp only [blockLen]; omega)] at hb
  simp only [Option.map_some, BitVec.ofNat_toNat, BitVec.setWidth_eq, Option.some.injEq] at hb
  rw [h k hk, hb]

/-- Reading V0..Vx faults only at an unwritten register of it. -/
theorem State.readRegs_error {s : State} {x : Nibble} {f : Fault} (h : s.readRegs x = .error f) :
    ∃ k : Nibble, k.toNat ≤ x.toNat ∧ s.reg k = .unwritten ∧ f = .unwritten (.v k) := by
  have hx := x.isLt
  obtain ⟨j, h1, h2⟩ := readCells_error h
  have hj : j < blockLen x := by
    have := (List.getElem?_eq_some_iff.mp h1).1
    simp at this; omega
  have hj' : j ≤ x.toNat := by simp only [blockLen] at hj; omega
  have hj16 : (BitVec.ofNat 4 j).toNat = j := by simp; omega
  have h3 := s.getElem?_regs x (BitVec.ofNat 4 j) (by omega)
  rw [hj16, h1] at h3
  exact ⟨BitVec.ofNat 4 j, by omega, by simpa using h3.symm, by simpa using h2⟩

/-- Which register a block read faults at: the first unwritten one. -/
theorem readCells_first {k j : Nat} {cs : List Cell8} (hc : cs[j]? = some .unwritten)
    (hb : ∀ m, m < j → cs[m]? ≠ some .unwritten) : readCells k cs = .error (.unwritten (.v (BitVec.ofNat 4 (k + j)))) := by
  induction cs generalizing k j with
  | nil => simp at hc
  | cons c rest ih =>
    cases j with
    | zero => cases hc; rfl
    | succ j =>
      cases c with
      | unwritten => exact absurd rfl (hb 0 (by omega))
      | held b =>
        have hrest := ih (k := k + 1) (j := j) hc fun m hm => hb (m + 1) (by omega)
        rw [readCells, hrest, show k + 1 + j = k + (j + 1) by omega]; rfl

/-- A register dump faults at the first of V0..Vx that is unwritten. -/
theorem State.readRegs_first {s : State} {x r : Nibble} (hr : r.toNat ≤ x.toNat) (hc : s.reg r = .unwritten)
    (hb : ∀ k : Nibble, k.toNat < r.toNat → s.reg k ≠ .unwritten) : s.readRegs x = .error (.unwritten (.v r)) := by
  have hx := x.isLt
  have h := readCells_first (k := 0) (j := r.toNat) (cs := s.v.toList.take (blockLen x))
    (by rw [s.getElem?_regs x r hr, hc]) fun m hm => by
      have e : (BitVec.ofNat 4 m).toNat = m := by rw [BitVec.toNat_ofNat]; omega
      have := s.getElem?_regs x (BitVec.ofNat 4 m) (by omega)
      rw [e] at this
      rw [this]
      exact fun h => hb _ (by omega) (Option.some.inj h)
  rw [State.readRegs, h]; simp

/-- Writing registers from k on changes nothing but V. -/
theorem State.setRegs_onlyV (bs : List Byte) (s : State) (k : Nat) : onlyV s (s.setRegs k bs) := by
  induction bs generalizing s k with
  | nil => rfl
  | cons b rest ih =>
    have := ih (s.setReg (BitVec.ofNat 4 k) b) (k + 1)
    simp only [onlyV, State.setRegs] at this ⊢
    rw [this]; rfl

/-- What a block of register writes leaves in each register. -/
theorem State.reg_setRegs (bs : List Byte) (s : State) (k : Nat) (r : Nibble) (hk : k + bs.length ≤ 16) :
    (s.setRegs k bs).reg r =
      if k ≤ r.toNat then (match bs[r.toNat - k]? with | some b => .held b | none => s.reg r) else s.reg r := by
  induction bs generalizing s k with
  | nil => simp [State.setRegs]
  | cons b rest ih =>
    simp only [List.length_cons] at hk
    rw [State.setRegs, ih _ _ (by omega)]
    have hkn : (BitVec.ofNat 4 k).toNat = k := by simp; omega
    by_cases h : k + 1 ≤ r.toNat
    · have hne : r ≠ BitVec.ofNat 4 k := fun e => by rw [e, hkn] at h; omega
      obtain ⟨j, hj⟩ : ∃ j, r.toNat - k = j + 1 := ⟨r.toNat - k - 1, by omega⟩
      have hj' : r.toNat - (k + 1) = j := by omega
      rw [if_pos h, if_pos (by omega), hj, hj', State.reg_setReg_other _ _ _ _ hne]
      simp
    · rw [if_neg h]
      by_cases he : k = r.toNat
      · have hr : BitVec.ofNat 4 k = r := BitVec.eq_of_toNat_eq (by rw [hkn, he])
        rw [if_pos (by omega), hr, State.reg_setReg_same]
        simp [he]
      · have hne : r ≠ BitVec.ofNat 4 k := fun e => by rw [e, hkn] at he; omega
        rw [if_neg (by omega), State.reg_setReg_other _ _ _ _ hne]

/-! ## The stack -/

theorem State.push_ok {s t : State} {a : Word} (h : s.push a = .ok t) :
    s.sp.val < 16 ∧ t.sp.val = s.sp.val + 1 ∧ t.stack[s.sp.val]? = some a ∧
      (∀ j, j ≠ s.sp.val → t.stack[j]? = s.stack[j]?) ∧ t = { s with stack := t.stack, sp := t.sp } := by
  simp only [State.push] at h
  split at h
  · rename_i hs
    simp only [Except.ok.injEq] at h; subst h
    exact ⟨hs, rfl, by simp, fun j hj => by simp [Ne.symm hj], rfl⟩
  · cases h

theorem State.push_error {s : State} {a : Word} {f : Fault} (h : s.push a = .error f) :
    s.sp.val = 16 ∧ f = .stackOverflow 16 := by
  have := s.sp.isLt
  simp only [State.push] at h
  split at h
  · cases h
  · rename_i hs
    have h16 : s.sp.val = 16 := by omega
    simp only [Except.error.injEq] at h
    exact ⟨h16, by rw [← h, h16]⟩

theorem State.pop_ok {s t : State} {a : Word} (h : s.pop = .ok (a, t)) :
    0 < s.sp.val ∧ t.sp.val = s.sp.val - 1 ∧ s.stack[s.sp.val - 1]? = some a ∧ t = { s with sp := t.sp } := by
  have hlt := s.sp.isLt
  simp only [State.pop] at h
  split at h
  · rename_i hs
    simp only [Except.ok.injEq, Prod.mk.injEq] at h
    obtain ⟨h1, h2⟩ := h; subst h2
    refine ⟨hs, rfl, ?_, rfl⟩
    rw [← h1]; simp
  · cases h

theorem State.pop_error {s : State} {f : Fault} (h : s.pop = .error f) : s.sp.val = 0 ∧ f = .stackUnderflow 0 := by
  simp only [State.pop] at h
  split at h
  · cases h
  · rename_i hs
    have h0 : s.sp.val = 0 := by omega
    simp only [Except.error.injEq] at h
    exact ⟨h0, by rw [← h, h0]⟩

/-! ## Flags -/

/-- What a commit leaves in each register (R141). -/
theorem State.commit_aluLeaves (s : State) (x : Nibble) (r f : Byte) : aluLeaves s (s.commit x r (some f)) x r f := by
  have h15 : vf = 15 := rfl
  simp only [State.commit]
  cases h : s.config.vfOrder <;> simp only [h15]
  · refine ⟨rfl, fun k hx hv => ?_, fun hx => ⟨?_, ?_⟩, fun hx => ?_⟩
    · rw [State.reg_setReg_other _ _ _ _ hv, State.reg_setReg_other _ _ _ _ hx]
    · rw [State.reg_setReg_other _ _ _ _ hx, State.reg_setReg_same]
    · exact State.reg_setReg_same _ _ _
    · simp [h]
  · refine ⟨rfl, fun k hx hv => ?_, fun hx => ⟨?_, ?_⟩, fun hx => ?_⟩
    · rw [State.reg_setReg_other _ _ _ _ hx, State.reg_setReg_other _ _ _ _ hv]
    · exact State.reg_setReg_same _ _ _
    · rw [State.reg_setReg_other _ _ _ _ (Ne.symm hx)]; exact State.reg_setReg_same _ _ _
    · simp [h, hx]

theorem State.commit_none (s : State) (x : Nibble) (r : Byte) : s.commit x r none = s.setReg x r := rfl

/-- A commit changes nothing but V. -/
theorem State.commit_onlyV (s : State) (x : Nibble) (r : Byte) (f : Option Byte) : onlyV s (s.commit x r f) := by
  cases f with
  | none => rfl
  | some b => exact (s.commit_aluLeaves x r b).1

/-- Writing a flag changes nothing but V. -/
theorem State.setFlag_onlyV (s : State) (f : Option Byte) : onlyV s (s.setFlag f) := by
  cases f <;> rfl

/-! ## Skips, keys -/

/-- A skip changes nothing but PC. -/
theorem State.skipIf_eq (s : State) (c : Bool) : s.skipIf c = { s with pc := if c then s.pc + 2 else s.pc } := by
  cases c <;> rfl

theorem keyNumber_ok {k : Byte} {n : Nat} : keyNumber k = .ok n ↔ k.toNat < 16 ∧ n = k.toNat := by
  by_cases h : k.toNat < 16 <;> simp [keyNumber, numKeys, h, eq_comm]

theorem keyNumber_error {k : Byte} {f : Fault} : keyNumber k = .error f ↔ 15 < k.toNat ∧ f = .keyRange k := by
  by_cases h : k.toNat < 16
  · simp [keyNumber, numKeys, h]; omega
  · have : 15 < k.toNat := by omega
    simp [keyNumber, numKeys, h, this, eq_comm]

/-- No key is held. -/
theorem anyPressed_none {keys : Word} : anyPressed keys = none ↔ ∀ k, k < 16 → keys.getLsbD k = false := by
  simp [anyPressed, isPressed, numKeys, List.find?_eq_none]

/-- The lowest key held. -/
theorem anyPressed_some {keys : Word} {k : Nat} :
    anyPressed keys = some k ↔ k < 16 ∧ keys.getLsbD k = true ∧ ∀ j, j < k → keys.getLsbD j = false := by
  simp only [anyPressed, numKeys]
  rw [List.find?_range_eq_some]
  simp only [List.mem_range, isPressed, Bool.not_eq_true']
  tauto

/-! ## The framebuffer -/

/-- A toggle inverts its own pixel and leaves the others. -/
theorem Display.pixel_toggle (d : Display) (x y px py : Nat) :
    (d.toggle x y).pixel px py = if px = x ∧ py = y ∧ x < 64 ∧ y < 32 then !d.pixel px py else d.pixel px py := by
  by_cases h : x < 64 ∧ y < 32
  · by_cases hp : px < 64 ∧ py < 32
    · simp only [Display.toggle, Display.pixel, dif_pos h, dif_pos hp, Vector.getElem_set]
      by_cases hx : x = px
      · subst hx
        by_cases hy : y = py
        · subst hy; simp [h]
        · have : ¬(py = y) := fun e => hy e.symm
          simp [hy, this]
      · have : ¬(px = x) := fun e => hx e.symm
        simp [hx, this]
    · have : ¬(px = x ∧ py = y ∧ x < 64 ∧ y < 32) := fun ⟨h1, h2, h3, h4⟩ => hp ⟨h1 ▸ h3, h2 ▸ h4⟩
      simp only [Display.pixel, dif_neg hp, if_neg this]
  · have : ¬(px = x ∧ py = y ∧ x < 64 ∧ y < 32) := fun ⟨_, _, h3, h4⟩ => h ⟨h3, h4⟩
    simp [Display.toggle, dif_neg h, this]

/-- Framebuffers that agree on every pixel of the grid are equal. -/
theorem Display.ext_pixel {d e : Display} (h : ∀ px py, px < 64 → py < 32 → d.pixel px py = e.pixel px py) : d = e := by
  apply Vector.ext; intro x hx
  apply Vector.ext; intro y hy
  simpa [Display.pixel, hx, hy] using h x y hx hy

@[simp] theorem Display.pixel_clear (px py : Nat) : Display.clear.pixel px py = false := by
  simp [Display.pixel, Display.clear]

end Sys2Proof.Machine
end

