-- ==== Sys2Proof/Laws/Draw.lean ====
section
/-! SUPPORT. What drawing a sprite does to the framebuffer, for every sprite and origin (44_display.md). -/

namespace Sys2Proof.Machine

/-- Toggling distinct pixels of the grid: each is inverted once, and the flag says whether one was on (R204, R207). -/
theorem drawPixels_spec (ps : List (Nat × Nat)) (hn : ps.Nodup) (hg : ∀ p ∈ ps, p.1 < 64 ∧ p.2 < 32) (d : Display) (coll : Bool) :
    (∀ px py, (drawPixels d coll ps).1.pixel px py = if (px, py) ∈ ps then !d.pixel px py else d.pixel px py) ∧
    ((drawPixels d coll ps).2 = true ↔ coll = true ∨ ∃ p ∈ ps, d.pixel p.1 p.2 = true) := by
  induction ps generalizing d coll with
  | nil => simp [drawPixels]
  | cons p rest ih =>
    obtain ⟨hp, hn⟩ := List.nodup_cons.mp hn
    have hin := hg p (by simp)
    obtain ⟨h1, h2⟩ := ih hn (fun q hq => hg q (by simp [hq])) (d.toggle p.1 p.2) (coll || d.pixel p.1 p.2)
    refine ⟨fun px py => ?_, ?_⟩
    · rw [drawPixels, h1, Display.pixel_toggle]
      by_cases e : (px, py) = p
      · subst e; simp [hp, hin]
      · have : ¬(px = p.1 ∧ py = p.2 ∧ p.1 < 64 ∧ p.2 < 32) := fun h => e (Prod.ext h.1 h.2.1)
        simp [this, e]
    · rw [drawPixels, h2]
      have other : ∀ q ∈ rest, (d.toggle p.1 p.2).pixel q.1 q.2 = d.pixel q.1 q.2 := by
        intro q hq
        rw [Display.pixel_toggle, if_neg]
        rintro ⟨e1, e2, -⟩
        have e : q = p := Prod.ext e1 e2
        exact hp (e ▸ hq)
      have : (∃ q ∈ rest, (d.toggle p.1 p.2).pixel q.1 q.2 = true) ↔ ∃ q ∈ rest, d.pixel q.1 q.2 = true :=
        exists_congr fun q => and_congr_right fun hq => by rw [other q hq]
      rw [this]
      simp [or_assoc]

/-- Where a sprite pixel lands (R206). -/
theorem placePixel_eq_some {w : Bool} {px py : Nat} {p : Nat × Nat} :
    placePixel w px py = some p ↔ p.1 < 64 ∧ p.2 < 32 ∧ p = if w then (px % 64, py % 32) else (px, py) := by
  obtain ⟨a, b⟩ := p
  cases w <;> simp only [placePixel]
  · by_cases h : px ≥ 64 ∨ py ≥ 32 <;> simp [h] <;> omega
  · simp; omega

/-- The pixels of one row (R205). -/
theorem mem_rowPixels {w : Bool} {ox py : Nat} {row : Byte} {p : Nat × Nat} :
    p ∈ rowPixels w ox py row ↔ ∃ c, c < 8 ∧ row.getLsbD (7 - c) = true ∧ placePixel w (ox + c) py = some p := by
  simp [rowPixels]

/-- The pixels of the rows from one grid row down (R204). -/
theorem mem_spritePixelsFrom {w : Bool} {ox py : Nat} {rows : List Byte} {p : Nat × Nat} :
    p ∈ spritePixelsFrom w ox py rows ↔
      ∃ r c row, c < 8 ∧ rows[r]? = some row ∧ row.getLsbD (7 - c) = true ∧ placePixel w (ox + c) (py + r) = some p := by
  induction rows generalizing py with
  | nil => simp [spritePixelsFrom]
  | cons row rest ih =>
    rw [spritePixelsFrom, List.mem_append, mem_rowPixels, ih]
    constructor
    · rintro (⟨c, h1, h2, h3⟩ | ⟨r, c, b, h1, h2, h3, h4⟩)
      · exact ⟨0, c, row, h1, rfl, h2, h3⟩
      · exact ⟨r + 1, c, b, h1, h2, h3, by rw [← h4]; congr 1; omega⟩
    · rintro ⟨r, c, b, h1, h2, h3, h4⟩
      cases r with
      | zero => cases h2; exact .inl ⟨c, h1, h3, h4⟩
      | succ r => exact .inr ⟨r, c, b, h1, h2, h3, by rw [← h4]; congr 1; omega⟩

/-- The pixels a sprite toggles are those of the grid it covers (R204-R206). -/
theorem mem_spritePixels {ox oy : Byte} {rows : List Byte} {px py : Nat} :
    (px, py) ∈ spritePixels ox.toNat oy.toNat rows ↔ px < 64 ∧ py < 32 ∧ spriteCovers ox oy rows px py := by
  rw [spritePixels, mem_spritePixelsFrom]
  simp only [placePixel_eq_some, spriteCovers, originOutside, decide_eq_true_eq]
  constructor
  · rintro ⟨r, c, row, h1, h2, h3, h4, h5, h6⟩
    refine ⟨h4, h5, r, c, row, h1, h2, h3, ?_⟩
    split at h6 <;> simp_all
  · rintro ⟨h4, h5, r, c, row, h1, h2, h3, h6⟩
    refine ⟨r, c, row, h1, h2, h3, h4, h5, ?_⟩
    split at h6 <;> simp_all

/-- One row's pixels are distinct, wrapped or not: it has 8 of the grid's 64 columns. -/
theorem rowPixels_nodup (w : Bool) (ox py : Nat) (row : Byte) : (rowPixels w ox py row).Nodup := by
  rw [rowPixels, List.Nodup, List.pairwise_filterMap]
  refine List.nodup_range.imp_of_mem fun {c c'} hc hc' hne p hp q hq e => ?_
  subst e
  rw [List.mem_range] at hc hc'
  split at hp <;> try cases hp
  split at hq <;> try cases hq
  obtain ⟨-, -, e1⟩ := placePixel_eq_some.mp hp
  obtain ⟨-, -, e2⟩ := placePixel_eq_some.mp hq
  rw [e1] at e2
  cases w <;> simp at e2 <;> omega

/-- A sprite's pixels are distinct: it has at most 15 of the grid's 32 rows. -/
theorem spritePixelsFrom_nodup (w : Bool) (ox py : Nat) (rows : List Byte) (h : rows.length ≤ 32) : (spritePixelsFrom w ox py rows).Nodup := by
  induction rows generalizing py with
  | nil => simp [spritePixelsFrom]
  | cons row rest ih =>
    simp only [List.length_cons] at h
    rw [spritePixelsFrom, List.nodup_append]
    refine ⟨rowPixels_nodup w ox py row, ih _ (by omega), fun p hp q hq e => ?_⟩
    subst e
    obtain ⟨c, -, -, h1⟩ := mem_rowPixels.mp hp
    obtain ⟨r, c', b, -, h2, -, h3⟩ := mem_spritePixelsFrom.mp hq
    have hr := (List.getElem?_eq_some_iff.mp h2).1
    obtain ⟨-, -, e1⟩ := placePixel_eq_some.mp h1
    obtain ⟨-, -, e2⟩ := placePixel_eq_some.mp h3
    rw [e1] at e2
    cases w <;> simp at e2 <;> omega

/-- No pixel is toggled twice by one draw. -/
theorem spritePixels_nodup (ox oy : Nat) (rows : List Byte) (h : rows.length ≤ 32) : (spritePixels ox oy rows).Nodup :=
  spritePixelsFrom_nodup _ _ _ _ h

/-- What drawing a sprite does: exactly the covered pixels toggle, and the flag says whether one was on. -/
theorem drawPixels_sprite (d : Display) (ox oy : Byte) (rows : List Byte) (h : rows.length ≤ 32) :
    (∀ px py, (px < 64 ∧ py < 32 ∧ spriteCovers ox oy rows px py →
        (drawPixels d false (spritePixels ox.toNat oy.toNat rows)).1.pixel px py = !d.pixel px py) ∧
      (¬(px < 64 ∧ py < 32 ∧ spriteCovers ox oy rows px py) →
        (drawPixels d false (spritePixels ox.toNat oy.toNat rows)).1.pixel px py = d.pixel px py)) ∧
    ((drawPixels d false (spritePixels ox.toNat oy.toNat rows)).2 = true ↔
      ∃ px py, px < 64 ∧ py < 32 ∧ spriteCovers ox oy rows px py ∧ d.pixel px py = true) := by
  obtain ⟨h1, h2⟩ := drawPixels_spec _ (spritePixels_nodup ox.toNat oy.toNat rows h)
    (fun p hp => by have := mem_spritePixels.mp hp; exact ⟨this.1, this.2.1⟩) d false
  refine ⟨fun px py => ⟨fun hc => ?_, fun hc => ?_⟩, ?_⟩
  · rw [h1, if_pos (mem_spritePixels.mpr hc)]
  · rw [h1, if_neg fun hm => hc (mem_spritePixels.mp hm)]
  · rw [h2]
    constructor
    · rintro (h | ⟨⟨px, py⟩, hp, hd⟩)
      · cases h
      · obtain ⟨a, b, c⟩ := mem_spritePixels.mp hp
        exact ⟨px, py, a, b, c, hd⟩
    · rintro ⟨px, py, a, b, c, hd⟩
      exact .inr ⟨(px, py), mem_spritePixels.mpr ⟨a, b, c⟩, hd⟩
end Sys2Proof.Machine
end

