-- ==== Sys2Proof/Laws/Encoding.lean ====
section
/-! SUPPORT. The fields of each instruction format read back. -/

namespace Sys2Proof

@[simp] theorem fieldG_formatXYN (g x y n : Nibble) : fieldG (formatXYN g x y n) = g := by
  apply BitVec.eq_of_getLsbD_eq; intro j hj
  simp only [fieldG, formatXYN, BitVec.getLsbD_extractLsb', BitVec.getLsbD_append]
  interval_cases j <;> simp

@[simp] theorem fieldX_formatXYN (g x y n : Nibble) : fieldX (formatXYN g x y n) = x := by
  apply BitVec.eq_of_getLsbD_eq; intro j hj
  simp only [fieldX, formatXYN, BitVec.getLsbD_extractLsb', BitVec.getLsbD_append]
  interval_cases j <;> simp

@[simp] theorem fieldY_formatXYN (g x y n : Nibble) : fieldY (formatXYN g x y n) = y := by
  apply BitVec.eq_of_getLsbD_eq; intro j hj
  simp only [fieldY, formatXYN, BitVec.getLsbD_extractLsb', BitVec.getLsbD_append]
  interval_cases j <;> simp

@[simp] theorem fieldN_formatXYN (g x y n : Nibble) : fieldN (formatXYN g x y n) = n := by
  apply BitVec.eq_of_getLsbD_eq; intro j hj
  simp only [fieldN, formatXYN, BitVec.getLsbD_extractLsb', BitVec.getLsbD_append]
  interval_cases j <;> simp

@[simp] theorem fieldKK_formatXYN (g x y n : Nibble) : fieldKK (formatXYN g x y n) = (y ++ n : BitVec 8) := by
  apply BitVec.eq_of_getLsbD_eq; intro j hj
  simp only [fieldKK, formatXYN, BitVec.getLsbD_extractLsb', BitVec.getLsbD_append]
  interval_cases j <;> simp

@[simp] theorem fieldG_formatXKK (g x : Nibble) (kk : Byte) : fieldG (formatXKK g x kk) = g := by
  apply BitVec.eq_of_getLsbD_eq; intro j hj
  simp only [fieldG, formatXKK, BitVec.getLsbD_extractLsb', BitVec.getLsbD_append]
  interval_cases j <;> simp

@[simp] theorem fieldX_formatXKK (g x : Nibble) (kk : Byte) : fieldX (formatXKK g x kk) = x := by
  apply BitVec.eq_of_getLsbD_eq; intro j hj
  simp only [fieldX, formatXKK, BitVec.getLsbD_extractLsb', BitVec.getLsbD_append]
  interval_cases j <;> simp

@[simp] theorem fieldKK_formatXKK (g x : Nibble) (kk : Byte) : fieldKK (formatXKK g x kk) = kk := by
  apply BitVec.eq_of_getLsbD_eq; intro j hj
  simp only [fieldKK, formatXKK, BitVec.getLsbD_extractLsb', BitVec.getLsbD_append]
  interval_cases j <;> simp

@[simp] theorem fieldG_formatNNN (g : Nibble) (nnn : Addr) : fieldG (formatNNN g nnn) = g := by
  apply BitVec.eq_of_getLsbD_eq; intro j hj
  simp only [fieldG, formatNNN, BitVec.getLsbD_extractLsb', BitVec.getLsbD_append]
  interval_cases j <;> simp

@[simp] theorem fieldNNN_formatNNN (g : Nibble) (nnn : Addr) : fieldNNN (formatNNN g nnn) = nnn := by
  apply BitVec.eq_of_getLsbD_eq; intro j hj
  simp only [fieldNNN, formatNNN, BitVec.getLsbD_extractLsb', BitVec.getLsbD_append]
  interval_cases j <;> simp

/-- The two bytes of a word form it again (R70). -/
theorem wordOfBytes_bytes (op : Word) : wordOfBytes (op.extractLsb' 8 8) (op.extractLsb' 0 8) = op := by
  apply BitVec.eq_of_getLsbD_eq; intro j hj
  simp only [wordOfBytes, BitVec.getLsbD_append, BitVec.getLsbD_extractLsb']
  interval_cases j <;> simp

end Sys2Proof
end

