-- ==== Sys2Proof/Laws/Exec.lean ====
section
/-! SUPPORT. What an instruction, a fetch, a CPU cycle and a step can do, each said once. -/

namespace Sys2Proof.Machine

/-- The fields an instruction may write: V, I, PC, SP, the stack, the timers, memory and the display. -/
def cpuFieldsOnly (s t : State) : Prop :=
  t = { s with v := t.v, i := t.i, pc := t.pc, sp := t.sp, stack := t.stack, dt := t.dt, st := t.st, mem := t.mem, disp := t.disp }

/-- The fields of a state that are no part of the block: the schedule and the free values. -/
def inputsOnly (s t : State) : Prop :=
  t = { s with schedule := t.schedule, randomPort := t.randomPort, oracle := t.oracle }

/-! ## The faults of each read -/

theorem State.raises_readV {i : Instr} {s : State} {x : Nibble} {f : Fault} (h : s.readV x = .error f) : raises i s f := by
  obtain ⟨h1, rfl⟩ := State.readV_error.mp h; exact h1

theorem State.raises_readI {i : Instr} {s : State} {f : Fault} (h : s.readI = .error f) : raises i s f := by
  obtain ⟨h1, rfl⟩ := State.readI_error.mp h; exact h1

theorem State.raises_readDt {i : Instr} {s : State} {f : Fault} (h : s.readDt = .error f) : raises i s f := by
  obtain ⟨h1, rfl⟩ := State.readDt_error.mp h; exact h1

theorem State.raises_readRegs {i : Instr} {s : State} {x : Nibble} {f : Fault} (h : s.readRegs x = .error f) : raises i s f := by
  obtain ⟨k, -, h1, rfl⟩ := State.readRegs_error h; exact h1

theorem State.raises_readBytes {i : Instr} {s : State} {a n : Nat} {f : Fault} (h : s.readBytes a n = .error f) : raises i s f := by
  obtain ⟨k, -, h1, rfl⟩ := State.readBytes_error h; exact h1

theorem raises_checkRange {i : Instr} {s : State} {a n : Nat} {f : Fault} (hi : accessesMemory i = true)
    (h : checkRange a n = .error f) : raises i s f := by
  obtain ⟨-, -, rfl⟩ := checkRange_error.mp h
  exact ⟨by simp [memSize], hi⟩

/-! ## One instruction -/

/-- An instruction completes, writing only CPU fields, or takes a fault R231 lists for it. -/
theorem exec_cases {i : Instr} {s t : State} (h : exec i s = .next t) :
    cpuFieldsOnly s t ∨ ∃ f, raises i s f ∧ t = s.takeFault f (s.pc - 2) (some (encode i)) := by
  have oneV : ∀ {x : Nibble} {k : Byte → Except Fault State},
      (∀ b u, k b = .ok u → cpuFieldsOnly s u) → (∀ b f, k b = .error f → raises i s f) →
      finish i s (s.readV x >>= k) = .next t →
      cpuFieldsOnly s t ∨ ∃ f, raises i s f ∧ t = s.takeFault f (s.pc - 2) (some (encode i)) := by
    intro x k hk he h
    rcases finish_cases h with h | ⟨f, h, ht⟩
    · obtain ⟨b, -, h⟩ := bind_ok h; exact .inl (hk b t h)
    · refine .inr ⟨f, ?_, ht⟩
      rcases bind_error h with h | ⟨b, -, h⟩
      · exact State.raises_readV h
      · exact he b f h
  have onlyVfields : ∀ u, onlyV s u → cpuFieldsOnly s u := by
    intro u hu; unfold onlyV at hu; unfold cpuFieldsOnly; rw [hu]
  have commits : ∀ (x : Nibble) (r : Byte) (f : Option Byte) (u : State), Except.ok (ε := Fault) (s.commit x r f) = .ok u → cpuFieldsOnly s u := by
    intro x r f u hu; cases hu; exact onlyVfields _ (s.commit_onlyV x r f)
  have draws : ∀ (d : Display) (f : Option Byte), cpuFieldsOnly s ((s.setDisp d).setFlag f) := by
    intro d f
    have := (s.setDisp d).setFlag_onlyV f
    unfold onlyV at this; unfold cpuFieldsOnly; rw [this]; rfl
  have twoV : ∀ {x y : Nibble} {k : Byte → Byte → State}, (∀ a b, cpuFieldsOnly s (k a b)) →
      finish i s (s.readV x >>= fun a => s.readV y >>= fun b => .ok (k a b)) = .next t →
      cpuFieldsOnly s t ∨ ∃ f, raises i s f ∧ t = s.takeFault f (s.pc - 2) (some (encode i)) := by
    intro x y k hk h
    refine oneV (fun a u hu => ?_) (fun a f hf => ?_) h
    · obtain ⟨b, -, hu⟩ := bind_ok hu; cases hu; exact hk a b
    · rcases bind_error hf with hf | ⟨b, -, hf⟩
      · exact State.raises_readV hf
      · cases hf
  cases i with
  | cls => cases h; exact .inl rfl
  | sys nnn => cases h; exact .inl rfl
  | jp nnn => cases h; exact .inl rfl
  | ldVxKk x kk => cases h; exact .inl rfl
  | rnd x kk => cases h; exact .inl rfl
  | ldI nnn => cases h; exact .inl rfl
  | ldVxK x =>
    simp only [exec, execLdVxK] at h
    split at h <;> cases h <;> exact .inl rfl
  | ret =>
    rcases finish_cases h with h | ⟨f, h, ht⟩
    · obtain ⟨⟨a, u⟩, hp, h⟩ := bind_ok h
      obtain ⟨-, -, -, hu⟩ := State.pop_ok hp
      simp only [Except.ok.injEq] at h; subst h
      left; rw [hu]; rfl
    · refine .inr ⟨f, ?_, ht⟩
      rcases bind_error h with h | ⟨⟨a, u⟩, -, h⟩
      · obtain ⟨h0, rfl⟩ := State.pop_error h; exact ⟨rfl, h0, rfl⟩
      · cases h
  | call nnn =>
    rcases finish_cases h with h | ⟨f, h, ht⟩
    · obtain ⟨u, hp, h⟩ := bind_ok h
      obtain ⟨-, -, -, -, hu⟩ := State.push_ok hp
      simp only [Except.ok.injEq] at h; subst h
      left; rw [hu]; rfl
    · refine .inr ⟨f, ?_, ht⟩
      rcases bind_error h with h | ⟨u, -, h⟩
      · obtain ⟨h0, rfl⟩ := State.push_error h; exact ⟨rfl, h0, rfl⟩
      · cases h
  | jpV0 nnn => exact oneV (fun _ u hu => by cases hu; rfl) (fun _ _ hf => by cases hf) h
  | seVxKk x kk => exact oneV (fun _ u hu => by cases hu; rw [State.skipIf_eq]; rfl) (fun _ _ hf => by cases hf) h
  | sneVxKk x kk => exact oneV (fun _ u hu => by cases hu; rw [State.skipIf_eq]; rfl) (fun _ _ hf => by cases hf) h
  | seVxVy x y => exact twoV (fun a b => by rw [State.skipIf_eq]; rfl) h
  | sneVxVy x y => exact twoV (fun a b => by rw [State.skipIf_eq]; rfl) h
  | addVxKk x kk => exact oneV (fun _ u hu => commits _ _ _ u hu) (fun _ _ hf => by cases hf) h
  | ldVxVy x y => exact oneV (fun _ u hu => by cases hu; rfl) (fun _ _ hf => by cases hf) h
  | orVxVy x y => exact twoV (fun a b => commits _ _ _ _ rfl) h
  | andVxVy x y => exact twoV (fun a b => commits _ _ _ _ rfl) h
  | xorVxVy x y => exact twoV (fun a b => commits _ _ _ _ rfl) h
  | addVxVy x y => exact twoV (fun a b => commits _ _ _ _ rfl) h
  | subVxVy x y => exact twoV (fun a b => commits _ _ _ _ rfl) h
  | subnVxVy x y => exact twoV (fun a b => commits _ _ _ _ rfl) h
  | shrVxVy x y => exact oneV (fun _ u hu => commits _ _ _ u hu) (fun _ _ hf => by cases hf) h
  | shlVxVy x y => exact oneV (fun _ u hu => commits _ _ _ u hu) (fun _ _ hf => by cases hf) h
  | ldFVx x => exact oneV (fun _ u hu => by cases hu; rfl) (fun _ _ hf => by cases hf) h
  | ldDtVx x => exact oneV (fun _ u hu => by cases hu; rfl) (fun _ _ hf => by cases hf) h
  | ldStVx x => exact oneV (fun _ u hu => by cases hu; rfl) (fun _ _ hf => by cases hf) h
  | ldVxDt x =>
    rcases finish_cases h with h | ⟨f, h, ht⟩
    · obtain ⟨b, -, h⟩ := bind_ok h; cases h; exact .inl rfl
    · refine .inr ⟨f, ?_, ht⟩
      rcases bind_error h with h | ⟨b, -, h⟩
      · exact State.raises_readDt h
      · cases h
  | addIVx x =>
    rcases finish_cases h with h | ⟨f, h, ht⟩
    · obtain ⟨a, -, h⟩ := bind_ok h; obtain ⟨b, -, h⟩ := bind_ok h; cases h; exact .inl rfl
    · refine .inr ⟨f, ?_, ht⟩
      rcases bind_error h with h | ⟨a, -, h⟩
      · exact State.raises_readI h
      · rcases bind_error h with h | ⟨b, -, h⟩
        · exact State.raises_readV h
        · cases h
  | skp x =>
    refine oneV (fun _ u hu => ?_) (fun _ f hf => ?_) h
    · obtain ⟨k, -, hu⟩ := bind_ok hu; cases hu; rw [State.skipIf_eq]; rfl
    · rcases bind_error hf with hf | ⟨k, -, hf⟩
      · obtain ⟨h1, rfl⟩ := keyNumber_error.mp hf; exact ⟨h1, rfl⟩
      · cases hf
  | sknp x =>
    refine oneV (fun _ u hu => ?_) (fun _ f hf => ?_) h
    · obtain ⟨k, -, hu⟩ := bind_ok hu; cases hu; rw [State.skipIf_eq]; rfl
    · rcases bind_error hf with hf | ⟨k, -, hf⟩
      · obtain ⟨h1, rfl⟩ := keyNumber_error.mp hf; exact ⟨h1, rfl⟩
      · cases hf
  | ldBVx x =>
    refine oneV (fun _ u hu => ?_) (fun _ f hf => ?_) h
    · obtain ⟨base, -, hu⟩ := bind_ok hu; obtain ⟨_, -, hu⟩ := bind_ok hu; cases hu; rfl
    · rcases bind_error hf with hf | ⟨base, -, hf⟩
      · exact State.raises_readI hf
      · rcases bind_error hf with hf | ⟨_, -, hf⟩
        · exact raises_checkRange rfl hf
        · cases hf
  | ldMemVx x =>
    rcases finish_cases h with h | ⟨f, h, ht⟩
    · obtain ⟨base, -, h⟩ := bind_ok h; obtain ⟨bs, -, h⟩ := bind_ok h; obtain ⟨_, -, h⟩ := bind_ok h
      cases h; exact .inl rfl
    · refine .inr ⟨f, ?_, ht⟩
      rcases bind_error h with h | ⟨base, -, h⟩
      · exact State.raises_readI h
      · rcases bind_error h with h | ⟨bs, -, h⟩
        · exact State.raises_readRegs h
        · rcases bind_error h with h | ⟨_, -, h⟩
          · exact raises_checkRange rfl h
          · cases h
  | ldVxMem x =>
    rcases finish_cases h with h | ⟨f, h, ht⟩
    · obtain ⟨base, -, h⟩ := bind_ok h; obtain ⟨_, -, h⟩ := bind_ok h; obtain ⟨bs, -, h⟩ := bind_ok h
      cases h
      left
      have := State.setRegs_onlyV bs s 0
      unfold onlyV at this; unfold cpuFieldsOnly; rw [this]; rfl
    · refine .inr ⟨f, ?_, ht⟩
      rcases bind_error h with h | ⟨base, -, h⟩
      · exact State.raises_readI h
      · rcases bind_error h with h | ⟨_, -, h⟩
        · exact raises_checkRange rfl h
        · rcases bind_error h with h | ⟨bs, -, h⟩
          · exact State.raises_readBytes h
          · cases h
  | drw x y n =>
    refine oneV (fun _ u hu => ?_) (fun _ f hf => ?_) h
    · obtain ⟨oy, -, hu⟩ := bind_ok hu; obtain ⟨base, -, hu⟩ := bind_ok hu; obtain ⟨_, -, hu⟩ := bind_ok hu
      obtain ⟨rows, -, hu⟩ := bind_ok hu
      cases hu
      exact draws _ _
    · rcases bind_error hf with hf | ⟨oy, -, hf⟩
      · exact State.raises_readV hf
      · rcases bind_error hf with hf | ⟨base, -, hf⟩
        · exact State.raises_readI hf
        · rcases bind_error hf with hf | ⟨_, -, hf⟩
          · exact raises_checkRange rfl hf
          · rcases bind_error hf with hf | ⟨rows, -, hf⟩
            · exact State.raises_readBytes hf
            · cases hf

/-! ## The fetch and the cycle -/

/-- A fetch that does not fault: both bytes lie in memory and hold a value, and the word is theirs (R95). -/
theorem State.fetch_ok {s : State} {op : Word} :
    s.fetch = .ok op ↔ s.pc.toNat + 1 < 4095 ∧ ∃ hi lo : Byte, s.byteAt s.pc.toNat = .held hi ∧
      s.byteAt (s.pc.toNat + 1) = .held lo ∧ op = wordOfBytes hi lo := by
  constructor
  · intro h
    obtain ⟨u, h0, h⟩ := bind_ok h; obtain ⟨hi, h1, h⟩ := bind_ok h; obtain ⟨lo, h2, h⟩ := bind_ok h
    have := checkRange_ok.mp h0
    simp only [opcodeBytes, memSize] at this
    exact ⟨by omega, hi, lo, Cell.read_held.mp h1, Cell.read_held.mp h2, (Except.ok.inj h).symm⟩
  · rintro ⟨hr, hi, lo, h1, h2, rfl⟩
    have h0 : checkRange s.pc.toNat opcodeBytes = .ok () := checkRange_ok.mpr (by simp only [opcodeBytes, memSize]; omega)
    simp [State.fetch, h0, h1, h2, Cell.read]

/-- The faults of a fetch: MEM_RANGE at the first byte outside memory, UNWRITTEN at the first unwritten one (R95, R239). -/
theorem State.fetch_error {s : State} {f : Fault} (h : s.fetch = .error f) :
    (4094 ≤ s.pc.toNat ∧ f = .memRange (max 4095 s.pc.toNat)) ∨
    (s.pc.toNat + 1 < 4095 ∧ s.byteAt s.pc.toNat = .unwritten ∧ f = .unwritten (.mem s.pc.toNat)) ∨
    (s.pc.toNat + 1 < 4095 ∧ (∃ hi, s.byteAt s.pc.toNat = .held hi) ∧ s.byteAt (s.pc.toNat + 1) = .unwritten ∧
      f = .unwritten (.mem (s.pc.toNat + 1))) := by
  rcases bind_error h with h | ⟨u, h0, h⟩
  · have := checkRange_error.mp h
    simp only [opcodeBytes, memSize] at this
    exact .inl ⟨by omega, this.2.2⟩
  · have hr := checkRange_ok.mp h0
    simp only [opcodeBytes, memSize] at hr
    rcases bind_error h with h | ⟨hi, h1, h⟩
    · obtain ⟨h1, h2⟩ := Cell.read_error.mp h
      exact .inr (.inl ⟨by omega, h1, h2⟩)
    · rcases bind_error h with h | ⟨lo, h2, h⟩
      · obtain ⟨h2, h3⟩ := Cell.read_error.mp h
        exact .inr (.inr ⟨by omega, ⟨hi, Cell.read_held.mp h1⟩, h2, h3⟩)
      · cases h

/-- A cycle takes a fetch fault, executes the decoded instruction, or only advances PC. -/
theorem State.cycle_cases {s t : State} (h : s.cycle = .next t) :
    (∃ f, s.fetch = .error f ∧ t = s.takeFault f s.pc none) ∨
    (∃ op i, s.fetch = .ok op ∧ decode op = .ok i ∧ exec i (s.setPc (s.pc + 2)) = .next t) ∨
    (∃ op e, s.fetch = .ok op ∧ decode op = .error e ∧ t = s.setPc (s.pc + 2)) := by
  simp only [State.cycle] at h
  cases hf : s.fetch with
  | error f => rw [hf] at h; cases h; exact .inl ⟨f, rfl, rfl⟩
  | ok op =>
    rw [hf] at h
    cases hd : decode op with
    | ok i => simp only [hd] at h; exact .inr (.inl ⟨op, i, rfl, hd, h⟩)
    | error e => simp only [hd] at h; cases h; exact .inr (.inr ⟨op, e, rfl, hd, rfl⟩)

/-- A CPU step is a cycle, where it is enabled, and nothing otherwise. -/
theorem State.cpuExec_cases {s t : State} (h : s.cpuExec = .next t) :
    (s.run.executes = true ∧ s.cycle = .next t) ∨ (s.run.executes = false ∧ t = s) := by
  simp only [State.cpuExec] at h
  cases he : s.run.executes <;> simp only [he] at h
  · cases h; exact .inr ⟨rfl, rfl⟩
  · exact .inl ⟨rfl, h⟩

/-! ## One step -/

/-- Where the step is a CPU step, it is a cycle from the state its fetch sees. -/
theorem cpuMoves_step {s u : State} (h : cpuMoves s u) : step s = u.cycle := by
  rcases h with ⟨r, es, hs, hr, rfl⟩ | ⟨hs, hr, rfl⟩
  · have hd : s.dequeue = { s with schedule := es } := by simp [State.dequeue, hs]
    have he : s.run.executes = true := by rcases hr with h | h <;> rw [h] <;> rfl
    simp only [step, hs, agentStep, hd, State.cpuExec, he, if_true]
  · rcases hr with hr | ⟨hr, hx⟩
    · simp only [step, hs, State.unscheduled, hr, State.cpuExec, State.choose, RunState.executes, if_true]
    · simp only [step, hs, State.unscheduled, hr, hx, State.cpuExec, State.choose, RunState.executes, if_true,
        Bool.false_eq_true, if_false]

/-- The state a CPU step's fetch sees is that of the block, with only the schedule and the free values moved on. -/
theorem cpuMoves_inputsOnly {s u : State} (h : cpuMoves s u) : inputsOnly s u := by
  rcases h with ⟨r, es, -, -, rfl⟩ | ⟨-, -, rfl⟩ <;> rfl

/-- What a step can be: a CPU cycle, from the state with only the schedule and the free values moved on; nothing
but that moving on; the CPU's exit; a tick; or one of the host's requests, named by the schedule. -/
theorem step_cases {s t : State} (h : step s = .next t) :
    ∃ u, inputsOnly s u ∧
      ((cpuMoves s u ∧ u.cycle = .next t) ∨ t = u ∨ t = u.exit ∨ t = u.tick ∨
        ∃ e es, s.schedule = e :: es ∧ u.schedule = es ∧ e.byHost = true ∧ agentStep e u = .next t) := by
  cases hs : s.schedule with
  | nil =>
    simp only [step, hs, State.unscheduled] at h
    cases hr : s.run <;> simp only [hr] at h
    case running =>
      refine ⟨{ s.choose with randomPort := Config.randomByte s.oracle }, rfl, ?_⟩
      rcases State.cpuExec_cases h with ⟨-, h⟩ | ⟨-, h⟩
      · exact .inl ⟨.inr ⟨hs, .inl hr, rfl⟩, h⟩
      · exact .inr (.inl h)
    case stopRequested =>
      split at h
      · cases h; exact ⟨s.choose, rfl, .inr (.inr (.inl rfl))⟩
      · rename_i hx
        refine ⟨{ s.choose with randomPort := Config.randomByte s.oracle }, rfl, ?_⟩
        rcases State.cpuExec_cases h with ⟨-, h⟩ | ⟨-, h⟩
        · exact .inl ⟨.inr ⟨hs, .inr ⟨hr, Bool.not_eq_true _ ▸ hx⟩, rfl⟩, h⟩
        · exact .inr (.inl h)
    all_goals (cases h; exact ⟨s, rfl, .inr (.inl rfl)⟩)
  | cons e es =>
    simp only [step, hs] at h
    have hd : s.dequeue = { s with schedule := es } := by simp [State.dequeue, hs]
    have hi : inputsOnly s s.dequeue := rfl
    have he : s.dequeue.schedule = es := by simp [hs]
    cases e
    case exec r =>
      refine ⟨{ s.dequeue with randomPort := r }, rfl, ?_⟩
      rcases State.cpuExec_cases h with ⟨hx, h⟩ | ⟨-, h⟩
      · refine .inl ⟨.inl ⟨r, es, hs, ?_, by rw [hd]⟩, h⟩
        have hx : s.run.executes = true := hx
        cases hr : s.run <;> simp [hr, RunState.executes] at hx ⊢
      · exact .inr (.inl h)
    case exit => cases h; exact ⟨s.dequeue, hi, .inr (.inr (.inl rfl))⟩
    case tick => cases h; exact ⟨s.dequeue, hi, .inr (.inr (.inr (.inl rfl)))⟩
    all_goals exact ⟨s.dequeue, hi, .inr (.inr (.inr (.inr ⟨_, es, rfl, he, rfl, h⟩)))⟩

end Sys2Proof.Machine
end

