-- ==== Sys2Proof/Laws/PerInstr.lean ====
section
/-! SUPPORT. The per-instruction family RowPattern: an instruction's word has the fixed bits of its row of spec/opcode_table.json. -/

namespace Sys2Proof.Laws.RowPattern

/-- The mask and the match of an instruction's row in spec/opcode_table.json (R98). -/
def row : Instr → Word × Word
  | .cls => (0xFFFF, 0x00E0)
  | .ret => (0xFFFF, 0x00EE)
  | .sys _ => (0xF000, 0x0000)
  | .jp _ => (0xF000, 0x1000)
  | .call _ => (0xF000, 0x2000)
  | .seVxKk _ _ => (0xF000, 0x3000)
  | .sneVxKk _ _ => (0xF000, 0x4000)
  | .seVxVy _ _ => (0xF00F, 0x5000)
  | .ldVxKk _ _ => (0xF000, 0x6000)
  | .addVxKk _ _ => (0xF000, 0x7000)
  | .ldVxVy _ _ => (0xF00F, 0x8000)
  | .orVxVy _ _ => (0xF00F, 0x8001)
  | .andVxVy _ _ => (0xF00F, 0x8002)
  | .xorVxVy _ _ => (0xF00F, 0x8003)
  | .addVxVy _ _ => (0xF00F, 0x8004)
  | .subVxVy _ _ => (0xF00F, 0x8005)
  | .shrVxVy _ _ => (0xF00F, 0x8006)
  | .subnVxVy _ _ => (0xF00F, 0x8007)
  | .shlVxVy _ _ => (0xF00F, 0x800E)
  | .sneVxVy _ _ => (0xF00F, 0x9000)
  | .ldI _ => (0xF000, 0xA000)
  | .jpV0 _ => (0xF000, 0xB000)
  | .rnd _ _ => (0xF000, 0xC000)
  | .drw _ _ _ => (0xF000, 0xD000)
  | .skp _ => (0xF0FF, 0xE09E)
  | .sknp _ => (0xF0FF, 0xE0A1)
  | .ldVxDt _ => (0xF0FF, 0xF007)
  | .ldVxK _ => (0xF0FF, 0xF00A)
  | .ldDtVx _ => (0xF0FF, 0xF015)
  | .ldStVx _ => (0xF0FF, 0xF018)
  | .addIVx _ => (0xF0FF, 0xF01E)
  | .ldFVx _ => (0xF0FF, 0xF029)
  | .ldBVx _ => (0xF0FF, 0xF033)
  | .ldMemVx _ => (0xF0FF, 0xF055)
  | .ldVxMem _ => (0xF0FF, 0xF065)

/-- The encoded word, under its row's mask, is its row's match. -/
def Statement (i : Instr) : Prop := encode i &&& (row i).1 = (row i).2

theorem cls : Statement .cls := by rfl

theorem ret : Statement .ret := by rfl

theorem sys (nnn : Addr) : Statement (.sys nnn) := by
  apply BitVec.eq_of_getLsbD_eq; intro j hj
  simp only [row, encode, formatNNN, BitVec.getLsbD_and, BitVec.getLsbD_append]
  interval_cases j <;> simp

theorem jp (nnn : Addr) : Statement (.jp nnn) := by
  apply BitVec.eq_of_getLsbD_eq; intro j hj
  simp only [row, encode, formatNNN, BitVec.getLsbD_and, BitVec.getLsbD_append]
  interval_cases j <;> simp

theorem call (nnn : Addr) : Statement (.call nnn) := by
  apply BitVec.eq_of_getLsbD_eq; intro j hj
  simp only [row, encode, formatNNN, BitVec.getLsbD_and, BitVec.getLsbD_append]
  interval_cases j <;> simp

theorem seVxKk (x : Nibble) (kk : Byte) : Statement (.seVxKk x kk) := by
  apply BitVec.eq_of_getLsbD_eq; intro j hj
  simp only [row, encode, formatXKK, BitVec.getLsbD_and, BitVec.getLsbD_append]
  interval_cases j <;> simp

theorem sneVxKk (x : Nibble) (kk : Byte) : Statement (.sneVxKk x kk) := by
  apply BitVec.eq_of_getLsbD_eq; intro j hj
  simp only [row, encode, formatXKK, BitVec.getLsbD_and, BitVec.getLsbD_append]
  interval_cases j <;> simp

theorem seVxVy (x : Nibble) (y : Nibble) : Statement (.seVxVy x y) := by
  apply BitVec.eq_of_getLsbD_eq; intro j hj
  simp only [row, encode, formatXYN, BitVec.getLsbD_and, BitVec.getLsbD_append]
  interval_cases j <;> simp

theorem ldVxKk (x : Nibble) (kk : Byte) : Statement (.ldVxKk x kk) := by
  apply BitVec.eq_of_getLsbD_eq; intro j hj
  simp only [row, encode, formatXKK, BitVec.getLsbD_and, BitVec.getLsbD_append]
  interval_cases j <;> simp

theorem addVxKk (x : Nibble) (kk : Byte) : Statement (.addVxKk x kk) := by
  apply BitVec.eq_of_getLsbD_eq; intro j hj
  simp only [row, encode, formatXKK, BitVec.getLsbD_and, BitVec.getLsbD_append]
  interval_cases j <;> simp

theorem ldVxVy (x : Nibble) (y : Nibble) : Statement (.ldVxVy x y) := by
  apply BitVec.eq_of_getLsbD_eq; intro j hj
  simp only [row, encode, formatXYN, BitVec.getLsbD_and, BitVec.getLsbD_append]
  interval_cases j <;> simp

theorem orVxVy (x : Nibble) (y : Nibble) : Statement (.orVxVy x y) := by
  apply BitVec.eq_of_getLsbD_eq; intro j hj
  simp only [row, encode, formatXYN, BitVec.getLsbD_and, BitVec.getLsbD_append]
  interval_cases j <;> simp

theorem andVxVy (x : Nibble) (y : Nibble) : Statement (.andVxVy x y) := by
  apply BitVec.eq_of_getLsbD_eq; intro j hj
  simp only [row, encode, formatXYN, BitVec.getLsbD_and, BitVec.getLsbD_append]
  interval_cases j <;> simp

theorem xorVxVy (x : Nibble) (y : Nibble) : Statement (.xorVxVy x y) := by
  apply BitVec.eq_of_getLsbD_eq; intro j hj
  simp only [row, encode, formatXYN, BitVec.getLsbD_and, BitVec.getLsbD_append]
  interval_cases j <;> simp

theorem addVxVy (x : Nibble) (y : Nibble) : Statement (.addVxVy x y) := by
  apply BitVec.eq_of_getLsbD_eq; intro j hj
  simp only [row, encode, formatXYN, BitVec.getLsbD_and, BitVec.getLsbD_append]
  interval_cases j <;> simp

theorem subVxVy (x : Nibble) (y : Nibble) : Statement (.subVxVy x y) := by
  apply BitVec.eq_of_getLsbD_eq; intro j hj
  simp only [row, encode, formatXYN, BitVec.getLsbD_and, BitVec.getLsbD_append]
  interval_cases j <;> simp

theorem shrVxVy (x : Nibble) (y : Nibble) : Statement (.shrVxVy x y) := by
  apply BitVec.eq_of_getLsbD_eq; intro j hj
  simp only [row, encode, formatXYN, BitVec.getLsbD_and, BitVec.getLsbD_append]
  interval_cases j <;> simp

theorem subnVxVy (x : Nibble) (y : Nibble) : Statement (.subnVxVy x y) := by
  apply BitVec.eq_of_getLsbD_eq; intro j hj
  simp only [row, encode, formatXYN, BitVec.getLsbD_and, BitVec.getLsbD_append]
  interval_cases j <;> simp

theorem shlVxVy (x : Nibble) (y : Nibble) : Statement (.shlVxVy x y) := by
  apply BitVec.eq_of_getLsbD_eq; intro j hj
  simp only [row, encode, formatXYN, BitVec.getLsbD_and, BitVec.getLsbD_append]
  interval_cases j <;> simp

theorem sneVxVy (x : Nibble) (y : Nibble) : Statement (.sneVxVy x y) := by
  apply BitVec.eq_of_getLsbD_eq; intro j hj
  simp only [row, encode, formatXYN, BitVec.getLsbD_and, BitVec.getLsbD_append]
  interval_cases j <;> simp

theorem ldI (nnn : Addr) : Statement (.ldI nnn) := by
  apply BitVec.eq_of_getLsbD_eq; intro j hj
  simp only [row, encode, formatNNN, BitVec.getLsbD_and, BitVec.getLsbD_append]
  interval_cases j <;> simp

theorem jpV0 (nnn : Addr) : Statement (.jpV0 nnn) := by
  apply BitVec.eq_of_getLsbD_eq; intro j hj
  simp only [row, encode, formatNNN, BitVec.getLsbD_and, BitVec.getLsbD_append]
  interval_cases j <;> simp

theorem rnd (x : Nibble) (kk : Byte) : Statement (.rnd x kk) := by
  apply BitVec.eq_of_getLsbD_eq; intro j hj
  simp only [row, encode, formatXKK, BitVec.getLsbD_and, BitVec.getLsbD_append]
  interval_cases j <;> simp

theorem drw (x : Nibble) (y : Nibble) (n : Nibble) : Statement (.drw x y n) := by
  apply BitVec.eq_of_getLsbD_eq; intro j hj
  simp only [row, encode, formatXYN, BitVec.getLsbD_and, BitVec.getLsbD_append]
  interval_cases j <;> simp

theorem skp (x : Nibble) : Statement (.skp x) := by
  apply BitVec.eq_of_getLsbD_eq; intro j hj
  simp only [row, encode, formatXKK, BitVec.getLsbD_and, BitVec.getLsbD_append]
  interval_cases j <;> simp

theorem sknp (x : Nibble) : Statement (.sknp x) := by
  apply BitVec.eq_of_getLsbD_eq; intro j hj
  simp only [row, encode, formatXKK, BitVec.getLsbD_and, BitVec.getLsbD_append]
  interval_cases j <;> simp

theorem ldVxDt (x : Nibble) : Statement (.ldVxDt x) := by
  apply BitVec.eq_of_getLsbD_eq; intro j hj
  simp only [row, encode, formatXKK, BitVec.getLsbD_and, BitVec.getLsbD_append]
  interval_cases j <;> simp

theorem ldVxK (x : Nibble) : Statement (.ldVxK x) := by
  apply BitVec.eq_of_getLsbD_eq; intro j hj
  simp only [row, encode, formatXKK, BitVec.getLsbD_and, BitVec.getLsbD_append]
  interval_cases j <;> simp

theorem ldDtVx (x : Nibble) : Statement (.ldDtVx x) := by
  apply BitVec.eq_of_getLsbD_eq; intro j hj
  simp only [row, encode, formatXKK, BitVec.getLsbD_and, BitVec.getLsbD_append]
  interval_cases j <;> simp

theorem ldStVx (x : Nibble) : Statement (.ldStVx x) := by
  apply BitVec.eq_of_getLsbD_eq; intro j hj
  simp only [row, encode, formatXKK, BitVec.getLsbD_and, BitVec.getLsbD_append]
  interval_cases j <;> simp

theorem addIVx (x : Nibble) : Statement (.addIVx x) := by
  apply BitVec.eq_of_getLsbD_eq; intro j hj
  simp only [row, encode, formatXKK, BitVec.getLsbD_and, BitVec.getLsbD_append]
  interval_cases j <;> simp

theorem ldFVx (x : Nibble) : Statement (.ldFVx x) := by
  apply BitVec.eq_of_getLsbD_eq; intro j hj
  simp only [row, encode, formatXKK, BitVec.getLsbD_and, BitVec.getLsbD_append]
  interval_cases j <;> simp

theorem ldBVx (x : Nibble) : Statement (.ldBVx x) := by
  apply BitVec.eq_of_getLsbD_eq; intro j hj
  simp only [row, encode, formatXKK, BitVec.getLsbD_and, BitVec.getLsbD_append]
  interval_cases j <;> simp

theorem ldMemVx (x : Nibble) : Statement (.ldMemVx x) := by
  apply BitVec.eq_of_getLsbD_eq; intro j hj
  simp only [row, encode, formatXKK, BitVec.getLsbD_and, BitVec.getLsbD_append]
  interval_cases j <;> simp

theorem ldVxMem (x : Nibble) : Statement (.ldVxMem x) := by
  apply BitVec.eq_of_getLsbD_eq; intro j hj
  simp only [row, encode, formatXKK, BitVec.getLsbD_and, BitVec.getLsbD_append]
  interval_cases j <;> simp

end Sys2Proof.Laws.RowPattern
end

