-- ==== Sys2Proof/Laws/Runs.lean ====
section
/-! SUPPORT. The CPU's exits never run out, and a finite part of an interleaving is a run of the machine. -/

namespace Sys2Proof.Machine

/-! ## The exit's free choices -/

/-- Exits fall at rising counts. -/
theorem exitTime_lt (k : Nat) : exitTime k < exitTime (k + 1) := by simp only [exitTime]; omega

/-- The k-th exit falls at k or later. -/
theorem le_exitTime (k : Nat) : k ≤ exitTime k := by
  induction k with
  | zero => omega
  | succ k ih => have := exitTime_lt k; omega

/-- A free choice exits exactly at the exit times. -/
theorem exitsNow_iff {n : Nat} : exitsNow n = true ↔ ∃ k, exitTime k = n := by
  simp only [exitsNow, List.any_eq_true, List.mem_range, beq_iff_eq]
  exact ⟨fun ⟨k, _, h⟩ => ⟨k, h⟩, fun ⟨k, h⟩ => ⟨k, by have := le_exitTime k; omega, h⟩⟩

/-- The choices that exit never run out: there is one at or after every count (R278). -/
theorem exitsNow_recurs (n : Nat) : ∃ m, n ≤ m ∧ exitsNow m = true :=
  ⟨exitTime n, le_exitTime n, exitsNow_iff.mpr ⟨n, rfl⟩⟩

/-! ## The rest of the schedule does not matter to a step -/

/-- The state with another schedule. -/
def State.withSchedule (s : State) (es : List AgentStep) : State := { s with schedule := es }

/-- A commit does not see the schedule. -/
theorem State.commit_withSchedule (s : State) (es : List AgentStep) (x : Nibble) (r : Byte) (f : Option Byte) :
    (s.withSchedule es).commit x r f = (s.commit x r f).withSchedule es := by
  cases f with
  | none => rfl
  | some b => cases h : s.config.vfOrder <;> simp [State.commit, State.withSchedule, h, State.setReg]

/-- A skip does not see the schedule. -/
theorem State.skipIf_withSchedule (s : State) (es : List AgentStep) (c : Bool) :
    (s.withSchedule es).skipIf c = (s.skipIf c).withSchedule es := by cases c <;> rfl

/-- A flag write does not see the schedule. -/
theorem State.setFlag_withSchedule (s : State) (es : List AgentStep) (f : Option Byte) :
    (s.withSchedule es).setFlag f = (s.setFlag f).withSchedule es := by cases f <;> rfl

/-- A block of register writes does not see the schedule. -/
theorem State.setRegs_withSchedule (bs : List Byte) (s : State) (es : List AgentStep) (k : Nat) :
    (s.withSchedule es).setRegs k bs = (s.setRegs k bs).withSchedule es := by
  induction bs generalizing s k with
  | nil => rfl
  | cons b rest ih => exact ih (s.setReg (BitVec.ofNat 4 k) b) (k + 1)

/-- A block of memory reads does not see the schedule. -/
theorem State.readBytes_withSchedule (s : State) (es : List AgentStep) (a n : Nat) :
    (s.withSchedule es).readBytes a n = s.readBytes a n := by
  induction n generalizing a with
  | zero => rfl
  | succ n ih => simp only [State.readBytes, ih]; rfl

/-- An instruction's rule whose reads do not see the schedule and whose writes keep it. -/
theorem finish_withSchedule {i : Instr} {s : State} (es : List AgentStep) {r r' : Except Fault State} {t : State}
    (hr : r' = r.map (·.withSchedule es)) (h : finish i s r = .next t) :
    finish i (s.withSchedule es) r' = .next (t.withSchedule es) := by
  subst hr
  cases r <;> cases h <;> rfl

/-- No instruction reads or writes the schedule. -/
theorem exec_withSchedule {i : Instr} {s t : State} (es : List AgentStep) (h : exec i s = .next t) :
    exec i (s.withSchedule es) = .next (t.withSchedule es) := by
  have rv : ∀ x, (s.withSchedule es).readV x = s.readV x := fun _ => rfl
  have oneV : ∀ {x : Nibble} {k k' : Byte → Except Fault State},
      (∀ b, k' b = (k b).map (·.withSchedule es)) → finish i s (s.readV x >>= k) = .next t →
      finish i (s.withSchedule es) ((s.withSchedule es).readV x >>= k') = .next (t.withSchedule es) := by
    intro x k k' hk h
    refine finish_withSchedule es ?_ h
    rw [rv]
    cases s.readV x with
    | ok b => exact hk b
    | error f => rfl
  have twoV : ∀ {x y : Nibble} {k k' : Byte → Byte → State}, (∀ a b, k' a b = (k a b).withSchedule es) →
      finish i s (s.readV x >>= fun a => s.readV y >>= fun b => .ok (k a b)) = .next t →
      finish i (s.withSchedule es) ((s.withSchedule es).readV x >>= fun a => (s.withSchedule es).readV y >>= fun b => .ok (k' a b)) =
        .next (t.withSchedule es) := by
    intro x y k k' hk h
    refine oneV (fun a => ?_) h
    rw [rv]
    cases s.readV y with
    | ok b => simp only [ok_bind, hk]; rfl
    | error f => rfl
  have oneV' : ∀ {x : Nibble} {k k' : Byte → State}, (∀ b, k' b = (k b).withSchedule es) →
      finish i s (s.readV x >>= fun a => .ok (k a)) = .next t →
      finish i (s.withSchedule es) ((s.withSchedule es).readV x >>= fun a => .ok (k' a)) = .next (t.withSchedule es) :=
    fun hk h => oneV (fun b => by rw [hk]; rfl) h
  have commits : ∀ x r f, (s.withSchedule es).commit x r f = (s.commit x r f).withSchedule es :=
    fun x r f => s.commit_withSchedule es x r f
  cases i with
  | cls => cases h; rfl
  | sys nnn => cases h; rfl
  | jp nnn => cases h; rfl
  | ldVxKk x kk => cases h; rfl
  | rnd x kk => cases h; rfl
  | ldI nnn => cases h; rfl
  | ldVxK x =>
    simp only [exec, execLdVxK, State.withSchedule] at h ⊢
    cases hk : anyPressed s.keys <;> simp only [hk] at h ⊢ <;> cases h <;> rfl
  | ret =>
    refine finish_withSchedule es ?_ h
    by_cases hs : 0 < s.sp.val <;> simp [State.pop, State.withSchedule, hs] <;> rfl
  | call nnn =>
    refine finish_withSchedule es ?_ h
    by_cases hs : s.sp.val < 16 <;> simp [State.push, State.withSchedule, hs] <;> rfl
  | jpV0 nnn => exact oneV' (fun _ => rfl) h
  | seVxKk x kk => exact oneV' (fun _ => State.skipIf_withSchedule _ _ _) h
  | sneVxKk x kk => exact oneV' (fun _ => State.skipIf_withSchedule _ _ _) h
  | seVxVy x y => exact twoV (fun _ _ => State.skipIf_withSchedule _ _ _) h
  | sneVxVy x y => exact twoV (fun _ _ => State.skipIf_withSchedule _ _ _) h
  | addVxKk x kk => exact oneV' (fun _ => commits _ _ _) h
  | ldVxVy x y => exact oneV' (fun _ => rfl) h
  | orVxVy x y => exact twoV (fun _ _ => commits _ _ _) h
  | andVxVy x y => exact twoV (fun _ _ => commits _ _ _) h
  | xorVxVy x y => exact twoV (fun _ _ => commits _ _ _) h
  | addVxVy x y => exact twoV (fun _ _ => commits _ _ _) h
  | subVxVy x y => exact twoV (fun _ _ => commits _ _ _) h
  | subnVxVy x y => exact twoV (fun _ _ => commits _ _ _) h
  | shrVxVy x y => exact oneV' (fun _ => commits _ _ _) h
  | shlVxVy x y => exact oneV' (fun _ => commits _ _ _) h
  | ldFVx x => exact oneV' (fun _ => rfl) h
  | ldDtVx x => exact oneV' (fun _ => rfl) h
  | ldStVx x => exact oneV' (fun _ => rfl) h
  | ldVxDt x =>
    refine finish_withSchedule es ?_ h
    rw [show (s.withSchedule es).readDt = s.readDt from rfl]
    cases s.readDt <;> rfl
  | addIVx x =>
    refine finish_withSchedule es ?_ h
    rw [show (s.withSchedule es).readI = s.readI from rfl, rv]
    cases s.readI <;> cases s.readV x <;> rfl
  | skp x =>
    refine oneV (fun b => ?_) h
    cases keyNumber b with
    | ok k => exact congrArg Except.ok (State.skipIf_withSchedule _ _ _)
    | error f => rfl
  | sknp x =>
    refine oneV (fun b => ?_) h
    cases keyNumber b with
    | ok k => exact congrArg Except.ok (State.skipIf_withSchedule _ _ _)
    | error f => rfl
  | ldBVx x =>
    refine oneV (fun b => ?_) h
    rw [show (s.withSchedule es).readI = s.readI from rfl]
    cases s.readI with
    | ok base => simp only [ok_bind]; cases checkRange base.toNat 3 <;> rfl
    | error f => rfl
  | ldMemVx x =>
    refine finish_withSchedule es ?_ h
    rw [show (s.withSchedule es).readI = s.readI from rfl, show (s.withSchedule es).readRegs x = s.readRegs x from rfl]
    cases s.readI with
    | ok base =>
      cases s.readRegs x with
      | ok bs => simp only [ok_bind]; cases checkRange base.toNat (blockLen x) <;> rfl
      | error f => rfl
    | error f => rfl
  | ldVxMem x =>
    refine finish_withSchedule es ?_ h
    rw [show (s.withSchedule es).readI = s.readI from rfl]
    cases s.readI with
    | ok base =>
      simp only [ok_bind, State.readBytes_withSchedule]
      cases checkRange base.toNat (blockLen x) with
      | ok u =>
        cases s.readBytes base.toNat (blockLen x) with
        | ok bs => simp only [ok_bind, State.setRegs_withSchedule]; rfl
        | error f => rfl
      | error f => rfl
    | error f => rfl
  | drw x y n =>
    refine oneV (fun ox => ?_) h
    rw [show (s.withSchedule es).readI = s.readI from rfl, rv]
    cases s.readV y with
    | error f => rfl
    | ok oy =>
      cases s.readI with
      | error f => rfl
      | ok base =>
        simp only [ok_bind, State.readBytes_withSchedule]
        cases checkRange base.toNat n.toNat with
        | error f => rfl
        | ok u =>
          cases s.readBytes base.toNat n.toNat with
          | error f => rfl
          | ok rows =>
            exact congrArg Except.ok (State.setFlag_withSchedule (s.setDisp _) es _)

/-- What one scheduled step does is the same whatever the schedule holds after it. -/
theorem agentStep_withSchedule {e : AgentStep} {s t : State} (es : List AgentStep) (h : agentStep e s = .next t) :
    agentStep e (s.withSchedule es) = .next (t.withSchedule es) := by
  cases e with
  | exec r =>
    have hc : ∀ {u v : State}, u.cpuExec = .next v → (u.withSchedule es).cpuExec = .next (v.withSchedule es) := by
      intro u v h
      simp only [State.cpuExec] at h ⊢
      rw [show (u.withSchedule es).run = u.run from rfl]
      split at h
      · rw [if_pos (by assumption)]
        simp only [State.cycle] at h ⊢
        rw [show (u.withSchedule es).fetch = u.fetch from rfl]
        cases hf : u.fetch with
        | error f => simp only [hf] at h; cases h; rfl
        | ok op =>
          simp only [hf] at h ⊢
          cases hd : decode op with
          | ok i => simp only [hd] at h ⊢; exact exec_withSchedule es h
          | error e => simp only [hd] at h ⊢; cases h; rfl
      · rw [if_neg (by assumption)]; cases h; rfl
    exact hc h
  | exit => cases h; cases hr : s.run <;> simp [agentStep, State.exit, State.withSchedule, State.setRun, hr]
  | tick => cases h; rfl
  | keyWrite k => cases h; rfl
  | keyDown k => cases h; rfl
  | keyUp k => cases h; rfl
  | loadProgram bytes =>
    cases h
    cases hr : s.run <;> simp only [agentStep, State.loadProgram, State.withSchedule, hr] <;> (try split) <;>
      simp [State.setReply, State.setRun, State.writeBytes, hr]
  | start => cases h; cases hr : s.run <;> simp [agentStep, State.start, State.withSchedule, State.setRun, hr]
  | stop => cases h; cases hr : s.run <;> simp [agentStep, State.stop, State.withSchedule, State.setRun, hr]
  | readDisplay => cases h; rfl
  | readStatus => cases h; rfl

/-- The schedule after its first entry is no part of what a step does: it is what is left afterwards. -/
theorem step_cons {s t : State} {e : AgentStep} (es : List AgentStep) (h : step { s with schedule := [e] } = .next t) :
    step { s with schedule := e :: es } = .next { t with schedule := es } := by
  have h : agentStep e { s with schedule := [] } = .next t := h
  exact agentStep_withSchedule (s := { s with schedule := [] }) es h

/-- Step n of an interleaving is its move's agent step. -/
theorem Interleaving.agentStep_eq {moves : Nat → AgentStep} {run : Nat → State} (h : Interleaving moves run) (n : Nat) :
    agentStep (moves n) ((run n).withSchedule []) = .next (run (n + 1)) := h.steps n

/-- Any finite part of an interleaving is a run of the machine, under the schedule of its moves (R251). -/
theorem Interleaving.run_eq {moves : Nat → AgentStep} {run : Nat → State} (h : Interleaving moves run)
    (es : List AgentStep) (k n : Nat) :
    core.run n { run k with schedule := (List.range' k n).map moves ++ es } = .next { run (k + n) with schedule := es } := by
  induction n generalizing k with
  | zero => rfl
  | succ n ih =>
    have hs := step_cons ((List.range' (k + 1) n).map moves ++ es) (h.steps k)
    simp only [Host.Core.run, List.range'_succ, List.map_cons, List.cons_append, core]
    rw [hs]
    have := ih (k + 1)
    rwa [show k + 1 + n = k + (n + 1) by omega] at this
end Sys2Proof.Machine
end

