-- ==== Sys2Proof/Tests/Slice0.lean ====
section
/-! SUPPORT. Small tests, with the words and results of spec/95_test_vectors.md and the patterns of 30_encoding.md R98, and a witness for the hypotheses of each obligation. -/

namespace Sys2Proof.Tests

open Sys2Proof.Machine

/-! ## Ill-formed terms are refused (R99), well-formed ones accepted -/

theorem test_sys_0E0_is_ill_formed : (Instr.sys 0x0E0).wellFormed = false := by decide

theorem test_sys_0EE_is_ill_formed : (Instr.sys 0x0EE).wellFormed = false := by decide

theorem test_sys_0EF_is_well_formed : (Instr.sys 0x0EF).wellFormed = true := by decide

theorem test_drw_is_well_formed : (Instr.drw 15 15 15).wellFormed = true := by decide

/-! ## Decoding, every constructor, from words written out from R98 -/

theorem test_decode_cls : decode 0x00E0 = .ok .cls := by decide
theorem test_decode_ret : decode 0x00EE = .ok .ret := by decide
theorem test_decode_sys : decode 0x0123 = .ok (.sys 0x123) := by decide
theorem test_decode_jp : decode 0x1234 = .ok (.jp 0x234) := by decide
theorem test_decode_call : decode 0x2FED = .ok (.call 0xFED) := by decide
theorem test_decode_seVxKk : decode 0x3A5C = .ok (.seVxKk 0xA 0x5C) := by decide
theorem test_decode_sneVxKk : decode 0x4B81 = .ok (.sneVxKk 0xB 0x81) := by decide
theorem test_decode_seVxVy : decode 0x5120 = .ok (.seVxVy 1 2) := by decide
theorem test_decode_ldVxKk : decode 0x6A2B = .ok (.ldVxKk 0xA 0x2B) := by decide
theorem test_decode_addVxKk : decode 0x7F20 = .ok (.addVxKk 0xF 0x20) := by decide
theorem test_decode_ldVxVy : decode 0x8CD0 = .ok (.ldVxVy 0xC 0xD) := by decide
theorem test_decode_orVxVy : decode 0x8F21 = .ok (.orVxVy 0xF 2) := by decide
theorem test_decode_andVxVy : decode 0x8122 = .ok (.andVxVy 1 2) := by decide
theorem test_decode_xorVxVy : decode 0x8123 = .ok (.xorVxVy 1 2) := by decide
theorem test_decode_addVxVy : decode 0x81F4 = .ok (.addVxVy 1 0xF) := by decide
theorem test_decode_subVxVy : decode 0x8125 = .ok (.subVxVy 1 2) := by decide
theorem test_decode_shrVxVy : decode 0x8126 = .ok (.shrVxVy 1 2) := by decide
theorem test_decode_subnVxVy : decode 0x8127 = .ok (.subnVxVy 1 2) := by decide
theorem test_decode_shlVxVy : decode 0x812E = .ok (.shlVxVy 1 2) := by decide
theorem test_decode_sneVxVy : decode 0x9120 = .ok (.sneVxVy 1 2) := by decide
theorem test_decode_ldI : decode 0xA5C3 = .ok (.ldI 0x5C3) := by decide
theorem test_decode_jpV0 : decode 0xBFFF = .ok (.jpV0 0xFFF) := by decide
theorem test_decode_rnd : decode 0xC3F0 = .ok (.rnd 3 0xF0) := by decide
theorem test_decode_drw : decode 0xD5A7 = .ok (.drw 5 0xA 7) := by decide
theorem test_decode_skp : decode 0xE19E = .ok (.skp 1) := by decide
theorem test_decode_sknp : decode 0xECA1 = .ok (.sknp 0xC) := by decide
theorem test_decode_ldVxDt : decode 0xF507 = .ok (.ldVxDt 5) := by decide
theorem test_decode_ldVxK : decode 0xF20A = .ok (.ldVxK 2) := by decide
theorem test_decode_ldDtVx : decode 0xF415 = .ok (.ldDtVx 4) := by decide
theorem test_decode_ldStVx : decode 0xF418 = .ok (.ldStVx 4) := by decide
theorem test_decode_addIVx : decode 0xF51E = .ok (.addIVx 5) := by decide
theorem test_decode_ldFVx : decode 0xF229 = .ok (.ldFVx 2) := by decide
theorem test_decode_ldBVx : decode 0xF733 = .ok (.ldBVx 7) := by decide
theorem test_decode_ldMemVx : decode 0xF255 = .ok (.ldMemVx 2) := by decide
theorem test_decode_ldVxMem : decode 0xF465 = .ok (.ldVxMem 4) := by decide

/-- Section 2.1: the neighbours of group 0's two whole-word patterns are SYS. -/
theorem test_decode_group_0_neighbours :
    decode 0x0000 = .ok (.sys 0) ∧ decode 0x00E1 = .ok (.sys 0x0E1) ∧ decode 0x00EF = .ok (.sys 0x0EF) := by decide

/-- Section 2.1: unrecognised words. -/
theorem test_decode_rejects :
    decode 0x5121 = .error (.unrecognised 0x5121) ∧ decode 0x912F = .error (.unrecognised 0x912F) ∧
    decode 0x8008 = .error (.unrecognised 0x8008) ∧ decode 0x800F = .error (.unrecognised 0x800F) ∧
    decode 0xE09F = .error (.unrecognised 0xE09F) ∧ decode 0xF000 = .error (.unrecognised 0xF000) ∧
    decode 0xF030 = .error (.unrecognised 0xF030) ∧ decode 0xF0FF = .error (.unrecognised 0xF0FF) := by decide

/-- R90: an instruction is two bytes, the high one first (R95). -/
theorem test_decode_bytes :
    decodeBytes [0x12, 0x34, 0xFF] = .ok (.jp 0x234) ∧ decodeBytes [0x12] = .error .truncated ∧
    decodeBytes [] = .error .truncated := by decide

theorem test_decode_table_word : decodeTableWord 16 0xD011 = some (.drw 0 1 1) := by decide

/-! ## One step on a small state -/

/-- A running block as constructed under the defaults, a CPU step with the random byte 0xB7 scheduled. -/
def fresh : State := { State.construct specDefaults 0 with run := .running, schedule := [.exec 0xB7] }

/-- The same with a configuration of its own. -/
def under (c : Config) : State := { State.construct c 0 with run := .running, schedule := [.exec 0xB7] }

/-- The next state of an outcome. -/
def after : Host.Outcome State Fault Refusal → State
  | .next t => t
  | .fault _ => State.reset
  | .refused _ => State.reset

/-- The state with a word at PC. -/
def at' (s : State) (op : Word) : State := s.writeBytes s.pc.toNat (bytesOfWord op)

/-- The state after one step at a word placed at PC. -/
def runWord (s : State) (op : Word) : State := after (step (at' s op))

/-- The state with a depth and PC of its own. -/
def deep (sp : Fin 17) (pc : Word) : State := { fresh with sp := sp, pc := pc }

theorem test_sys_is_a_no_op : (runWord fresh 0x0123).pc = 0x202 ∧ (runWord fresh 0x0123).v = fresh.v := by decide

theorem test_jp_odd_target : (runWord fresh 0x1201).pc = 0x201 := by decide

theorem test_call_pushes_the_advanced_pc :
    let t := runWord (deep 15 0x200) 0x2300
    t.stack[15] = 0x202 ∧ t.sp = 16 ∧ t.pc = 0x300 := by decide

theorem test_call_overflows :
    let t := runWord (deep 16 0x200) 0x2300
    t.run = .crashed ⟨.stackOverflow, 2, 0x200, some 0x2300, .number 16⟩ ∧ t.sp = 16 ∧ t.pc = 0x200 := by decide

theorem test_ret_pops :
    let t := runWord { deep 16 0x200 with stack := fresh.stack.set 15 0x480 } 0x00EE
    t.sp = 15 ∧ t.pc = 0x480 := by decide

theorem test_ret_underflows :
    (runWord fresh 0x00EE).run = .crashed ⟨.stackUnderflow, 3, 0x200, some 0x00EE, .number 0⟩ := by decide

theorem test_jpV0_is_not_masked : (runWord (fresh.setReg 0 0xFF) 0xBFFF).pc = 0x10FE := by decide

theorem test_jpV0_unwritten :
    (runWord fresh 0xB300).run = .crashed ⟨.unwritten, 5, 0x200, some 0xB300, .cell (.v 0)⟩ := by decide

theorem test_se_byte :
    (runWord (fresh.setReg 3 0x10) 0x3310).pc = 0x204 ∧ (runWord (fresh.setReg 3 0x11) 0x3310).pc = 0x202 := by decide

theorem test_sne_byte :
    (runWord (fresh.setReg 3 0x11) 0x4310).pc = 0x204 ∧ (runWord (fresh.setReg 3 0x10) 0x4310).pc = 0x202 := by decide

theorem test_se_registers :
    (runWord ((fresh.setReg 1 7).setReg 2 7) 0x5120).pc = 0x204 ∧
    (runWord ((fresh.setReg 1 7).setReg 2 8) 0x5120).pc = 0x202 := by decide

theorem test_sne_registers :
    (runWord ((fresh.setReg 1 7).setReg 2 8) 0x9120).pc = 0x204 ∧
    (runWord ((fresh.setReg 1 7).setReg 2 7) 0x9120).pc = 0x202 := by decide

theorem test_unrecognised_reads_no_register : (runWord fresh 0x5121).pc = 0x202 ∧ (runWord fresh 0x5121).run = .running := by decide

theorem test_ldVxKk : (runWord fresh 0x6A2B).reg 0xA = .held 0x2B := by decide

theorem test_addVxKk_carries :
    let t := runWord ((fresh.setReg 1 0x80).setReg 15 0) 0x7180
    t.reg 1 = .held 0x00 ∧ t.reg 15 = .held 1 := by decide

/-- Sum 0x15 into VF: `Keep` leaves the sum, `Clear` and `FlagLast` leaves the flag. -/
theorem test_addVxKk_into_vf :
    (runWord (fresh.setReg 15 0x10) 0x7F05).reg 15 = .held 0x15 ∧
    (runWord ((under { specDefaults with addiVf := .clear }).setReg 15 0x10) 0x7F05).reg 15 = .held 0x00 := by decide

theorem test_ldVxVy : (runWord (fresh.setReg 2 0x33) 0x8120).reg 1 = .held 0x33 := by decide

theorem test_or :
    let t := runWord (((fresh.setReg 1 0x0C).setReg 2 0x0A).setReg 15 1) 0x8121
    t.reg 1 = .held 0x0E ∧ t.reg 15 = .held 0 := by decide

/-- OR into VF under both orders. -/
theorem test_or_into_vf :
    (runWord ((fresh.setReg 15 0x0C).setReg 2 0x0A) 0x8F21).reg 15 = .held 0x00 ∧
    (runWord (((under { specDefaults with vfOrder := .flagFirst }).setReg 15 0x0C).setReg 2 0x0A) 0x8F21).reg 15 = .held 0x0E := by
  decide

theorem test_and :
    let t := runWord ((fresh.setReg 1 0x0C).setReg 2 0x0A) 0x8122
    t.reg 1 = .held 0x08 ∧ t.reg 15 = .held 0 := by decide

theorem test_xor :
    let t := runWord ((fresh.setReg 1 0x0C).setReg 2 0x0A) 0x8123
    t.reg 1 = .held 0x06 ∧ t.reg 15 = .held 0 := by decide

theorem test_add_carries :
    let t := runWord ((fresh.setReg 1 0xF0).setReg 2 0x20) 0x8124
    t.reg 1 = .held 0x10 ∧ t.reg 15 = .held 1 := by decide

theorem test_add_reads_vf_before_writing_it :
    let t := runWord ((fresh.setReg 1 0x10).setReg 15 0xF5) 0x81F4
    t.reg 1 = .held 0x05 ∧ t.reg 15 = .held 1 := by decide

theorem test_sub_borrows :
    let t := runWord ((fresh.setReg 1 0x05).setReg 2 0x07) 0x8125
    t.reg 1 = .held 0xFE ∧ t.reg 15 = .held 0 := by decide

theorem test_sub_equal :
    let t := runWord (fresh.setReg 1 0x07) 0x8115
    t.reg 1 = .held 0x00 ∧ t.reg 15 = .held 1 := by decide

/-- Vx unwritten is no fault: SHR does not read it. -/
theorem test_shr :
    let t := runWord (fresh.setReg 2 0x03) 0x8126
    t.reg 1 = .held 0x01 ∧ t.reg 15 = .held 1 ∧ t.reg 2 = .held 0x03 := by decide

theorem test_subn :
    let t := runWord ((fresh.setReg 1 0x07).setReg 2 0x05) 0x8127
    t.reg 1 = .held 0xFE ∧ t.reg 15 = .held 0 := by decide

theorem test_shl :
    let t := runWord (fresh.setReg 2 0x81) 0x812E
    t.reg 1 = .held 0x02 ∧ t.reg 15 = .held 1 := by decide

theorem test_rnd : (runWord fresh 0xC30F).reg 3 = .held 0x07 := by decide

theorem test_ldI : (runWord fresh 0xAFFF).i = .held 0x0FFF := by decide

theorem test_addI_wraps : (runWord ((fresh.setI 0xFFFF).setReg 5 1) 0xF51E).i = .held 0x0000 := by decide

theorem test_addI_reads_i_first :
    (runWord fresh 0xF51E).run = .crashed ⟨.unwritten, 5, 0x200, some 0xF51E, .cell .i⟩ := by decide

theorem test_ldF :
    (runWord (fresh.setReg 2 0xFF) 0xF229).i = .held 0x4FB ∧
    (runWord ((under { specDefaults with fontHi := .lowNibble }).setReg 2 0xFF) 0xF229).i = .held 0x04B := by decide

theorem test_ldB :
    let t := runWord ((fresh.setReg 7 157).setI 0xFFC) 0xF733
    t.byteAt 0xFFC = .held 1 ∧ t.byteAt 0xFFD = .held 5 ∧ t.byteAt 0xFFE = .held 7 ∧ t.i = .held 0xFFC := by decide

theorem test_ldB_outside_memory :
    let t := runWord ((fresh.setReg 7 157).setI 0xFFD) 0xF733
    t.run = .crashed ⟨.memRange, 1, 0x200, some 0xF733, .number 0xFFF⟩ ∧ t.byteAt 0xFFD = .unwritten := by decide

theorem test_dump :
    let t := runWord ((((fresh.setReg 0 1).setReg 1 2).setReg 2 3).setI 0x300) 0xF255
    t.byteAt 0x300 = .held 1 ∧ t.byteAt 0x301 = .held 2 ∧ t.byteAt 0x302 = .held 3 ∧ t.i = .held 0x303 := by decide

/-- The registers are read before the range is checked. -/
theorem test_dump_reads_registers_first :
    (runWord ((fresh.setReg 0 1).setI 0xFFE) 0xF155).run =
      .crashed ⟨.unwritten, 5, 0x200, some 0xF155, .cell (.v 1)⟩ := by decide

/-- Glyph 0 from address 0. -/
theorem test_load :
    let t := runWord (fresh.setI 0x000) 0xF465
    t.reg 0 = .held 0xF0 ∧ t.reg 1 = .held 0x90 ∧ t.reg 4 = .held 0xF0 ∧ t.reg 5 = .unwritten ∧ t.i = .held 0x005 := by decide

theorem test_load_unwritten :
    let t := runWord ((fresh.setI 0x300).writeBytes 0x300 [5]) 0xF165
    t.run = .crashed ⟨.unwritten, 5, 0x200, some 0xF165, .cell (.mem 0x301)⟩ ∧ t.reg 0 = .unwritten := by decide

theorem test_ldVxDt_unwritten : (runWord fresh 0xF507).run = .crashed ⟨.unwritten, 5, 0x200, some 0xF507, .cell .dt⟩ := by decide

theorem test_ldVxDt : (runWord (fresh.setDt 0x3C) 0xF507).reg 5 = .held 0x3C := by decide

theorem test_ldDtVx : (runWord (fresh.setReg 4 0x3C) 0xF415).dt = .held 0x3C := by decide

theorem test_ldStVx : (runWord (fresh.setReg 4 0x05) 0xF418).st = .held 0x05 := by decide

/-- DT = 2 and ST = 0, and DT unwritten with ST = 3 (section 2.5). -/
theorem test_tick :
    ((fresh.setDt 2).setSt 0).tick.dt = .held 1 ∧ ((fresh.setDt 2).setSt 0).tick.st = .held 0 ∧
    (fresh.setSt 3).tick.dt = .unwritten ∧ (fresh.setSt 3).tick.st = .held 2 := by decide

theorem test_cls :
    let t := runWord ({ fresh with disp := Display.clear.toggle 63 31 }.setReg 15 0x33) 0x00E0
    t.disp.pixel 63 31 = false ∧ t.reg 15 = .held 0x33 := by decide

/-- A sprite at (70, 10): its origin is outside, so it wraps. -/
theorem test_drw_wraps :
    let t := runWord ((((fresh.setReg 0 70).setReg 1 10).setI 0x300).writeBytes 0x300 [0xC0]) 0xD011
    t.disp.pixel 6 10 = true ∧ t.disp.pixel 7 10 = true ∧ t.disp.pixel 8 10 = false ∧ t.reg 15 = .held 0 := by decide

/-- A sprite at (60, 10) over a pixel already on: clipped at the edge, and a collision. -/
theorem test_drw_clips_and_collides :
    let s := { fresh with disp := Display.clear.toggle 60 10 }
    let t := runWord ((((s.setReg 0 60).setReg 1 10).setI 0x300).writeBytes 0x300 [0xFF]) 0xD011
    t.disp.pixel 60 10 = false ∧ t.disp.pixel 63 10 = true ∧ t.disp.pixel 0 10 = false ∧ t.reg 15 = .held 1 := by decide

theorem test_skp :
    (runWord { fresh.setReg 1 5 with keys := 0x0020 } 0xE19E).pc = 0x204 ∧
    (runWord { fresh.setReg 1 5 with keys := 0x0050 } 0xE19E).pc = 0x202 := by decide

theorem test_skp_key_range :
    (runWord (fresh.setReg 1 0x10) 0xE19E).run = .crashed ⟨.keyRange, 4, 0x200, some 0xE19E, .number 0x10⟩ := by decide

theorem test_sknp :
    (runWord (fresh.setReg 1 5) 0xE1A1).pc = 0x204 ∧
    (runWord { fresh.setReg 1 5 with keys := 0x0020 } 0xE1A1).pc = 0x202 := by decide

theorem test_key_wait_rewinds :
    let t := runWord (fresh.setReg 2 0x77) 0xF20A
    t.pc = 0x200 ∧ t.reg 2 = .held 0x77 := by decide

theorem test_key_wait_captures :
    let t := runWord { fresh with keys := 0x0208 } 0xF20A
    t.pc = 0x202 ∧ t.reg 2 = .held 3 := by decide

/-- PC = 0xFFD is the last address a word is fetched from; 0xFFE is not (R60, R95). -/
theorem test_fetch_at_the_top :
    (runWord { fresh with pc := 0xFFD } 0x6005).reg 0 = .held 5 ∧ (runWord { fresh with pc := 0xFFD } 0x6005).pc = 0xFFF ∧
    (after (step { fresh with pc := 0xFFE })).run = .crashed ⟨.memRange, 1, 0xFFE, none, .number 0xFFF⟩ := by decide

theorem test_fetch_unwritten :
    (after (step { fresh with pc := 0x300 })).run = .crashed ⟨.unwritten, 5, 0x300, none, .cell (.mem 0x300)⟩ := by decide

/-- From reset, the placed word is the next one to run. -/
theorem test_withFetchWord :
    (after (step (State.reset.withFetchWord 16 0x6A2B))).reg 0xA = .held 0x2B ∧
    (after (step (State.reset.withFetchWord 16 0xF165))).pc = 0x202 ∧
    (after (step (State.withFetchWord { State.reset with pc := 0xFFF } 16 0x1234))).pc = 0x234 := by decide

/-- Section 2.8: load, start, stop, exit, and a load refused. -/
theorem test_lifecycle :
    let s := State.construct specDefaults 0
    (s.loadProgram [0x12, 0x00]).run = .loaded ∧ (s.loadProgram [0x12, 0x00]).byteAt 0x200 = .held 0x12 ∧
    s.start.run = .idle ∧ (s.loadProgram [0x12, 0x00]).start.run = .running ∧ fresh.stop.run = .stopRequested ∧
    fresh.stop.exit.run = .stopped ∧ (fresh.loadProgram [0]).reply = some .refused := by decide

/-! ## Witnesses: for each obligation with hypotheses, a state and operands that meet them, clause by clause -/

/-- Every register holds 0 and I holds an address. -/
def filled (a : Word) : State := { under { specDefaults with resetPolicy := .zero } with i := .held a }

/-- A state whose next step is given. -/
def plan (e : AgentStep) (r : RunState) : State := { fresh with schedule := [e], run := r }

/-- A crashed block. -/
def fallen : RunState := .crashed ⟨.stackUnderflow, 3, 0x200, some 0x00EE, .number 0⟩

theorem witness_DecodeReadsBackEncode : (Instr.sys 0x0EF).wellFormed = true ∧ (Instr.drw 15 15 15).wellFormed = true := by decide

theorem witness_DecodedWordReencodes : decode 0x00EF = .ok (.sys 0x0EF) ∧ decode 0xFF65 = .ok (.ldVxMem 15) := by decide

theorem witness_StepRunsDecodedInstruction :
    let s := { at' { fresh with pc := 0xFFD } 0x6005 with run := .stopRequested }
    s.pc.toNat + 1 < 4095 ∧ s.byteAt s.pc.toNat = .held 0x60 ∧ s.byteAt (s.pc.toNat + 1) = .held 0x05 ∧
    decode (0x60#8 ++ 0x05#8) = .ok (.ldVxKk 0 5) ∧ s.schedule = .exec 0xB7 :: [] ∧ s.run = .stopRequested := by decide

theorem witness_StepRunsDecodedInstruction_unscheduled :
    let s := { at' fresh 0x6005 with schedule := [] }
    s.pc.toNat + 1 < 4095 ∧ s.byteAt s.pc.toNat = .held 0x60 ∧ s.byteAt (s.pc.toNat + 1) = .held 0x05 ∧
    s.schedule = [] ∧ s.run = .running ∧ { s with run := .stopRequested }.run = .stopRequested := by decide

/-- A scheduled CPU step, in `StopRequested`, at the last address a word is fetched from. -/
theorem witness_UnrecognisedOpcodeOnlyAdvancesPc :
    let s := { at' { fresh with pc := 0xFFD } 0x5121 with run := .stopRequested }
    cpuMoves s { s with schedule := [], randomPort := 0xB7 } ∧ s.pc.toNat + 1 < 4095 ∧ s.byteAt s.pc.toNat = .held 0x51 ∧
    s.byteAt (s.pc.toNat + 1) = .held 0x21 ∧ decode (0x51#8 ++ 0x21#8) = .error (.unrecognised 0x5121) :=
  ⟨.inl ⟨0xB7, [], rfl, .inr rfl, rfl⟩, by decide, by decide, by decide, by decide⟩

/-- A running block with nothing scheduled, about to move. -/
theorem witness_cpuMoves_unscheduled :
    let s := { at' fresh 0x5121 with schedule := [] }
    cpuMoves s { s with oracle := 1, randomPort := Config.randomByte 0 } ∧ s.byteAt s.pc.toNat = .held 0x51 ∧
    s.byteAt (s.pc.toNat + 1) = .held 0x21 :=
  ⟨.inr ⟨rfl, .inl rfl, rfl⟩, by decide, by decide⟩

theorem witness_FetchFaultsInOrder :
    cpuMoves fresh { fresh with schedule := [], randomPort := 0xB7 } ∧
    cpuMoves { fresh with pc := 0xFFF, schedule := [] } { fresh with pc := 0xFFF, schedule := [], oracle := 1, randomPort := Config.randomByte 0 } ∧
    4095 ≤ { fresh with pc := 0xFFF }.pc.toNat ∧
    { fresh with pc := 0xFFE }.pc.toNat = 4094 ∧ { fresh with pc := 0xFFD }.pc.toNat < 4094 ∧
    { fresh with pc := 0xFFD }.byteAt 0xFFD = .unwritten ∧
    (fresh.writeBytes 0xFFD [0x12]).byteAt 0xFFD = .held 0x12 ∧ (fresh.writeBytes 0xFFD [0x12]).byteAt 0xFFE = .unwritten :=
  ⟨.inl ⟨0xB7, [], rfl, .inl rfl, rfl⟩, .inr ⟨rfl, .inl rfl, rfl⟩, by decide, by decide, by decide, by decide, by decide, by decide⟩

theorem witness_NoInstructionUnlessRunning :
    State.reset.run ≠ .running ∧ State.reset.run ≠ .stopRequested ∧ State.reset.schedule = [] ∧
    (plan (.exec 1) .stopped).run ≠ .running ∧ (plan (.exec 1) .stopped).run ≠ .stopRequested ∧
    (plan (.exec 1) .stopped).schedule = .exec 1 :: [] := by decide

theorem witness_JpV0GoesToTheFullSum : (fresh.setReg 0 0xFF).reg 0 = .held 0xFF := by decide

theorem witness_CallPushesAndJumps : (deep 15 0x202).sp.val < 16 ∧ (deep 16 0x202).sp.val = 16 := by decide

theorem witness_RetPopsIntoPc : 0 < (deep 16 0x202).sp.val ∧ 0 < (deep 1 0x202).sp.val ∧ (deep 0 0x202).sp.val = 0 := by decide

theorem witness_ByteSkips : (fresh.setReg 15 0x10).reg 15 = .held 0x10 := by decide

theorem witness_RegisterSkips : ((fresh.setReg 1 7).setReg 2 8).reg 1 = .held 7 ∧ ((fresh.setReg 1 7).setReg 2 8).reg 2 = .held 8 := by
  decide

theorem witness_OnlyCallAndRetTouchTheStack :
    exec (.jp 0x300) fresh = .next (after (exec (.jp 0x300) fresh)) ∧ Instr.jp 0x300 ≠ .ret ∧ ∀ nnn, Instr.jp 0x300 ≠ .call nnn :=
  ⟨rfl, by decide, fun _ h => nomatch h⟩

/-- A call at depth 14 with a nested call and its return between it and its own return. -/
theorem witness_ReturnRestoresTheCallersPc :
    let s := deep 14 0x202
    let t := after (exec (.call 0x300) s)
    let a := after (exec (.call 0x400) t)
    let b := after (exec .ret a)
    s.sp.val < 16 ∧ exec (.call 0x300) s = .next t ∧ WellNested t b :=
  ⟨by decide, rfl, .call _ _ _ _ _ 0x400 (by decide) rfl (.nil _) rfl (.nil _)⟩

/-- A call at depth 15, and its return at once. -/
theorem witness_ReturnRestoresTheCallersPc_at_depth_15 :
    (deep 15 0x202).sp.val < 16 ∧ exec (.call 0x300) (deep 15 0x202) = .next (after (exec (.call 0x300) (deep 15 0x202))) ∧
    WellNested (after (exec (.call 0x300) (deep 15 0x202))) (after (exec (.call 0x300) (deep 15 0x202))) :=
  ⟨by decide, rfl, .nil _⟩

theorem witness_SelfJumpParks :
    let s := at' { fresh with pc := 0xFFD } 0x1FFD
    cpuMoves s { s with schedule := [], randomPort := 0xB7 } ∧ s.run = .running ∧ s.byteAt s.pc.toNat = .held 0x1F ∧
    s.byteAt (s.pc.toNat + 1) = .held 0xFD ∧ s.pc.toNat + 1 < 4095 ∧ decode (0x1F#8 ++ 0xFD#8) = .ok (.jp 0xFFD) ∧
    s.pc.toNat = (0xFFD : Addr).toNat :=
  ⟨.inl ⟨0xB7, [], rfl, .inl rfl, rfl⟩, rfl, by decide, by decide, by decide, by decide, by decide⟩

theorem witness_RegisterLoadsWriteVx : (fresh.setReg 15 0x33).reg 15 = .held 0x33 := by decide

/-- Sums 256 and 255, under both settings of `ADDI_VF`. -/
theorem witness_AddByteSetsCarry :
    (fresh.setReg 15 0xFF).reg 15 = .held 0xFF ∧ (0xFF : Byte).toNat + (1 : Byte).toNat > 255 ∧
    (0xFF : Byte).toNat + (0 : Byte).toNat ≤ 255 ∧ (fresh.setReg 15 0xFF).config.addiVf = .keep ∧
    ((under { specDefaults with addiVf := .clear }).setReg 15 0xFF).reg 15 = .held 0xFF ∧
    ((under { specDefaults with addiVf := .clear }).setReg 15 0xFF).config.addiVf = .clear := by decide

theorem witness_BitwiseOpsClearVf : (filled 0).reg 15 = .held 0 ∧ (filled 0).reg 2 = .held 0 := by decide

theorem witness_AddSetsCarry : ((filled 0).setReg 15 0xFF).reg 15 = .held 0xFF ∧ ((filled 0).setReg 15 0xFF).reg 1 = .held 0 := by
  decide

theorem witness_SubtractionsSetNoBorrow : ((filled 0).setReg 2 7).reg 1 = .held 0 ∧ ((filled 0).setReg 2 7).reg 2 = .held 7 := by
  decide

theorem witness_ShiftsCopyVyFirst : (fresh.setReg 2 0x81).reg 2 = .held 0x81 ∧ (fresh.setReg 2 0x81).reg 1 = .unwritten := by decide

/-- An ALU instruction that completes, and one that reads an unwritten register. -/
theorem witness_AluWritesOnlyVxAndVf :
    aluDest (.addVxVy 1 2) = some 1 ∧
    exec (.addVxVy 1 2) (filled 0) = .next (after (exec (.addVxVy 1 2) (filled 0))) ∧
    exec (.addVxVy 1 2) fresh = .next (after (exec (.addVxVy 1 2) fresh)) ∧ fresh.reg 1 = .unwritten :=
  ⟨rfl, rfl, rfl, rfl⟩

theorem witness_VfOrderMattersOnlyForVf :
    aluDest (.orVxVy 1 2) = some 1 ∧ (1 : Nibble) ≠ 15 ∧
    exec (.orVxVy 1 2) (filled 0) = .next (after (exec (.orVxVy 1 2) (filled 0))) :=
  ⟨rfl, by decide, rfl⟩

theorem witness_IndexLoadAndAdd : (filled 0xFFFF).i = .held 0xFFFF ∧ ((filled 0xFFFF).setReg 5 1).reg 5 = .held 1 := by decide

theorem witness_GlyphAddressIsFiveTimesTheDigit :
    (fresh.setReg 2 0x10).reg 2 = .held 0x10 ∧ fresh.config.fontHi = .unmasked ∧
    (under { specDefaults with fontHi := .lowNibble }).config.fontHi = .lowNibble := by decide

theorem witness_BcdStoresThreeDigits :
    (filled 0xFFC).reg 7 = .held 0 ∧ (filled 0xFFC).i = .held 0xFFC ∧ (0xFFC : Word).toNat + 2 < 4095 := by decide

theorem witness_DumpStoresTheRegisterBlock :
    (∀ r : Nibble, r.toNat ≤ (15 : Nibble).toNat → (filled 0xFEF).reg r = .held ((fun _ => 0) r)) ∧
    (filled 0xFEF).i = .held 0xFEF ∧ (0xFEF : Word).toNat + (15 : Nibble).toNat < 4095 := by decide

theorem witness_LoadFillsTheRegisterBlock :
    (∀ r : Nibble, r.toNat ≤ (15 : Nibble).toNat → (filled 0xFEF).byteAt ((0xFEF : Word).toNat + r.toNat) = .held ((fun _ => 0) r)) ∧
    (filled 0xFEF).i = .held 0xFEF ∧ (0xFEF : Word).toNat + (15 : Nibble).toNat < 4095 := by decide

/-- LD B at 4093, LD [I] and LD Vx,[I] of two at 4094, DRW of one row at 4095. -/
theorem witness_BlockOutsideMemoryCrashes :
    (filled 0xFFD).i = .held 0xFFD ∧ (filled 0xFFD).reg 7 = .held 0 ∧ 4095 < (0xFFD : Word).toNat + 3 ∧
    (filled 0xFFE).i = .held 0xFFE ∧ (∀ r : Nibble, r.toNat ≤ (1 : Nibble).toNat → (filled 0xFFE).reg r = .held ((fun _ => 0) r)) ∧
    4095 < (0xFFE : Word).toNat + (1 : Nibble).toNat + 1 ∧
    (filled 0xFFF).i = .held 0xFFF ∧ (filled 0xFFF).reg 0 = .held 0 ∧ (filled 0xFFF).reg 1 = .held ((fun _ => 0) (1 : Nibble)) ∧
    0 < (1 : Nibble).toNat ∧ 4095 < (0xFFF : Word).toNat + (1 : Nibble).toNat := by decide

theorem witness_FetchSeesTheStore :
    let s := filled 0x200
    (∀ k : Nibble, k.toNat ≤ (1 : Nibble).toNat → s.reg k = .held ((fun _ => 0) k)) ∧ s.i = .held 0x200 ∧
    (0x200 : Word).toNat + (1 : Nibble).toNat < 4095 ∧ exec (.ldMemVx 1) s = .next (after (exec (.ldMemVx 1) s)) ∧
    (1 : Nibble).toNat = (0 : Nibble).toNat + 1 ∧ (1 : Nibble).toNat ≤ (1 : Nibble).toNat ∧
    s.pc.toNat = (0x200 : Word).toNat + (0 : Nibble).toNat :=
  ⟨by decide, rfl, by decide, rfl, by decide, by decide, by decide⟩

theorem witness_TimerRegistersMove : (fresh.setDt 0x3C).dt = .held 0x3C ∧ (fresh.setReg 15 5).reg 15 = .held 5 := by decide

/-- Timers at 0, at 255 and unwritten. -/
theorem witness_TickDecrementsBothTimers :
    (plan .tick fallen).schedule = .tick :: [] ∧ (plan .tick fallen).dt = .unwritten ∧ (plan .tick fallen).st = .unwritten ∧
    ((plan .tick fallen).setDt 0).dt = .held 0 ∧ ((plan .tick fallen).setSt 255).st = .held 255 := by decide

/-- A block parked at the self-jump 0x1200, its sound timer at 0. -/
def parked (a : Byte) : State := { (at' fresh 0x1200).setDt a with st := .held 0, schedule := [], randomPort := 0 }

/-- A tick that takes DT from 1 to 0, then ticks and self-jumps in turn: a fair run. -/
theorem witness_TickDecrementsBothTimers_fair :
    FairRun (fun n => if n % 2 = 0 then .tick else .exec 0) (fun n => parked (if n = 0 then 1 else 0)) ∧
    (∀ n, 0 ≤ n → (parked (if n = 0 then 1 else 0)).run = .running ∨ (parked (if n = 0 then 1 else 0)).run = .stopRequested) ∧
    (∀ n, 0 ≤ n → (if n % 2 = 0 then AgentStep.tick else .exec 0).isExec = true →
      (parked (if n + 1 = 0 then 1 else 0)).dt = (parked (if n = 0 then 1 else 0)).dt) ∧
    (parked (if 0 = 0 then 1 else 0)).dt = .held 1 := by
  have first : step { parked 1 with schedule := [.tick] } = .next (parked 0) := rfl
  have tick : step { parked 0 with schedule := [.tick] } = .next (parked 0) := rfl
  have jump : step { parked 0 with schedule := [.exec 0] } = .next (parked 0) := rfl
  have turn : ∀ k : Nat, 2 * k % 2 = 0 ∧ (2 * k + 1) % 2 = 1 := fun k => by omega
  refine ⟨⟨⟨fun n => ?_, fun n => ?_⟩, fun _ k => ⟨2 * k + 1, by omega, ?_⟩, fun h => ?_, fun _ k => ⟨2 * k, by omega, ?_⟩⟩,
    fun n _ => .inl rfl, fun n _ h => ?_, rfl⟩
  · split <;> rfl
  · rw [if_neg (Nat.succ_ne_zero n)]
    by_cases h0 : n = 0
    · subst h0; exact first
    · rw [if_neg h0]
      split
      · exact tick
      · exact jump
  · rw [if_neg (by omega)]; rfl
  · obtain ⟨k, h⟩ := h; exact absurd (h k (le_refl k)) (by simp [parked, at', fresh, State.setDt, State.writeBytes])
  · rw [if_pos (turn k).1]; rfl
  · by_cases h0 : n = 0
    · subst h0; cases h
    · rw [if_neg h0, if_neg (Nat.succ_ne_zero n)]

theorem witness_NoInstructionReadsSt : exec (.ldStVx 4) (filled 0) = .next (after (exec (.ldStVx 4) (filled 0))) := rfl

/-- A sprite of one row is ready, and covers a pixel and leaves one: (6, 10) by the wrapped column 0, not (8, 10). -/
def sprited (d : Display) : State :=
  { (((fresh.setReg 0 70).setReg 1 10).setI 0x300).writeBytes 0x300 [0xC0] with disp := d }

theorem witness_sprited_ready (d : Display) : spriteReady (sprited d) 0 1 1 70 10 0x300 [0xC0] := by
  refine ⟨rfl, rfl, rfl, rfl, fun r row h => ?_⟩
  match r with
  | 0 => cases h; exact ⟨by decide, rfl⟩
  | r + 1 => cases h

theorem witness_DrwTogglesExactlyTheSprite :
    spriteCovers 70 10 [0xC0] 6 10 ∧ ¬spriteCovers 70 10 [0xC0] 8 10 ∧ (sprited (Display.clear.toggle 6 10)).disp.pixel 6 10 = true := by
  refine ⟨⟨0, 0, 0xC0, by decide, rfl, by decide, by decide⟩, ?_, by decide⟩
  rintro ⟨r, c, row, h1, h2, h3, h4⟩
  match r with
  | 0 => cases h2; revert c; decide
  | r + 1 => cases h2

/-- n = 0 with I outside memory is ready, and covers nothing. -/
theorem witness_DrwTogglesExactlyTheSprite_no_rows :
    spriteReady (filled 0xFFF) 15 15 0 0 0 0xFFF [] ∧ ¬spriteCovers 0 0 [] 0 0 := by
  refine ⟨⟨rfl, rfl, rfl, rfl, fun r row h => ?_⟩, ?_⟩
  · cases h
  · rintro ⟨r, c, row, h1, h2, -⟩; cases h2

/-- A draw over a display with (7, 10) on, and the same draw on what it leaves: both clauses of the collision
have a pixel, (6, 10) turned on and (7, 10) turned off by the first. -/
theorem witness_DrawingTwiceRestoresTheDisplay :
    let s := sprited (Display.clear.toggle 7 10)
    let t := after (exec (.drw 0 1 1) s)
    spriteReady s 0 1 1 70 10 0x300 [0xC0] ∧ exec (.drw 0 1 1) s = .next t ∧
    spriteReady (sprited t.disp) 0 1 1 70 10 0x300 [0xC0] ∧ (sprited t.disp).disp = t.disp :=
  ⟨witness_sprited_ready _, rfl, witness_sprited_ready _, rfl⟩

theorem witness_OnlyClsAndDrwChangeTheDisplay :
    let s := at' { fresh with disp := Display.clear.toggle 0 0 } 0x00E0
    step s = .next (after (step s)) ∧ (after (step s)).disp ≠ s.disp :=
  ⟨rfl, fun h => absurd (congrArg (fun d : Display => d.pixel 0 0) h) (by decide)⟩

theorem witness_KeySkips :
    (fresh.setReg 1 15).reg 1 = .held 15 ∧ (15 : Byte).toNat < 16 ∧ fresh.keys.getLsbD 15 = false ∧
    { fresh with keys := 0x8000 }.keys.getLsbD 15 = true := by decide

theorem witness_KeyNumberAbove15Crashes : (fresh.setReg 1 16).reg 1 = .held 16 ∧ 15 < (16 : Byte).toNat := by decide

/-- No key held, and key 15 alone. -/
theorem witness_KeyWaitRewindsOrCaptures :
    (∀ k : Nat, k < 16 → fresh.keys.getLsbD k = false) ∧ { fresh with keys := 0x8000 }.keys.getLsbD 15 = true ∧
    (∀ j : Nat, j < 15 → { fresh with keys := 0x8000 }.keys.getLsbD j = false) := by decide

theorem witness_HostWritesTheKeyLatch :
    (plan (.keyWrite 0x0208) .idle).schedule = .keyWrite 0x0208 :: [] ∧ (plan (.keyDown 15) .idle).schedule = .keyDown 15 :: [] ∧
    (plan (.keyUp 0) .idle).schedule = .keyUp 0 :: [] := by decide

theorem witness_OnlyTheHostWritesKeys :
    step (plan (.keyDown 15) fallen) = .next (after (step (plan (.keyDown 15) fallen))) ∧
    (after (step (plan (.keyDown 15) fallen))).keys ≠ (plan (.keyDown 15) fallen).keys :=
  ⟨rfl, by decide⟩

/-- A first operand, a later one, the second of a register block, and none before it unwritten. -/
theorem witness_UnwrittenOperandCrashes :
    registerReads (.ldMemVx 1) = [] ++ .i :: [.v 0, .v 1] ∧ fresh.lacks .i ∧
    registerReads (.drw 0 1 1) = [.v 0, .v 1] ++ .i :: [] ∧
    (∀ d ∈ [CellName.v 0, .v 1], ¬((fresh.setReg 0 5).setReg 1 5).lacks d) ∧ ((fresh.setReg 0 5).setReg 1 5).lacks .i ∧
    registerReads (.ldMemVx 1) = [.i, .v 0] ++ .v 1 :: [] ∧
    (∀ d ∈ [CellName.i, .v 0], ¬((fresh.setReg 0 5).setI 0x300).lacks d) ∧ ((fresh.setReg 0 5).setI 0x300).lacks (.v 1) := by
  refine ⟨rfl, rfl, rfl, fun d hd => ?_, rfl, rfl, fun d hd => ?_, rfl⟩ <;>
    simp only [List.mem_cons, List.not_mem_nil, or_false] at hd <;> rcases hd with rfl | rfl <;> exact fun h => nomatch h

/-- The last byte of a block that ends with memory. -/
theorem witness_UnwrittenOperandCrashes_memory :
    let s := (fresh.setI 0xFFD).writeBytes 0xFFD [5]
    (∀ d ∈ registerReads (.ldVxMem 1), ¬s.lacks d) ∧ s.i = .held 0xFFD ∧ (0xFFD : Word).toNat + bytesRead (.ldVxMem 1) ≤ 4095 ∧
    1 < bytesRead (.ldVxMem 1) ∧ (∀ j : Nat, j < 1 → ¬s.lacks (.mem ((0xFFD : Word).toNat + j))) ∧
    s.lacks (.mem ((0xFFD : Word).toNat + 1)) := by
  refine ⟨fun d hd => ?_, rfl, by decide, by decide, fun j hj => ?_, rfl⟩
  · simp only [registerReads, List.mem_cons, List.not_mem_nil, or_false] at hd; subst hd; exact fun h => nomatch h
  · obtain rfl : j = 0 := by omega
    exact fun h => nomatch (show Cell.held 5 = Cell.unwritten from h)

/-- A fault of an instruction, and one of the fetch. -/
theorem witness_FaultsArePrecise :
    (at' fresh 0x00EE).safe = true ∧ step (at' fresh 0x00EE) = .next (runWord fresh 0x00EE) ∧
    (runWord fresh 0x00EE).run = .crashed ⟨.stackUnderflow, 3, 0x200, some 0x00EE, .number 0⟩ ∧
    fresh.safe = true ∧ step fresh = .next (after (step fresh)) ∧
    (after (step fresh)).run = .crashed ⟨.unwritten, 5, 0x200, none, .cell (.mem 0x200)⟩ :=
  ⟨rfl, rfl, by decide, rfl, rfl, by decide⟩

theorem witness_CrashedIsTerminal :
    (plan .start fallen).run = .crashed ⟨.stackUnderflow, 3, 0x200, some 0x00EE, .number 0⟩ ∧
    step (plan .start fallen) = .next (after (step (plan .start fallen))) :=
  ⟨rfl, rfl⟩

theorem witness_StepKeepsCrashRecordsFitting :
    (plan .tick fallen).crashFits = true ∧ step (plan .tick fallen) = .next (after (step (plan .tick fallen))) ∧
    fresh.crashFits = true ∧ step fresh = .next (after (step fresh)) :=
  ⟨by decide, rfl, rfl, rfl⟩

/-- The addresses where the clauses meet, under both settings of `RESET_POLICY`. -/
theorem witness_ConstructionLeaves :
    (State.construct specDefaults 0).byteAt 79 = .held 0x80 ∧ (State.construct specDefaults 0).byteAt 80 = .unwritten ∧
    (State.construct resetConfig 0).byteAt 4094 = .held 0 ∧ (79 : Nat) < 80 ∧ (4094 : Nat) < 4095 := by decide

/-- Programs of 3583 and 3584 bytes in `Idle`, and one in `Running`. -/
theorem witness_LoadProgramWritesOrRefuses :
    (plan (.loadProgram (List.replicate 3583 0)) .idle).schedule = .loadProgram (List.replicate 3583 0) :: [] ∧
    (plan (.loadProgram (List.replicate 3583 0)) .idle).run = .idle ∧ (List.replicate 3583 (0 : Byte)).length ≤ 3583 ∧
    3583 < (List.replicate 3584 (0 : Byte)).length ∧ (plan (.loadProgram []) .running).run ≠ .idle :=
  ⟨rfl, rfl, by rw [List.length_replicate], by rw [List.length_replicate]; decide, by decide⟩

theorem witness_LifecycleMovesTheRunState :
    (plan .start .loaded).schedule = .start :: [] ∧ (plan .stop .running).schedule = .stop :: [] ∧
    (plan .exit .stopRequested).schedule = .exit :: [] := by decide

/-- A stopped block after `StopRequested`: the CPU exits at once, then the timer ticks for ever. -/
def stopping (n : Nat) : State := { parked 0 with run := if n = 0 then .stopRequested else .stopped }

theorem witness_LifecycleMovesTheRunState_fair :
    FairRun (fun n => if n = 0 then .exit else .tick) stopping ∧ (stopping 0).run = .stopRequested := by
  have later : ∀ n, stopping (n + 1) = stopping 1 := fun n => by simp [stopping]
  refine ⟨⟨⟨fun n => ?_, fun n => ?_⟩, fun h => ?_, fun h => ?_, fun h => ?_⟩, rfl⟩
  · cases n <;> rfl
  · cases n with
    | zero => rfl
    | succ n => rw [later n, later (n + 1)]; rfl
  all_goals
    obtain ⟨k, h⟩ := h
    have := h (k + 1) (by omega)
    rw [later k] at this
    exact absurd this (by decide)

/-- With nothing scheduled and PC outside memory: whatever the free choice, the block is out of `StopRequested`
after one step, and stays so. -/
theorem witness_LifecycleMovesTheRunState_unscheduled :
    ∃ run : Nat → State, (∀ n, step (run n) = .next (run (n + 1))) ∧ (run 0).schedule = [] ∧ (run 0).run = .stopRequested := by
  let s : State := { fresh with schedule := [], run := .stopRequested, pc := 0xFFF }
  have h : ∃ t, step s = .next t ∧ step t = .next t := by
    cases hx : exitsNow 0
    · refine ⟨_, cpuMoves_step (.inr ⟨rfl, .inr ⟨rfl, hx⟩, rfl⟩), rfl⟩
    · exact ⟨s.choose.exit, by simp only [step, State.unscheduled, s, fresh, State.construct, hx, if_true], rfl⟩
  obtain ⟨t, h1, h2⟩ := h
  exact ⟨fun n => if n = 0 then s else t, fun n => by cases n <;> simpa, rfl, rfl⟩

theorem witness_HostReadsLeaveTheBlock :
    (plan .readDisplay .idle).schedule = .readDisplay :: [] ∧ (plan .readStatus fallen).schedule = .readStatus :: [] := by decide

theorem witness_HostCannotReachTheCpu :
    let s := plan (.loadProgram [1]) .loaded
    s.schedule = .loadProgram [1] :: [] ∧ (AgentStep.loadProgram [1]).byHost = true ∧ step s = .next (after (step s)) ∧ s.run ≠ .idle :=
  ⟨rfl, rfl, rfl, by decide⟩

/-- A memory that lists two cells, and a step that writes a third. -/
theorem witness_StepKeepsMemoryCanonical :
    let s := at' { fresh.setReg 0 9 with i := .held 0x300 } 0xF055
    s.memCanonical ∧ step s = .next (after (step s)) :=
  ⟨by show Memory.wf _ _; decide, rfl⟩

/-- The zero policy, and a step that crashes. -/
theorem witness_ZeroPolicyNeverUnwritten :
    let s := at' (filled 0) 0x00EE
    s.allHeld = true ∧ step s = .next (after (step s)) ∧ s.safe = true ∧
    (after (step s)).run = .crashed ⟨.stackUnderflow, 3, 0x200, some 0x00EE, .number 0⟩ :=
  ⟨by decide, rfl, rfl, by decide⟩

/-- A general register, I, DT, a byte and ST that hold a value. -/
theorem witness_ConfigurationNeverChanges :
    let s := at' (((fresh.setReg 3 1).setI 0x300).setDt 0) 0x6005
    step s = .next (after (step s)) ∧ ¬s.lacks (.v 3) ∧ ¬s.lacks .i ∧ ¬s.lacks .dt ∧ ¬s.lacks (.mem 79) ∧
    (s.setSt 0).st ≠ .unwritten :=
  ⟨rfl, State.not_lacks_v (b := 1) (by decide), State.not_lacks_i (a := 0x300) rfl, State.not_lacks_dt (b := 0) rfl,
    State.not_lacks_mem (b := 0x80) (by decide), Cell.ne_unwritten (b := 0) rfl⟩

end Sys2Proof.Tests
end

section
/-! Registers, timers and bytes of memory never go back to `⊥`, and the configuration stays: one lemma per write of the
state, then per rule, cycle and step (10_state.md R47, 00_scope.md R7). -/

namespace Sys2Proof.Machine

/-- From `s` to `t` the configuration is kept, and a cell that `t` lacks was lacking in `s` already. -/
structure KeepsValues (s t : State) : Prop where
  config : t.config = s.config
  cell : ∀ c : CellName, t.lacks c → s.lacks c
  st : t.st = .unwritten → s.st = .unwritten

namespace KeepsValues

theorem trans {s t u : State} (hst : KeepsValues s t) (htu : KeepsValues t u) : KeepsValues s u where
  config := htu.config.trans hst.config
  cell c h := hst.cell c (htu.cell c h)
  st h := hst.st (htu.st h)

/-! ### The writes of the state -/

/-- A change outside V, I, the timers, memory and the configuration. -/
theorem of_frame {s t : State}
    (h : t = { s with
      pc := t.pc, sp := t.sp, stack := t.stack, disp := t.disp, keys := t.keys, run := t.run,
      schedule := t.schedule, randomPort := t.randomPort, oracle := t.oracle, reply := t.reply }) :
    KeepsValues s t := by
  have hconfig : t.config = s.config := by rw [h]
  have hmem : t.mem = s.mem := by rw [h]
  refine ⟨hconfig, fun c hc => ?_, fun hst => by rw [h] at hst; exact hst⟩
  cases c with
  | mem a => exact (State.byteAt_congr hconfig hmem a).symm.trans hc
  | v _ | i | dt => rw [h] at hc; exact hc

theorem setReg (s : State) (x : Nibble) (b : Byte) : KeepsValues s (s.setReg x b) := by
  refine ⟨rfl, fun c hc => ?_, id⟩
  cases c with
  | v k =>
    have hk : (s.setReg x b).reg k = .unwritten := hc
    rw [State.reg_setReg] at hk
    split at hk
    · cases hk
    · exact hk
  | i | dt | mem _ => exact hc

theorem setI (s : State) (a : Word) : KeepsValues s (s.setI a) := by
  refine ⟨rfl, fun c hc => ?_, id⟩
  cases c with
  | i => cases hc
  | v _ | dt | mem _ => exact hc

theorem setDt (s : State) (b : Byte) : KeepsValues s (s.setDt b) := by
  refine ⟨rfl, fun c hc => ?_, id⟩
  cases c with
  | dt => cases hc
  | v _ | i | mem _ => exact hc

theorem setSt (s : State) (b : Byte) : KeepsValues s (s.setSt b) where
  config := rfl
  cell c hc := by cases c <;> exact hc
  st h := by cases h

theorem writeBytes (s : State) (a : Nat) (bs : List Byte) : KeepsValues s (s.writeBytes a bs) := by
  refine ⟨rfl, fun c hc => ?_, id⟩
  cases c with
  | v _ | i | dt => exact hc
  | mem d =>
    have hd : (s.writeBytes a bs).byteAt d = .unwritten := hc
    by_cases hout : d < a ∨ a + bs.length ≤ d
    · rwa [State.byteAt_writeBytes_outside s a d bs hout] at hd
    · obtain ⟨k, rfl⟩ : ∃ k, d = a + k := ⟨d - a, by omega⟩
      have hk : bs[k]? = some bs[k] := List.getElem?_eq_getElem (by omega)
      rw [State.byteAt_writeBytes_inside s a k _ bs hk] at hd
      cases hd

theorem skipIf (s : State) (c : Bool) : KeepsValues s (s.skipIf c) := of_frame (by rw [State.skipIf_eq])

theorem commit (s : State) (x : Nibble) (r : Byte) (f : Option Byte) : KeepsValues s (s.commit x r f) := by
  cases f with
  | none => exact setReg s x r
  | some b =>
    simp only [State.commit]
    split
    · exact (setReg s x r).trans (setReg _ vf b)
    · exact (setReg s vf b).trans (setReg _ x r)

theorem setFlag (s : State) (f : Option Byte) : KeepsValues s (s.setFlag f) := by
  cases f with
  | none => exact of_frame rfl
  | some b => exact setReg s vf b

theorem setRegs (bs : List Byte) (s : State) (k : Nat) : KeepsValues s (s.setRegs k bs) := by
  induction bs generalizing s k with
  | nil => exact of_frame rfl
  | cons b rest ih => exact (setReg s (BitVec.ofNat 4 k) b).trans (ih _ (k + 1))

theorem takeFault (s : State) (f : Fault) (pc0 : Word) (opcode : Option Word) :
    KeepsValues s (s.takeFault f pc0 opcode) := of_frame rfl

end KeepsValues

/-- A tick leaves an unwritten timer alone and gives every other one a value (R245, R246). -/
theorem tickCell_eq_unwritten {c : Cell8} : tickCell c = .unwritten ↔ c = .unwritten := by
  cases c with
  | unwritten => simp [tickCell]
  | held b => simp only [tickCell]; split <;> simp

theorem KeepsValues.tick (s : State) : KeepsValues s s.tick := by
  refine ⟨rfl, fun c hc => ?_, tickCell_eq_unwritten.mp⟩
  cases c with
  | dt => exact tickCell_eq_unwritten.mp hc
  | v _ | i | mem _ => exact hc

/-! ### The rules of the instructions -/

/-- An instruction's rule, begun in `s`, takes no value back where it completes. -/
def RuleKeepsValues (s : State) (r : Except Fault State) : Prop := ∀ u, r = .ok u → KeepsValues s u

theorem RuleKeepsValues.of_ok {s u : State} (h : KeepsValues s u) : RuleKeepsValues s (.ok u) := by
  rintro _ ⟨⟩
  exact h

/-- A rule that begins with a read: what follows keeps values, whatever the read gives. -/
theorem RuleKeepsValues.of_bind {α : Type} {s : State} {r : Except Fault α} {k : α → Except Fault State}
    (h : ∀ a, r = .ok a → RuleKeepsValues s (k a)) : RuleKeepsValues s (r >>= k) := by
  intro u hu
  obtain ⟨a, hr, hk⟩ := bind_ok hu
  exact h a hr u hk

/-- A rule that faults instead of completing takes no value back either (R241). -/
theorem KeepsValues.of_finish {i : Instr} {s t : State} {r : Except Fault State} (hr : RuleKeepsValues s r)
    (h : finish i s r = .next t) : KeepsValues s t := by
  rcases finish_cases h with h | ⟨f, -, rfl⟩
  · exact hr t h
  · exact KeepsValues.takeFault s f _ _

open RuleKeepsValues

/-- The shape of a rule that reads one register (a skip, a copy, a shift) before it writes. -/
theorem KeepsValues.of_readV {i : Instr} {s t : State} {x : Nibble} {k : Byte → State} (hk : ∀ b, KeepsValues s (k b))
    (h : finish i s (s.readV x >>= fun b => .ok (k b)) = .next t) : KeepsValues s t :=
  of_finish (of_bind fun b _ => of_ok (hk b)) h

/-- The shape of a rule that reads two registers (a comparison, an ALU operation) before it writes. -/
theorem KeepsValues.of_readVV {i : Instr} {s t : State} {x y : Nibble} {k : Byte → Byte → State}
    (hk : ∀ a b, KeepsValues s (k a b))
    (h : finish i s (s.readV x >>= fun a => s.readV y >>= fun b => .ok (k a b)) = .next t) : KeepsValues s t :=
  of_finish (of_bind fun a _ => of_bind fun b _ => of_ok (hk a b)) h

/-- No instruction takes a value back, or changes the configuration. -/
theorem KeepsValues.of_exec {i : Instr} {s t : State} (h : exec i s = .next t) : KeepsValues s t := by
  cases i with
  | cls => cases h; exact of_frame rfl
  | sys nnn => cases h; exact of_frame rfl
  | jp nnn => cases h; exact of_frame rfl
  | ldVxKk x kk => cases h; exact setReg s x kk
  | rnd x kk => cases h; exact setReg s x _
  | ldI nnn => cases h; exact setI s _
  | ldVxK x =>
    simp only [exec, execLdVxK] at h
    split at h <;> cases h
    · exact of_frame rfl
    · exact setReg s x _
  | ret =>
    refine of_finish (of_bind ?_) h
    rintro ⟨a, u⟩ hp
    obtain ⟨-, -, -, hu⟩ := State.pop_ok hp
    exact of_ok ((of_frame (by rw [hu])).trans (t := u) (of_frame rfl))
  | call nnn =>
    refine of_finish (of_bind fun u hp => ?_) h
    obtain ⟨-, -, -, -, hu⟩ := State.push_ok hp
    exact of_ok ((of_frame (by rw [hu])).trans (t := u) (of_frame rfl))
  | jpV0 nnn => exact of_readV (fun _ => of_frame rfl) h
  | seVxKk x kk => exact of_readV (fun _ => skipIf s _) h
  | sneVxKk x kk => exact of_readV (fun _ => skipIf s _) h
  | seVxVy x y => exact of_readVV (fun _ _ => skipIf s _) h
  | sneVxVy x y => exact of_readVV (fun _ _ => skipIf s _) h
  | addVxKk x kk => exact of_readV (fun _ => commit s x _ _) h
  | ldVxVy x y => exact of_readV (fun _ => setReg s x _) h
  | orVxVy x y => exact of_readVV (fun _ _ => commit s x _ _) h
  | andVxVy x y => exact of_readVV (fun _ _ => commit s x _ _) h
  | xorVxVy x y => exact of_readVV (fun _ _ => commit s x _ _) h
  | addVxVy x y => exact of_readVV (fun _ _ => commit s x _ _) h
  | subVxVy x y => exact of_readVV (fun _ _ => commit s x _ _) h
  | subnVxVy x y => exact of_readVV (fun _ _ => commit s x _ _) h
  | shrVxVy x y => exact of_readV (fun _ => commit s x _ _) h
  | shlVxVy x y => exact of_readV (fun _ => commit s x _ _) h
  | ldFVx x => exact of_readV (fun _ => setI s _) h
  | ldDtVx x => exact of_readV (fun _ => setDt s _) h
  | ldStVx x => exact of_readV (fun _ => setSt s _) h
  | ldVxDt x => exact of_finish (of_bind fun _ _ => of_ok (setReg s x _)) h
  | addIVx x => exact of_finish (of_bind fun _ _ => of_bind fun _ _ => of_ok (setI s _)) h
  | skp x => exact of_finish (of_bind fun _ _ => of_bind fun _ _ => of_ok (skipIf s _)) h
  | sknp x => exact of_finish (of_bind fun _ _ => of_bind fun _ _ => of_ok (skipIf s _)) h
  | ldBVx x => exact of_finish (of_bind fun _ _ => of_bind fun _ _ => of_bind fun _ _ => of_ok (writeBytes s _ _)) h
  | ldMemVx x =>
    refine of_finish (of_bind fun _ _ => of_bind fun bs _ => of_bind fun _ _ => of_ok ?_) h
    exact (writeBytes s _ bs).trans (setI _ _)
  | ldVxMem x =>
    refine of_finish (of_bind fun _ _ => of_bind fun _ _ => of_bind fun bs _ => of_ok ?_) h
    exact (setRegs bs s 0).trans (setI _ _)
  | drw x y n =>
    refine of_finish (of_bind fun _ _ => of_bind fun _ _ => of_bind fun _ _ =>
      of_bind fun _ _ => of_bind fun _ _ => of_ok ?_) h
    exact (of_frame rfl).trans (t := s.setDisp _) (setFlag _ _)

/-! ### The cycle, the host and the step -/

theorem KeepsValues.of_cycle {s t : State} (h : s.cycle = .next t) : KeepsValues s t := by
  rcases State.cycle_cases h with ⟨f, -, rfl⟩ | ⟨op, i, -, -, h⟩ | ⟨op, e, -, -, rfl⟩
  · exact takeFault s f _ _
  · exact (of_frame rfl).trans (t := s.setPc _) (of_exec h)
  · exact of_frame rfl

theorem KeepsValues.loadProgram (s : State) (bytes : List Byte) : KeepsValues s (s.loadProgram bytes) := by
  simp only [State.loadProgram]
  split
  · split
    · exact (writeBytes s progBase bytes).trans (of_frame rfl)
    · exact of_frame rfl
  · exact of_frame rfl

theorem KeepsValues.start (s : State) : KeepsValues s s.start := by
  simp only [State.start]
  split <;> exact of_frame rfl

theorem KeepsValues.stop (s : State) : KeepsValues s s.stop := by
  simp only [State.stop]
  split <;> exact of_frame rfl

theorem KeepsValues.exit (s : State) : KeepsValues s s.exit := by
  simp only [State.exit]
  split <;> exact of_frame rfl

/-- Of the host's requests only a load writes a cell, and it writes values. -/
theorem KeepsValues.of_hostStep {e : AgentStep} {s t : State} (he : e.byHost = true) (h : agentStep e s = .next t) :
    KeepsValues s t := by
  cases e with
  | exec _ | exit | tick => cases he
  | loadProgram bytes => cases h; exact loadProgram s bytes
  | start => cases h; exact start s
  | stop => cases h; exact stop s
  | keyWrite _ | keyDown _ | keyUp _ | readDisplay | readStatus => cases h; exact of_frame rfl

theorem KeepsValues.of_step {s t : State} (h : step s = .next t) : KeepsValues s t := by
  obtain ⟨u, hinputs, hu⟩ := step_cases h
  have hsu : KeepsValues s u := of_frame (by rw [hinputs])
  refine hsu.trans ?_
  rcases hu with ⟨-, h⟩ | rfl | rfl | rfl | ⟨e, -, -, -, he, h⟩
  · exact of_cycle h
  · exact of_frame rfl
  · exact exit u
  · exact tick u
  · exact of_hostStep he h

/-- Settles O60: every step, of whichever agent, is made of writes that put a value where they write and leave the
configuration alone. -/
theorem configurationNeverChanges : Obligations.ConfigurationNeverChanges := by
  intro s t h
  obtain ⟨hconfig, hcell, hst⟩ := KeepsValues.of_step h
  exact ⟨hconfig, fun c => mt (hcell c), mt hst⟩

end Sys2Proof.Machine
end

section
/-! What an instruction's rule reads, in which order, and how it can end once those cells hold a value: said once, for
the statements about `⊥` (10_state.md R47, 60_exceptions.md R238, R239). -/

namespace Sys2Proof.Machine

/-- How a rule can end once its registers are read: it completes without touching the run state, or it faults, and
with UNWRITTEN only at a byte inside memory. -/
def SettlesIn (s : State) : Except Fault State → Prop
  | .ok t => t.run = s.run
  | .error f => ∀ c, f = .unwritten c → ∃ a, c = .mem a ∧ a < memSize ∧ s.lacks c

/-- The rule `r`, begun in `s`, reads these cells in this order before anything else: it faults at the first that is
unwritten, and once all hold a value it ends as `SettlesIn` says. -/
inductive ReadsFirst (s : State) : List CellName → Except Fault State → Prop where
  | done {r : Except Fault State} (h : SettlesIn s r) : ReadsFirst s [] r
  | missing {c : CellName} (cells : List CellName) (h : s.lacks c) : ReadsFirst s (c :: cells) (.error (.unwritten c))
  | present {c : CellName} {cells : List CellName} {r : Except Fault State} (h : ¬s.lacks c) (hr : ReadsFirst s cells r) :
      ReadsFirst s (c :: cells) r

/-! ### What the order of reads says about the outcome -/

/-- A rule faults at the first unwritten cell of those it reads. -/
theorem ReadsFirst.error_of_first {s : State} {before after : List CellName} {c : CellName} {r : Except Fault State}
    (hr : ReadsFirst s (before ++ c :: after) r) (hbefore : ∀ d ∈ before, ¬s.lacks d) (hc : s.lacks c) :
    r = .error (.unwritten c) := by
  induction before with
  | nil =>
    cases hr with
    | missing => rfl
    | present h => exact absurd hc h
  | cons d ds ih =>
    cases hr with
    | missing _ h => exact absurd h (hbefore d (by simp))
    | present _ hr => exact ih hr fun e he => hbefore e (List.mem_cons_of_mem d he)

/-- Where no cell it reads is unwritten, a rule ends as `SettlesIn` says. -/
theorem ReadsFirst.settles {s : State} {cells : List CellName} {r : Except Fault State} (hr : ReadsFirst s cells r)
    (hcells : ∀ d ∈ cells, ¬s.lacks d) : SettlesIn s r := by
  induction hr with
  | done h => exact h
  | missing cells h => exact absurd h (hcells _ (by simp))
  | present _ _ ih => exact ih fun d hd => hcells d (List.mem_cons_of_mem _ hd)

/-! ### Reading a cell, a register, a block of registers -/

namespace ReadsFirst

/-- A rule that begins with the read of a cell. -/
theorem of_read {w : Nat} {s : State} {cell : Cell w} {c : CellName} {cells : List CellName} {k : BitVec w → Except Fault State}
    (hc : s.lacks c ↔ cell = .unwritten) (hk : ∀ b, ReadsFirst s cells (k b)) : ReadsFirst s (c :: cells) (cell.read c >>= k) := by
  cases cell with
  | unwritten => exact missing cells (hc.mpr rfl)
  | held b => exact present (fun h => nomatch hc.mp h) (hk b)

theorem of_readV {s : State} {x : Nibble} {cells : List CellName} {k : Byte → Except Fault State}
    (hk : ∀ b, ReadsFirst s cells (k b)) : ReadsFirst s (.v x :: cells) (s.readV x >>= k) := of_read Iff.rfl hk

theorem of_readI {s : State} {cells : List CellName} {k : Word → Except Fault State}
    (hk : ∀ a, ReadsFirst s cells (k a)) : ReadsFirst s (.i :: cells) (s.readI >>= k) := of_read Iff.rfl hk

theorem of_readDt {s : State} {cells : List CellName} {k : Byte → Except Fault State}
    (hk : ∀ b, ReadsFirst s cells (k b)) : ReadsFirst s (.dt :: cells) (s.readDt >>= k) := of_read Iff.rfl hk

theorem of_readCells {s : State} {k : List Byte → Except Fault State} (cs : List Cell8) (n : Nat)
    (hcs : ∀ j c, cs[j]? = some c → s.reg (BitVec.ofNat 4 (n + j)) = c) (hk : ∀ bs, ReadsFirst s [] (k bs)) :
    ReadsFirst s ((List.range' n cs.length).map fun j => .v (BitVec.ofNat 4 j)) (readCells n cs >>= k) := by
  induction cs generalizing n k with
  | nil => exact hk []
  | cons c rest ih =>
    have hrest : ∀ j d, rest[j]? = some d → s.reg (BitVec.ofNat 4 (n + 1 + j)) = d := fun j d hd => by
      rw [show n + 1 + j = n + (j + 1) by omega]
      exact hcs (j + 1) d hd
    have hc : s.reg (BitVec.ofNat 4 n) = c := hcs 0 c rfl
    simp only [readCells, bind_assoc, ok_bind, List.length_cons, List.range'_succ, List.map_cons]
    exact of_read (by rw [← hc]; exact Iff.rfl) fun b => ih (n + 1) hrest fun bs => hk (b :: bs)

theorem of_readRegs {s : State} {x : Nibble} {k : List Byte → Except Fault State} (hk : ∀ bs, ReadsFirst s [] (k bs)) :
    ReadsFirst s (registerBlock x) (s.readRegs x >>= k) := by
  have hx := x.isLt
  have hlen : (s.v.toList.take (blockLen x)).length = x.toNat + 1 := by simp [blockLen]; omega
  have hregs : ∀ j c, (s.v.toList.take (blockLen x))[j]? = some c → s.reg (BitVec.ofNat 4 (0 + j)) = c := by
    intro j c hj
    have hlt := (List.getElem?_eq_some_iff.mp hj).1
    have h16 : (BitVec.ofNat 4 j).toNat = j := by rw [BitVec.toNat_ofNat]; omega
    have hreg := s.getElem?_regs x (BitVec.ofNat 4 j) (by omega)
    rw [h16, hj] at hreg
    rw [Nat.zero_add]
    exact (Option.some.inj hreg).symm
  have h := of_readCells (s.v.toList.take (blockLen x)) 0 hregs hk
  rwa [hlen, ← List.range_eq_range'] at h

/-! ### After the registers -/

theorem of_ok {s t : State} (h : t.run = s.run) : ReadsFirst s [] (.ok t) := done h

/-- A check that faults, but never with UNWRITTEN. -/
theorem of_check {α : Type} {s : State} {r : Except Fault α} {k : α → Except Fault State}
    (hr : ∀ c, r ≠ .error (.unwritten c)) (hk : ∀ a, r = .ok a → ReadsFirst s [] (k a)) : ReadsFirst s [] (r >>= k) := by
  cases r with
  | ok a => exact hk a rfl
  | error f => exact done fun c hf => absurd (congrArg Except.error hf) (hr c)

theorem of_checkRange {s : State} {a n : Nat} {k : Unit → Except Fault State}
    (hk : n = 0 ∨ a + n ≤ memSize → ReadsFirst s [] (k ())) : ReadsFirst s [] (checkRange a n >>= k) :=
  of_check (fun _ h => nomatch (checkRange_error.mp h).2.2) fun _ h => hk (checkRange_ok.mp h)

theorem of_keyNumber {s : State} {b : Byte} {k : Nat → Except Fault State} (hk : ∀ n, ReadsFirst s [] (k n)) :
    ReadsFirst s [] (keyNumber b >>= k) :=
  of_check (fun _ h => nomatch (keyNumber_error.mp h).2) fun n _ => hk n

/-- A block of bytes read after its range check: it faults with UNWRITTEN, but inside memory. -/
theorem of_readBytes {s : State} {a n : Nat} {k : List Byte → Except Fault State} (hrange : n = 0 ∨ a + n ≤ memSize)
    (hk : ∀ bs, ReadsFirst s [] (k bs)) : ReadsFirst s [] (s.readBytes a n >>= k) := by
  cases hb : s.readBytes a n with
  | ok bs => exact hk bs
  | error f =>
    obtain ⟨j, hj, hlacks, rfl⟩ := State.readBytes_error hb
    exact done fun c hc => ⟨a + j, (Fault.unwritten.inj hc).symm, by omega, by cases hc; exact hlacks⟩

end ReadsFirst

/-! ### The run state through the writes of a rule -/

@[simp] theorem State.skipIf_run (s : State) (c : Bool) : (s.skipIf c).run = s.run := by rw [State.skipIf_eq]

@[simp] theorem State.commit_run (s : State) (x : Nibble) (r : Byte) (f : Option Byte) : (s.commit x r f).run = s.run := by
  rw [s.commit_onlyV x r f]

@[simp] theorem State.setFlag_run (s : State) (f : Option Byte) : (s.setFlag f).run = s.run := by rw [s.setFlag_onlyV f]

@[simp] theorem State.setRegs_run (bs : List Byte) (s : State) (k : Nat) : (s.setRegs k bs).run = s.run := by
  rw [State.setRegs_onlyV bs s k]

/-! ### The instructions -/

open ReadsFirst

/-- Every instruction is a rule that reads the registers `registerReads` lists, in that order, before anything else. -/
theorem exec_readsFirst (i : Instr) (s : State) : ∃ r, exec i s = finish i s r ∧ ReadsFirst s (registerReads i) r := by
  cases i with
  | cls => exact ⟨.ok _, rfl, of_ok rfl⟩
  | sys nnn => exact ⟨.ok _, rfl, of_ok rfl⟩
  | jp nnn => exact ⟨.ok _, rfl, of_ok rfl⟩
  | ldVxKk x kk => exact ⟨.ok _, rfl, of_ok rfl⟩
  | rnd x kk => exact ⟨.ok _, rfl, of_ok rfl⟩
  | ldI nnn => exact ⟨.ok _, rfl, of_ok rfl⟩
  | ldVxK x =>
    simp only [exec, execLdVxK]
    split
    · exact ⟨.ok _, rfl, of_ok rfl⟩
    · exact ⟨.ok _, rfl, of_ok rfl⟩
  | ret =>
    refine ⟨_, rfl, of_check (fun c h => nomatch (State.pop_error h).2) ?_⟩
    rintro ⟨a, u⟩ hp
    obtain ⟨-, -, -, hu⟩ := State.pop_ok hp
    exact of_ok (by rw [hu]; rfl)
  | call nnn =>
    refine ⟨_, rfl, of_check (fun c h => nomatch (State.push_error h).2) fun u hp => ?_⟩
    obtain ⟨-, -, -, -, hu⟩ := State.push_ok hp
    exact of_ok (by rw [hu]; rfl)
  | jpV0 nnn => exact ⟨_, rfl, of_readV fun _ => of_ok rfl⟩
  | seVxKk x kk => exact ⟨_, rfl, of_readV fun _ => of_ok (s.skipIf_run _)⟩
  | sneVxKk x kk => exact ⟨_, rfl, of_readV fun _ => of_ok (s.skipIf_run _)⟩
  | seVxVy x y => exact ⟨_, rfl, of_readV fun _ => of_readV fun _ => of_ok (s.skipIf_run _)⟩
  | sneVxVy x y => exact ⟨_, rfl, of_readV fun _ => of_readV fun _ => of_ok (s.skipIf_run _)⟩
  | addVxKk x kk => exact ⟨_, rfl, of_readV fun _ => of_ok (s.commit_run x _ _)⟩
  | ldVxVy x y => exact ⟨_, rfl, of_readV fun _ => of_ok rfl⟩
  | orVxVy x y => exact ⟨_, rfl, of_readV fun _ => of_readV fun _ => of_ok (s.commit_run x _ _)⟩
  | andVxVy x y => exact ⟨_, rfl, of_readV fun _ => of_readV fun _ => of_ok (s.commit_run x _ _)⟩
  | xorVxVy x y => exact ⟨_, rfl, of_readV fun _ => of_readV fun _ => of_ok (s.commit_run x _ _)⟩
  | addVxVy x y => exact ⟨_, rfl, of_readV fun _ => of_readV fun _ => of_ok (s.commit_run x _ _)⟩
  | subVxVy x y => exact ⟨_, rfl, of_readV fun _ => of_readV fun _ => of_ok (s.commit_run x _ _)⟩
  | subnVxVy x y => exact ⟨_, rfl, of_readV fun _ => of_readV fun _ => of_ok (s.commit_run x _ _)⟩
  | shrVxVy x y => exact ⟨_, rfl, of_readV fun _ => of_ok (s.commit_run x _ _)⟩
  | shlVxVy x y => exact ⟨_, rfl, of_readV fun _ => of_ok (s.commit_run x _ _)⟩
  | ldFVx x => exact ⟨_, rfl, of_readV fun _ => of_ok rfl⟩
  | ldDtVx x => exact ⟨_, rfl, of_readV fun _ => of_ok rfl⟩
  | ldStVx x => exact ⟨_, rfl, of_readV fun _ => of_ok rfl⟩
  | ldVxDt x => exact ⟨_, rfl, of_readDt fun _ => of_ok rfl⟩
  | addIVx x => exact ⟨_, rfl, of_readI fun _ => of_readV fun _ => of_ok rfl⟩
  | skp x => exact ⟨_, rfl, of_readV fun _ => of_keyNumber fun _ => of_ok (s.skipIf_run _)⟩
  | sknp x => exact ⟨_, rfl, of_readV fun _ => of_keyNumber fun _ => of_ok (s.skipIf_run _)⟩
  | ldBVx x => exact ⟨_, rfl, of_readV fun _ => of_readI fun _ => of_checkRange fun _ => of_ok rfl⟩
  | ldMemVx x => exact ⟨_, rfl, of_readI fun _ => of_readRegs fun _ => of_checkRange fun _ => of_ok rfl⟩
  | ldVxMem x =>
    exact ⟨_, rfl, of_readI fun _ => of_checkRange fun hrange => of_readBytes hrange fun _ => of_ok (by simp)⟩
  | drw x y n =>
    exact ⟨_, rfl, of_readV fun _ => of_readV fun _ => of_readI fun _ => of_checkRange fun hrange =>
      of_readBytes hrange fun _ => of_ok (by simp)⟩

end Sys2Proof.Machine
end

section
/-! Under `RESET_POLICY = Zero` no cell ever holds `⊥` (10_state.md R47, 60_exceptions.md R238). -/

namespace Sys2Proof.Machine

theorem Cell.isHeld_iff {w : Nat} {c : Cell w} : c.isHeld = true ↔ c ≠ .unwritten := by
  cases c <;> simp [Cell.isHeld]

/-- V holds values throughout exactly when no general register is unwritten. -/
theorem State.v_all_isHeld {s : State} : s.v.toList.all Cell.isHeld = true ↔ ∀ x : Nibble, ¬s.lacks (.v x) := by
  rw [List.all_eq_true]
  constructor
  · intro h x
    exact Cell.isHeld_iff.mp (h (s.reg x) (by simp [State.reg]))
  · intro h c hc
    obtain ⟨k, hk, rfl⟩ := List.getElem_of_mem hc
    have hk16 : (BitVec.ofNat 4 k).toNat = k := by rw [BitVec.toNat_ofNat]; simp at hk; omega
    have hreg : s.reg (BitVec.ofNat 4 k) = s.v.toList[k] := by simp [State.reg, hk16]
    exact Cell.isHeld_iff.mpr (hreg ▸ h (BitVec.ofNat 4 k))

theorem State.allHeld_iff {s : State} :
    s.allHeld = true ↔ s.config.resetPolicy = .zero ∧ (∀ x : Nibble, ¬s.lacks (.v x)) ∧ ¬s.lacks .i ∧ ¬s.lacks .dt ∧
      s.st ≠ .unwritten := by
  simp only [State.allHeld, Bool.and_eq_true, beq_iff_eq, State.v_all_isHeld, Cell.isHeld_iff, State.lacks, and_assoc, ne_eq]

/-- Under `RESET_POLICY = Zero` every byte of memory holds a value (R69). -/
theorem State.byteAt_ne_unwritten {s : State} (hzero : s.config.resetPolicy = .zero) {a : Nat} (ha : a < memSize) :
    s.byteAt a ≠ .unwritten := by
  simp only [State.byteAt, Memory.read]
  cases Memory.find a s.mem with
  | some b => simp
  | none => by_cases hfont : a < 80 <;> simp [Memory.unlisted, hfont, ha, hzero, Cell.atConstruction]

/-- Where every register holds a value under the zero policy, so does every cell there is. -/
theorem State.not_lacks_of_allHeld {s : State} (h : s.allHeld = true) {c : CellName} (hc : ∀ a, c = .mem a → a < memSize) :
    ¬s.lacks c := by
  obtain ⟨hzero, hv, hi, hdt, -⟩ := State.allHeld_iff.mp h
  cases c with
  | v x => exact hv x
  | i => exact hi
  | dt => exact hdt
  | mem a => exact State.byteAt_ne_unwritten hzero (hc a rfl)

/-- A step that takes no value back keeps every register held. -/
theorem KeepsValues.allHeld {s t : State} (hst : KeepsValues s t) (h : s.allHeld = true) : t.allHeld = true := by
  obtain ⟨hzero, hv, hi, hdt, hsound⟩ := State.allHeld_iff.mp h
  exact State.allHeld_iff.mpr ⟨hst.config ▸ hzero, fun x => mt (hst.cell _) (hv x), mt (hst.cell _) hi,
    mt (hst.cell _) hdt, mt hst.st hsound⟩

/-! ### No step crashes with UNWRITTEN -/

theorem mem_notMem_registerReads (i : Instr) (a : Nat) : .mem a ∉ registerReads i := by
  cases i <;> simp [registerReads, registerBlock]

/-- No crash record the block holds names UNWRITTEN. -/
def State.noUnwrittenCrash (s : State) : Prop := ∀ rec : CrashRecord, s.run = .crashed rec → rec.cause ≠ .unwritten

theorem State.noUnwrittenCrash_of_safe {s : State} (h : s.safe = true) : s.noUnwrittenCrash := by
  intro rec hrun
  simp [State.safe, hrun] at h

theorem State.noUnwrittenCrash_of_run {s t : State} (h : s.noUnwrittenCrash) (hrun : t.run = s.run) : t.noUnwrittenCrash := by
  intro rec ht
  exact h rec (hrun ▸ ht)

theorem State.noUnwrittenCrash_takeFault {s : State} {f : Fault} {pc0 : Word} {opcode : Option Word}
    (hf : ∀ c, f ≠ .unwritten c) : (s.takeFault f pc0 opcode).noUnwrittenCrash := by
  intro rec hrun
  rw [State.takeFault_run, RunState.crashed.injEq] at hrun
  subst hrun
  cases f with
  | unwritten c => exact absurd rfl (hf c)
  | _ => exact fun h => nomatch h

/-- An instruction begun where every cell holds a value does not crash with UNWRITTEN: a rule that completes leaves the
run state alone, and one that has read its registers finds every byte of memory it reads. -/
theorem exec_noUnwrittenCrash {i : Instr} {s t : State} (hheld : s.allHeld = true) (hs : s.noUnwrittenCrash)
    (h : exec i s = .next t) : t.noUnwrittenCrash := by
  obtain ⟨r, hexec, hreads⟩ := exec_readsFirst i s
  have hsettles : SettlesIn s r := hreads.settles fun c hc =>
    State.not_lacks_of_allHeld hheld fun a ha => absurd (ha ▸ hc) (mem_notMem_registerReads i a)
  rcases finish_cases (hexec ▸ h) with rfl | ⟨f, rfl, rfl⟩
  · exact State.noUnwrittenCrash_of_run hs hsettles
  · refine State.noUnwrittenCrash_takeFault fun c hc => ?_
    obtain ⟨a, rfl, ha, hlacks⟩ := hsettles c hc
    exact State.byteAt_ne_unwritten (State.allHeld_iff.mp hheld).1 ha hlacks

/-- The fetch reads inside memory only, where every byte holds a value. -/
theorem State.fetch_not_unwritten {s : State} (hheld : s.allHeld = true) {f : Fault} (h : s.fetch = .error f) (c : CellName) :
    f ≠ .unwritten c := by
  have hbyte : ∀ a, a < 4095 → s.byteAt a ≠ .unwritten := fun _ => State.byteAt_ne_unwritten (State.allHeld_iff.mp hheld).1
  rcases State.fetch_error h with ⟨-, rfl⟩ | ⟨hr, hlacks, -⟩ | ⟨hr, -, hlacks, -⟩
  · exact fun h => nomatch h
  · exact absurd hlacks (hbyte _ (by omega))
  · exact absurd hlacks (hbyte _ hr)

theorem State.cycle_noUnwrittenCrash {s t : State} (hheld : s.allHeld = true) (hs : s.noUnwrittenCrash)
    (h : s.cycle = .next t) : t.noUnwrittenCrash := by
  rcases State.cycle_cases h with ⟨f, hfetch, rfl⟩ | ⟨op, i, -, -, h⟩ | ⟨op, e, -, -, rfl⟩
  · exact State.noUnwrittenCrash_takeFault (State.fetch_not_unwritten hheld hfetch)
  · exact exec_noUnwrittenCrash (s := s.setPc (s.pc + 2)) hheld hs h
  · exact hs

/-- The CPU's exit crashes nothing. -/
theorem State.exit_noUnwrittenCrash {s : State} (hs : s.noUnwrittenCrash) : s.exit.noUnwrittenCrash := by
  simp only [State.exit]
  split
  · exact fun rec hrun => nomatch hrun
  · exact hs

/-- No request of the host crashes the block. -/
theorem hostStep_noUnwrittenCrash {e : AgentStep} {s t : State} (he : e.byHost = true) (hs : s.noUnwrittenCrash)
    (h : agentStep e s = .next t) : t.noUnwrittenCrash := by
  cases e with
  | exec _ | exit | tick => cases he
  | keyWrite _ | keyDown _ | keyUp _ | readDisplay | readStatus => cases h; exact hs
  | loadProgram bytes =>
    cases h
    simp only [State.loadProgram]
    split
    · split
      · exact fun rec hrun => nomatch hrun
      · exact hs
    · exact hs
  | start =>
    cases h
    simp only [State.start]
    split
    · exact fun rec hrun => nomatch hrun
    · exact fun rec hrun => nomatch hrun
    · exact hs
  | stop =>
    cases h
    simp only [State.stop]
    split
    · exact fun rec hrun => nomatch hrun
    · exact hs

theorem step_noUnwrittenCrash {s t : State} (hheld : s.allHeld = true) (hs : s.noUnwrittenCrash) (h : step s = .next t) :
    t.noUnwrittenCrash := by
  obtain ⟨u, hinputs, hu⟩ := step_cases h
  have hheldU : u.allHeld = true := (KeepsValues.of_frame (by rw [hinputs])).allHeld hheld
  have hsU : u.noUnwrittenCrash := State.noUnwrittenCrash_of_run hs (by rw [hinputs])
  rcases hu with ⟨-, h⟩ | rfl | rfl | rfl | ⟨e, -, -, -, he, h⟩
  · exact State.cycle_noUnwrittenCrash hheldU hsU h
  · exact hsU
  · exact State.exit_noUnwrittenCrash hsU
  · exact hsU
  · exact hostStep_noUnwrittenCrash he hsU h

/-- Settles O59: every step keeps the values there are (`KeepsValues.of_step`), so no read of a step begun where all
cells hold one finds `⊥`. -/
theorem zeroPolicyNeverUnwritten : Obligations.ZeroPolicyNeverUnwritten := by
  intro s t hheld h
  have hheldT : t.allHeld = true := (KeepsValues.of_step h).allHeld hheld
  refine ⟨hheldT, fun a ha => ?_, fun rec hsafe => step_noUnwrittenCrash hheld (State.noUnwrittenCrash_of_safe hsafe) h rec⟩
  exact Cell.isHeld_iff.mpr (State.byteAt_ne_unwritten (State.allHeld_iff.mp hheldT).1 ha)

end Sys2Proof.Machine
end

section
/-! An instruction faults at the first unwritten cell it reads, registers before memory (60_exceptions.md R238, R239,
R241). -/

namespace Sys2Proof.Machine

/-- The end of a rule that faults with UNWRITTEN, as the statements spell it out. -/
theorem crashes_of_unwritten {i : Instr} {s : State} {r : Except Fault State} {c : CellName} (hr : r = .error (.unwritten c)) :
    ∃ t, finish i s r = .next t ∧ crashes s t .unwritten 5 (encode i) (.cell c) := by
  subst hr
  exact ⟨_, rfl, rfl⟩

/-- A register that is not unwritten reads as a value. -/
theorem State.readV_of_not_lacks {s : State} {x : Nibble} (h : ¬s.lacks (.v x)) : ∃ b, s.readV x = .ok b := by
  cases hx : s.reg x with
  | unwritten => exact absurd hx h
  | held b => exact ⟨b, State.readV_ok.mpr hx⟩

/-- An instruction that reads a block of memory at I, its registers readable and the block inside memory, takes
UNWRITTEN at the first unwritten byte of the block. -/
theorem exec_block_first {i : Instr} {s : State} {base : Word} {k : Nat} (hregs : ∀ d ∈ registerReads i, ¬s.lacks d)
    (hi : s.i = .held base) (hrange : base.toNat + bytesRead i ≤ 4095) (hk : k < bytesRead i)
    (hbefore : ∀ j, j < k → ¬s.lacks (.mem (base.toNat + j))) (hlacks : s.lacks (.mem (base.toNat + k))) :
    exec i s = finish i s (.error (.unwritten (.mem (base.toNat + k)))) := by
  have hcheck : checkRange base.toNat (bytesRead i) = .ok () := checkRange_ok.mpr (.inr hrange)
  have hbytes : s.readBytes base.toNat (bytesRead i) = .error (.unwritten (.mem (base.toNat + k))) :=
    State.readBytes_first hk hbefore hlacks
  cases i with
  | ldVxMem x =>
    rw [bytesRead] at hcheck hbytes
    simp [exec, execLdVxMem, blockLen, State.readI_ok.mpr hi, hcheck, hbytes]
  | drw x y n =>
    obtain ⟨ox, hox⟩ := State.readV_of_not_lacks (hregs (.v x) (by simp [registerReads]))
    obtain ⟨oy, hoy⟩ := State.readV_of_not_lacks (hregs (.v y) (by simp [registerReads]))
    rw [bytesRead] at hcheck hbytes
    simp [exec, execDrw, hox, hoy, State.readI_ok.mpr hi, hcheck, hbytes]
  | _ => exact absurd hk (Nat.not_lt_zero k)

/-- Settles O48: the registers by the order in which every rule reads them (`exec_readsFirst`), the bytes by the two
instructions that read a block. -/
theorem unwrittenOperandCrashes : Obligations.UnwrittenOperandCrashes := by
  refine ⟨fun i s before after c hreads hbefore hc => ?_, fun i s base k hregs hi hrange hk hbefore hlacks => ?_⟩
  · obtain ⟨r, hexec, hr⟩ := exec_readsFirst i s
    rw [hreads] at hr
    rw [hexec]
    exact crashes_of_unwritten (hr.error_of_first hbefore hc)
  · rw [exec_block_first hregs hi hrange hk hbefore hlacks]
    exact crashes_of_unwritten rfl

end Sys2Proof.Machine
end

section
/-! The key latch changes only by the host's latch writes (10_state.md R40, 45_keyboard.md R220). -/

namespace Sys2Proof.Machine

theorem exec_keys {i : Instr} {s t : State} (h : exec i s = .next t) : t.keys = s.keys := by
  rcases exec_cases h with h | ⟨f, -, rfl⟩
  · rw [h]
  · rfl

theorem State.cycle_keys {s t : State} (h : s.cycle = .next t) : t.keys = s.keys := by
  rcases State.cycle_cases h with ⟨f, -, rfl⟩ | ⟨op, i, -, -, h⟩ | ⟨op, e, -, -, rfl⟩
  · rfl
  · exact exec_keys (s := s.setPc (s.pc + 2)) h
  · rfl

theorem State.exit_keys (s : State) : s.exit.keys = s.keys := by
  simp only [State.exit]
  split <;> rfl

theorem State.loadProgram_keys (s : State) (bytes : List Byte) : (s.loadProgram bytes).keys = s.keys := by
  simp only [State.loadProgram]
  split
  · split <;> rfl
  · rfl

theorem State.start_keys (s : State) : s.start.keys = s.keys := by
  simp only [State.start]
  split <;> rfl

theorem State.stop_keys (s : State) : s.stop.keys = s.keys := by
  simp only [State.stop]
  split <;> rfl

/-- A request of the host that changes the latch is a latch write. -/
theorem latchWrite_of_hostStep {e : AgentStep} {s t : State} (he : e.byHost = true) (h : agentStep e s = .next t)
    (hkeys : t.keys ≠ s.keys) : (∃ v, e = .keyWrite v) ∨ (∃ k, e = .keyDown k) ∨ ∃ k, e = .keyUp k := by
  cases e with
  | exec _ | exit | tick => cases he
  | keyWrite v => exact .inl ⟨v, rfl⟩
  | keyDown k => exact .inr (.inl ⟨k, rfl⟩)
  | keyUp k => exact .inr (.inr ⟨k, rfl⟩)
  | readDisplay | readStatus => cases h; exact absurd rfl hkeys
  | loadProgram bytes => cases h; exact absurd (s.loadProgram_keys bytes) hkeys
  | start => cases h; exact absurd s.start_keys hkeys
  | stop => cases h; exact absurd s.stop_keys hkeys

/-- Settles O47: every other step keeps the latch. -/
theorem onlyTheHostWritesKeys : Obligations.OnlyTheHostWritesKeys := by
  intro s t h hkeys
  obtain ⟨u, hinputs, hu⟩ := step_cases h
  have hsu : u.keys = s.keys := by rw [hinputs]
  rw [← hsu] at hkeys
  rcases hu with ⟨-, h⟩ | rfl | rfl | rfl | ⟨e, es, hs, -, he, h⟩
  · exact absurd (State.cycle_keys h) hkeys
  · exact absurd rfl hkeys
  · exact absurd u.exit_keys hkeys
  · exact absurd rfl hkeys
  · rw [hs]
    rcases latchWrite_of_hostStep he h hkeys with ⟨v, rfl⟩ | ⟨k, rfl⟩ | ⟨k, rfl⟩
    · exact ⟨es, .inl ⟨v, rfl⟩⟩
    · exact ⟨es, .inr (.inl ⟨k, rfl⟩)⟩
    · exact ⟨es, .inr (.inr ⟨k, rfl⟩)⟩

end Sys2Proof.Machine
end

section
/-! No instruction reads ST: rules begun in two states that differ in ST alone end in two such states (10_state.md
R37). -/

namespace Sys2Proof.Machine

/-- The two states differ in nothing but ST. -/
def EqButSt (s t : State) : Prop := t = { s with st := t.st }

/-- Two rules end alike but for ST: both complete, or both raise the same fault. -/
inductive EndsAlike : Except Fault State → Except Fault State → Prop where
  | ok {t t' : State} (h : EqButSt t t') : EndsAlike (.ok t) (.ok t')
  | error (f : Fault) : EndsAlike (.error f) (.error f)

/-- Rules that begin with one and the same read. -/
theorem EndsAlike.of_bind {α : Type} {r : Except Fault α} {k k' : α → Except Fault State}
    (hk : ∀ a, EndsAlike (k a) (k' a)) : EndsAlike (r >>= k) (r >>= k') := by
  cases r with
  | ok a => exact hk a
  | error f => exact .error f

/-- The shape of a rule that reads one register before it writes. -/
theorem EndsAlike.of_readV {s : State} {x : Nibble} {k k' : Byte → State} (hk : ∀ a, EqButSt (k a) (k' a)) :
    EndsAlike (s.readV x >>= fun a => .ok (k a)) (s.readV x >>= fun a => .ok (k' a)) :=
  of_bind fun a => ok (hk a)

/-- The shape of a rule that reads two registers before it writes. -/
theorem EndsAlike.of_readVV {s : State} {x y : Nibble} {k k' : Byte → Byte → State}
    (hk : ∀ a b, EqButSt (k a b) (k' a b)) :
    EndsAlike (s.readV x >>= fun a => s.readV y >>= fun b => .ok (k a b))
      (s.readV x >>= fun a => s.readV y >>= fun b => .ok (k' a b)) :=
  of_bind fun a => of_readV (hk a)

/-! ### The writes and the memory reads of a rule do not see ST -/

namespace EqButSt

variable {s t : State}

theorem setReg (h : EqButSt s t) (x : Nibble) (b : Byte) : EqButSt (s.setReg x b) (t.setReg x b) := by
  rw [h]
  rfl

theorem setI (h : EqButSt s t) (a : Word) : EqButSt (s.setI a) (t.setI a) := by
  rw [h]
  rfl

theorem setDisp (h : EqButSt s t) (d : Display) : EqButSt (s.setDisp d) (t.setDisp d) := by
  rw [h]
  rfl

theorem skipIf (h : EqButSt s t) (p : Bool) : EqButSt (s.skipIf p) (t.skipIf p) := by
  rw [h, State.skipIf_eq, State.skipIf_eq]
  rfl

theorem setFlag (h : EqButSt s t) (f : Option Byte) : EqButSt (s.setFlag f) (t.setFlag f) := by
  cases f with
  | none => exact h
  | some b => exact h.setReg vf b

theorem commit (h : EqButSt s t) (x : Nibble) (r : Byte) (f : Option Byte) : EqButSt (s.commit x r f) (t.commit x r f) := by
  have hconfig : t.config = s.config := by rw [h]
  cases f with
  | none => exact h.setReg x r
  | some b =>
    simp only [State.commit, hconfig]
    split
    · exact (h.setReg x r).setReg vf b
    · exact (h.setReg vf b).setReg x r

theorem setRegs (bs : List Byte) (h : EqButSt s t) (k : Nat) : EqButSt (s.setRegs k bs) (t.setRegs k bs) := by
  induction bs generalizing s t k with
  | nil => exact h
  | cons b rest ih => exact ih (h.setReg _ b) (k + 1)

end EqButSt

theorem State.readBytes_st (s : State) (c : Cell8) (a n : Nat) : State.readBytes { s with st := c } a n = s.readBytes a n := by
  induction n generalizing a with
  | zero => rfl
  | succ n ih =>
    simp only [State.readBytes, ih]
    rfl

/-! ### The instructions -/

open EndsAlike

/-- Whatever ST holds, an instruction's rule ends alike. -/
theorem exec_endsAlike (i : Instr) (s : State) (c : Cell8) :
    ∃ r r', exec i s = finish i s r ∧ exec i { s with st := c } = finish i { s with st := c } r' ∧ EndsAlike r r' := by
  have hst : EqButSt s { s with st := c } := rfl
  cases i with
  | cls => exact ⟨.ok _, .ok _, rfl, rfl, ok rfl⟩
  | sys nnn => exact ⟨.ok _, .ok _, rfl, rfl, ok rfl⟩
  | jp nnn => exact ⟨.ok _, .ok _, rfl, rfl, ok rfl⟩
  | ldVxKk x kk => exact ⟨.ok _, .ok _, rfl, rfl, ok rfl⟩
  | rnd x kk => exact ⟨.ok _, .ok _, rfl, rfl, ok rfl⟩
  | ldI nnn => exact ⟨.ok _, .ok _, rfl, rfl, ok rfl⟩
  | ldVxK x =>
    simp only [exec, execLdVxK]
    cases anyPressed s.keys with
    | none => exact ⟨.ok _, .ok _, rfl, rfl, ok rfl⟩
    | some k => exact ⟨.ok _, .ok _, rfl, rfl, ok rfl⟩
  | ret =>
    refine ⟨_, _, rfl, rfl, ?_⟩
    simp only [State.pop]
    split
    · exact ok rfl
    · exact error _
  | call nnn =>
    refine ⟨_, _, rfl, rfl, ?_⟩
    simp only [State.push]
    split
    · exact ok rfl
    · exact error _
  | jpV0 nnn => exact ⟨_, _, rfl, rfl, of_readV (s := s) fun _ => rfl⟩
  | seVxKk x kk => exact ⟨_, _, rfl, rfl, of_readV (s := s) fun _ => hst.skipIf _⟩
  | sneVxKk x kk => exact ⟨_, _, rfl, rfl, of_readV (s := s) fun _ => hst.skipIf _⟩
  | seVxVy x y => exact ⟨_, _, rfl, rfl, of_readVV (s := s) fun _ _ => hst.skipIf _⟩
  | sneVxVy x y => exact ⟨_, _, rfl, rfl, of_readVV (s := s) fun _ _ => hst.skipIf _⟩
  | addVxKk x kk => exact ⟨_, _, rfl, rfl, of_readV (s := s) fun _ => hst.commit x _ _⟩
  | ldVxVy x y => exact ⟨_, _, rfl, rfl, of_readV (s := s) fun _ => rfl⟩
  | orVxVy x y => exact ⟨_, _, rfl, rfl, of_readVV (s := s) fun _ _ => hst.commit x _ _⟩
  | andVxVy x y => exact ⟨_, _, rfl, rfl, of_readVV (s := s) fun _ _ => hst.commit x _ _⟩
  | xorVxVy x y => exact ⟨_, _, rfl, rfl, of_readVV (s := s) fun _ _ => hst.commit x _ _⟩
  | addVxVy x y => exact ⟨_, _, rfl, rfl, of_readVV (s := s) fun _ _ => hst.commit x _ _⟩
  | subVxVy x y => exact ⟨_, _, rfl, rfl, of_readVV (s := s) fun _ _ => hst.commit x _ _⟩
  | subnVxVy x y => exact ⟨_, _, rfl, rfl, of_readVV (s := s) fun _ _ => hst.commit x _ _⟩
  | shrVxVy x y => exact ⟨_, _, rfl, rfl, of_readV (s := s) fun _ => hst.commit x _ _⟩
  | shlVxVy x y => exact ⟨_, _, rfl, rfl, of_readV (s := s) fun _ => hst.commit x _ _⟩
  | ldFVx x => exact ⟨_, _, rfl, rfl, of_readV (s := s) fun _ => rfl⟩
  | ldDtVx x => exact ⟨_, _, rfl, rfl, of_readV (s := s) fun _ => rfl⟩
  | ldStVx x => exact ⟨_, _, rfl, rfl, of_readV (s := s) fun _ => rfl⟩
  | ldVxDt x => exact ⟨_, _, rfl, rfl, of_bind (r := s.readDt) fun _ => ok rfl⟩
  | addIVx x => exact ⟨_, _, rfl, rfl, of_bind (r := s.readI) fun _ => of_readV (s := s) fun _ => rfl⟩
  | skp x =>
    exact ⟨_, _, rfl, rfl, of_bind (r := s.readV x) fun _ => of_bind fun _ => ok (hst.skipIf _)⟩
  | sknp x =>
    exact ⟨_, _, rfl, rfl, of_bind (r := s.readV x) fun _ => of_bind fun _ => ok (hst.skipIf _)⟩
  | ldBVx x =>
    exact ⟨_, _, rfl, rfl, of_bind (r := s.readV x) fun _ => of_bind (r := s.readI) fun _ => of_bind fun _ => ok rfl⟩
  | ldMemVx x =>
    exact ⟨_, _, rfl, rfl, of_bind (r := s.readI) fun _ => of_bind (r := s.readRegs x) fun _ => of_bind fun _ => ok rfl⟩
  | ldVxMem x =>
    refine ⟨_, _, rfl, rfl, of_bind (r := s.readI) fun base => of_bind fun _ => ?_⟩
    rw [State.readBytes_st s c]
    exact of_bind fun bs => ok ((hst.setRegs bs 0).setI _)
  | drw x y n =>
    refine ⟨_, _, rfl, rfl, of_bind (r := s.readV x) fun _ => of_bind (r := s.readV y) fun _ =>
      of_bind (r := s.readI) fun base => of_bind fun _ => ?_⟩
    rw [State.readBytes_st s c]
    exact of_bind fun _ => ok ((hst.setDisp _).setFlag _)

/-- Settles O38: the rules of an instruction's two runs read alike, so they complete or fault alike. -/
theorem noInstructionReadsSt : Obligations.NoInstructionReadsSt := by
  intro i s t c h
  obtain ⟨r, r', hexec, hexec', halike⟩ := exec_endsAlike i s c
  rw [hexec] at h
  rw [hexec']
  cases halike with
  | ok ht => cases h; exact ⟨_, rfl, ht⟩
  | error f => cases h; exact ⟨_, rfl, rfl⟩

end Sys2Proof.Machine
end

section
/-! The next fetch sees what a register dump stored (20_memory.md R81): what the dump leaves, then what a fetch reads
there. -/

namespace Sys2Proof.Machine

/-- The state a register dump of the values `val` leaves (R174). -/
def State.dumped (s : State) (base : Word) (x : Nibble) (val : Nibble → Byte) : State :=
  (s.writeBytes base.toNat ((List.range (blockLen x)).map fun k => val (BitVec.ofNat 4 k))).setI (advancedI base x)

section Dump

variable {s : State} {base : Word} {x : Nibble} {val : Nibble → Byte}

/-- LD [I] completes when V0..Vx and I hold values and the block lies inside memory. -/
theorem exec_ldMemVx_of_held (hregs : ∀ r : Nibble, r.toNat ≤ x.toNat → s.reg r = .held (val r)) (hi : s.i = .held base)
    (hrange : base.toNat + x.toNat < 4095) : exec (.ldMemVx x) s = .next (s.dumped base x val) := by
  have hcheck : checkRange base.toNat (blockLen x) = .ok () :=
    checkRange_ok.mpr (by simp only [blockLen, memSize]; omega)
  simp [exec, execLdMemVx, State.readI_ok.mpr hi, State.readRegs_of_held hregs, hcheck, State.dumped]

@[simp] theorem State.dumped_pc : (s.dumped base x val).pc = s.pc := rfl

/-- The byte a register dump leaves at I + r is the value of Vr. -/
theorem State.byteAt_dumped {r : Nibble} (hr : r.toNat ≤ x.toNat) :
    (s.dumped base x val).byteAt (base.toNat + r.toNat) = .held (val r) := by
  have hget : ((List.range (blockLen x)).map fun k => val (BitVec.ofNat 4 k))[r.toNat]? = some (val r) := by
    rw [List.getElem?_map, List.getElem?_range (by simp only [blockLen]; omega)]
    simp
  exact State.byteAt_writeBytes_inside s base.toNat r.toNat (val r) _ hget

end Dump

/-- Settles O35: PC stays over the dumped block, so the fetch reads the two bytes stored there. -/
theorem fetchSeesTheStore : Obligations.FetchSeesTheStore := by
  intro x r r' val base s t hregs hi hrange hexec hsucc hr' hpc
  rw [exec_ldMemVx_of_held hregs hi hrange] at hexec
  cases hexec
  have hhi : (s.dumped base x val).byteAt s.pc.toNat = .held (val r) := by
    rw [hpc]
    exact State.byteAt_dumped (by omega)
  have hlo : (s.dumped base x val).byteAt (s.pc.toNat + 1) = .held (val r') := by
    rw [hpc, Nat.add_assoc, ← hsucc]
    exact State.byteAt_dumped hr'
  exact State.fetch_ok.mpr ⟨by rw [State.dumped_pc]; omega, val r, val r', hhi, hlo, rfl⟩

end Sys2Proof.Machine
end

section
/-! The decoder and the encoder are inverse to each other, and what the decoder rejects (30_encoding.md R98-R105, R111). -/

namespace Sys2Proof

/-! ## Decoding what was encoded -/

/-- A word of the format `NNN` is another exactly when their addresses agree. -/
theorem formatNNN_eq_iff {g : Nibble} {a b : Addr} : formatNNN g a = formatNNN g b ↔ a = b :=
  ⟨fun h => by simpa using congrArg fieldNNN h, congrArg (formatNNN g)⟩

/-- A SYS word is neither the word of CLS nor that of RET, so group 0 decodes it as SYS (R99). -/
theorem decode_sys {nnn : Addr} (h : (Instr.sys nnn).wellFormed = true) : decode (formatNNN 0x0 nnn) = .ok (.sys nnn) := by
  have hne : nnn ≠ 0x0E0#12 ∧ nnn ≠ 0x0EE#12 := by simpa [Instr.wellFormed] using h
  have hcls : formatNNN 0x0 nnn ≠ 0x00E0#16 := mt (formatNNN_eq_iff (b := 0x0E0#12)).mp hne.1
  have hret : formatNNN 0x0 nnn ≠ 0x00EE#16 := mt (formatNNN_eq_iff (b := 0x0EE#12)).mp hne.2
  have hgroup : decode (formatNNN 0x0 nnn) = .ok (decodeGroup0 (formatNNN 0x0 nnn)) := by simp [decode]
  rw [hgroup, decodeGroup0, if_neg hcls, if_neg hret, fieldNNN_formatNNN]

/-- Group by group, the fields the decoder looks at are those the encoder wrote. -/
theorem decode_encode {i : Instr} (h : i.wellFormed = true) : decode (encode i) = .ok i := by
  cases i with
  | cls | ret => decide
  | sys nnn => exact decode_sys h
  | jp | call | ldI | jpV0 => simp [encode, decode]
  | seVxKk | sneVxKk | ldVxKk | addVxKk | rnd => simp [encode, decode]
  | seVxVy | sneVxVy | drw => simp [encode, decode]
  | ldVxVy | orVxVy | andVxVy | xorVxVy | addVxVy | subVxVy | shrVxVy | subnVxVy | shlVxVy =>
    simp [encode, decode, decodeGroup8]
  | skp | sknp => simp [encode, decode, decodeGroupE]
  | ldVxDt | ldVxK | ldDtVx | ldStVx | addIVx | ldFVx | ldBVx | ldMemVx | ldVxMem =>
    simp [encode, decode, decodeGroupF]

/-- Settles O2: the two bytes of a word form it again, and decoding undoes encoding. -/
theorem decodeReadsBackEncode : Obligations.DecodeReadsBackEncode := by
  intro i h
  calc decodeBytes (encodeBytes i)
      = decode (wordOfBytes ((encode i).extractLsb' 8 8) ((encode i).extractLsb' 0 8)) := rfl
    _ = decode (encode i) := by rw [wordOfBytes_bytes]
    _ = .ok i := decode_encode h

/-- Settles O1: the decoder, run on each of the words. -/
theorem sampleWordsDecode : Obligations.SampleWordsDecode := by
  unfold Obligations.SampleWordsDecode
  decide

/-! ## Encoding what was decoded -/

section Formats

variable {op : Word} {g : Nibble} (hg : (fieldG op).toNat = g.toNat)
include hg

/-- A word of group g is its own fields in the format `NNN` (R93). -/
theorem formatNNN_fields : formatNNN g (fieldNNN op) = op := by
  rw [← BitVec.eq_of_toNat_eq hg]
  apply BitVec.eq_of_getLsbD_eq; intro j hj
  simp only [formatNNN, fieldG, fieldNNN, BitVec.getLsbD_append, BitVec.getLsbD_extractLsb']
  interval_cases j <;> simp

/-- A word of group g is its own fields in the format `XKK` (R91, R92). -/
theorem formatXKK_fields {kk : Byte} (hkk : fieldKK op = kk) : formatXKK g (fieldX op) kk = op := by
  rw [← BitVec.eq_of_toNat_eq hg, ← hkk]
  apply BitVec.eq_of_getLsbD_eq; intro j hj
  simp only [formatXKK, fieldG, fieldX, fieldKK, BitVec.getLsbD_append, BitVec.getLsbD_extractLsb']
  interval_cases j <;> simp

/-- A word of group g is its own fields in the format `XYN` (R91, R92). -/
theorem formatXYN_fields {n : Nibble} (hn : (fieldN op).toNat = n.toNat) : formatXYN g (fieldX op) (fieldY op) n = op := by
  rw [← BitVec.eq_of_toNat_eq hg, ← BitVec.eq_of_toNat_eq hn]
  apply BitVec.eq_of_getLsbD_eq; intro j hj
  simp only [formatXYN, fieldG, fieldX, fieldY, fieldN, BitVec.getLsbD_append, BitVec.getLsbD_extractLsb']
  interval_cases j <;> simp

end Formats

/-- The instruction is well-formed, and the word is its encoding. -/
def IsWordOf (op : Word) (i : Instr) : Prop := i.wellFormed = true ∧ encode i = op

section Groups

variable {op : Word} {i : Instr}

theorem decodeGroup0_isWordOf (hg : (fieldG op).toNat = 0x0) : IsWordOf op (decodeGroup0 op) := by
  have hop : formatNNN 0x0 (fieldNNN op) = op := formatNNN_fields hg
  unfold decodeGroup0
  split
  next h => exact ⟨rfl, h.symm⟩
  next hcls =>
    split
    next h => exact ⟨rfl, h.symm⟩
    next hret =>
      have hne0 : fieldNNN op ≠ 0x0E0#12 := fun e => hcls (by rw [← hop, e]; rfl)
      have hneE : fieldNNN op ≠ 0x0EE#12 := fun e => hret (by rw [← hop, e]; rfl)
      exact ⟨by simp [Instr.wellFormed, hne0, hneE], hop⟩

theorem decodeGroup8_isWordOf (hg : (fieldG op).toNat = 0x8) (h : decodeGroup8 op = .ok i) : IsWordOf op i := by
  unfold decodeGroup8 at h
  split at h <;> cases h
  all_goals exact ⟨rfl, formatXYN_fields hg (by assumption)⟩

theorem decodeGroupE_isWordOf (hg : (fieldG op).toNat = 0xE) (h : decodeGroupE op = .ok i) : IsWordOf op i := by
  unfold decodeGroupE at h
  split_ifs at h <;> cases h
  all_goals exact ⟨rfl, formatXKK_fields hg (by assumption)⟩

theorem decodeGroupF_isWordOf (hg : (fieldG op).toNat = 0xF) (h : decodeGroupF op = .ok i) : IsWordOf op i := by
  unfold decodeGroupF at h
  split_ifs at h <;> cases h
  all_goals exact ⟨rfl, formatXKK_fields hg (by assumption)⟩

/-- Group by group (case `h_k` is group k - 1), the answer's operands are the word's fields. -/
theorem decode_isWordOf (h : decode op = .ok i) : IsWordOf op i := by
  unfold decode at h
  split at h
  case h_1 hg => cases h; exact decodeGroup0_isWordOf hg
  case h_2 hg | h_3 hg | h_11 hg | h_12 hg => cases h; exact ⟨rfl, formatNNN_fields hg⟩
  case h_4 hg | h_5 hg | h_7 hg | h_8 hg | h_13 hg => cases h; exact ⟨rfl, formatXKK_fields hg rfl⟩
  case h_6 hg | h_10 hg =>
    split_ifs at h with hn
    cases h
    exact ⟨rfl, formatXYN_fields hg (congrArg BitVec.toNat hn)⟩
  case h_14 hg => cases h; exact ⟨rfl, formatXYN_fields hg rfl⟩
  case h_9 hg => exact decodeGroup8_isWordOf hg h
  case h_15 hg => exact decodeGroupE_isWordOf hg h
  case h_16 hg => exact decodeGroupF_isWordOf hg h
  case h_17 => cases h

end Groups

/-- Settles O3: each group of the decoder answers an instruction whose encoding has the word's own fields. -/
theorem decodedWordReencodes : Obligations.DecodedWordReencodes := fun _ _ => decode_isWordOf

/-! ## What is rejected -/

theorem toNat_fieldG (op : Word) : (fieldG op).toNat = op.toNat / 0x1000 := by
  have := op.isLt
  rw [fieldG, BitVec.extractLsb'_toNat, Nat.shiftRight_eq_div_pow]
  omega

theorem toNat_fieldN (op : Word) : (fieldN op).toNat = op.toNat % 16 := by
  rw [fieldN, BitVec.extractLsb'_toNat]; rfl

theorem toNat_fieldKK (op : Word) : (fieldKK op).toNat = op.toNat % 256 := by
  rw [fieldKK, BitVec.extractLsb'_toNat]; rfl


/-- The words R105 lists as unrecognised. -/
def IsUnrecognised (op : Word) : Prop :=
  ((op.toNat / 0x1000 = 5 ∨ op.toNat / 0x1000 = 9) ∧ op.toNat % 16 ≠ 0) ∨
  (op.toNat / 0x1000 = 8 ∧ op.toNat % 16 ∈ [8, 9, 0xA, 0xB, 0xC, 0xD, 0xF]) ∨
  (op.toNat / 0x1000 = 0xE ∧ op.toNat % 256 ∉ [0x9E, 0xA1]) ∨
  (op.toNat / 0x1000 = 0xF ∧ op.toNat % 256 ∉ [0x07, 0x0A, 0x15, 0x18, 0x1E, 0x29, 0x33, 0x55, 0x65])

section Rejections

variable {op : Word} {e : Reject}

theorem fieldN_eq_zero : fieldN op = 0#4 ↔ op.toNat % 16 = 0 := by
  rw [← BitVec.toNat_inj, toNat_fieldN]; rfl

theorem fieldKK_eq {kk : Byte} : fieldKK op = kk ↔ op.toNat % 256 = kk.toNat := by
  rw [← BitVec.toNat_inj, toNat_fieldKK]

/-- Group 8 rejects the low nibbles that R100 does not list. -/
theorem decodeGroup8_error :
    decodeGroup8 op = .error e ↔ .unrecognised op = e ∧ op.toNat % 16 ∈ [8, 9, 0xA, 0xB, 0xC, 0xD, 0xF] := by
  have hlt : op.toNat % 16 < 16 := Nat.mod_lt _ (by decide)
  rw [decodeGroup8, toNat_fieldN]
  interval_cases op.toNat % 16 <;> simp

/-- Group E rejects the low bytes that R101 does not list. -/
theorem decodeGroupE_error : decodeGroupE op = .error e ↔ .unrecognised op = e ∧ op.toNat % 256 ∉ [0x9E, 0xA1] := by
  simp only [decodeGroupE, fieldKK_eq]
  split_ifs <;> simp_all

/-- Group F rejects the low bytes that R102 does not list. -/
theorem decodeGroupF_error :
    decodeGroupF op = .error e ↔
      .unrecognised op = e ∧ op.toNat % 256 ∉ [0x07, 0x0A, 0x15, 0x18, 0x1E, 0x29, 0x33, 0x55, 0x65] := by
  simp only [decodeGroupF, fieldKK_eq]
  split_ifs <;> simp_all

/-- Group by group (case `h_k` is group k - 1; `h_17` is no group of a 16-bit word). -/
theorem decode_error : decode op = .error e ↔ .unrecognised op = e ∧ IsUnrecognised op := by
  unfold decode
  rw [toNat_fieldG]
  split
  case h_1 hg | h_2 hg | h_3 hg | h_4 hg | h_5 hg | h_7 hg | h_8 hg | h_11 hg | h_12 hg | h_13 hg | h_14 hg =>
    simp [IsUnrecognised, hg]
  case h_6 hg | h_10 hg =>
    simp only [fieldN_eq_zero]
    split_ifs with hn <;> simp [IsUnrecognised, hg, hn]
  case h_9 hg => simp [decodeGroup8_error, IsUnrecognised, hg]
  case h_15 hg => simp [decodeGroupE_error, IsUnrecognised, hg]
  case h_16 hg => simp [decodeGroupF_error, IsUnrecognised, hg]
  case h_17 =>
    have := op.isLt
    simp only [imp_false] at *
    omega

end Rejections

/-- Settles O4: only groups 5, 8, 9, E and F reject, each by the field it looks at. -/
theorem rejectsExactlyTheUnrecognisedWords : Obligations.RejectsExactlyTheUnrecognisedWords := by
  intro op
  refine ⟨⟨fun ⟨e, he⟩ => (decode_error.mp he).2, fun h => ⟨_, decode_error.mpr ⟨rfl, h⟩⟩⟩, fun e he => ?_⟩
  exact (decode_error.mp he).1.symm

end Sys2Proof
end

section
/-! The instruction cycle: what a CPU step does after a fetch that reads a word, and after one that faults (30_encoding.md
R95-R97, R104). -/

namespace Sys2Proof.Machine

/-! ## The cycle, by what its fetch and its decoder answer -/

theorem State.cycle_of_decoded {s : State} {op : Word} {i : Instr} (hfetch : s.fetch = .ok op) (hdecode : decode op = .ok i) :
    s.cycle = exec i (s.setPc (s.pc + 2)) := by
  simp only [State.cycle, hfetch, hdecode]

theorem State.cycle_of_rejected {s : State} {op : Word} {e : Reject} (hfetch : s.fetch = .ok op)
    (hdecode : decode op = .error e) : s.cycle = .next (s.setPc (s.pc + 2)) := by
  simp only [State.cycle, hfetch, hdecode]

theorem State.cycle_of_fetch_error {s : State} {f : Fault} (hfetch : s.fetch = .error f) :
    s.cycle = .next (s.takeFault f s.pc none) := by
  simp only [State.cycle, hfetch]

/-- The fetch of a CPU step reads PC and memory, not the schedule or the free values that moved on. -/
theorem cpuMoves_fetch {s u : State} (h : cpuMoves s u) : u.fetch = s.fetch := by
  rw [cpuMoves_inputsOnly h]
  rfl

theorem cpuMoves_pc {s u : State} (h : cpuMoves s u) : u.pc = s.pc := by rw [cpuMoves_inputsOnly h]

/-! ## A CPU step after a fetch that reads a word -/

section Fetched

variable {s u : State} {hi lo : Byte} {i : Instr} {e : Reject}
variable (hpc : s.pc.toNat + 1 < 4095) (hhi : s.byteAt s.pc.toNat = .held hi) (hlo : s.byteAt (s.pc.toNat + 1) = .held lo)
include hpc hhi hlo

theorem State.fetch_of_held : s.fetch = .ok (hi ++ lo) := State.fetch_ok.mpr ⟨hpc, hi, lo, hhi, hlo, rfl⟩

theorem cpuMoves_step_of_decoded (h : cpuMoves s u) (hdecode : decode (hi ++ lo) = .ok i) :
    step s = exec i { u with pc := s.pc + 2 } := by
  have hfetch : u.fetch = .ok (hi ++ lo) := (cpuMoves_fetch h).trans (State.fetch_of_held hpc hhi hlo)
  rw [cpuMoves_step h, State.cycle_of_decoded hfetch hdecode, cpuMoves_pc h, State.setPc]

theorem cpuMoves_step_of_rejected (h : cpuMoves s u) (hdecode : decode (hi ++ lo) = .error e) :
    step s = .next { u with pc := s.pc + 2 } := by
  have hfetch : u.fetch = .ok (hi ++ lo) := (cpuMoves_fetch h).trans (State.fetch_of_held hpc hhi hlo)
  rw [cpuMoves_step h, State.cycle_of_rejected hfetch hdecode, cpuMoves_pc h, State.setPc]

end Fetched

/-- With nothing scheduled, a free choice that exits ends the cycle (R278; log 7). -/
theorem step_of_exitsNow {s : State} (hs : s.schedule = []) (hrun : s.run = .stopRequested) (hx : exitsNow s.oracle = true) :
    step s = .next { s with oracle := s.oracle + 1, run := .stopped } := by
  simp [step, hs, State.unscheduled, hrun, hx, State.exit, State.choose, State.setRun]

/-- Settles O5: each of the three ways is a CPU step (`cpuMoves`), but for the free choice that exits. -/
theorem stepRunsDecodedInstruction : Obligations.StepRunsDecodedInstruction := by
  intro s hi lo i hpc hhi hlo hdecode
  refine ⟨fun r es hs hrun => ?_, fun hs hrun => ?_, fun hs hrun => ?_⟩
  · exact cpuMoves_step_of_decoded hpc hhi hlo (.inl ⟨r, es, hs, hrun, rfl⟩) hdecode
  · exact cpuMoves_step_of_decoded hpc hhi hlo (.inr ⟨hs, .inl hrun, rfl⟩) hdecode
  · split
    next hx => exact step_of_exitsNow hs hrun hx
    next hx =>
      exact cpuMoves_step_of_decoded hpc hhi hlo (.inr ⟨hs, .inr ⟨hrun, Bool.eq_false_of_not_eq_true hx⟩, rfl⟩) hdecode

/-- Settles O6: the cycle takes a rejected word as a no-op. -/
theorem unrecognisedOpcodeOnlyAdvancesPc : Obligations.UnrecognisedOpcodeOnlyAdvancesPc :=
  fun _ _ _ _ _ h hpc hhi hlo hdecode => cpuMoves_step_of_rejected hpc hhi hlo h hdecode

/-! ## A CPU step after a fetch that faults -/

section FetchFaults

variable {s : State}

/-- The addresses of the word are checked first (R95). -/
theorem State.fetch_outside_memory (hpc : 4094 ≤ s.pc.toNat) : s.fetch = .error (.memRange (max 4095 s.pc.toNat)) := by
  have hcheck : checkRange s.pc.toNat opcodeBytes = .error (.memRange (max 4095 s.pc.toNat)) :=
    checkRange_error.mpr ⟨by decide, by simp only [memSize, opcodeBytes]; omega, rfl⟩
  rw [State.fetch, hcheck, error_bind]

theorem checkRange_fetch (hpc : s.pc.toNat < 4094) : checkRange s.pc.toNat opcodeBytes = .ok () :=
  checkRange_ok.mpr (by simp only [memSize, opcodeBytes]; omega)

theorem State.fetch_high_unwritten (hpc : s.pc.toNat < 4094) (hhi : s.byteAt s.pc.toNat = .unwritten) :
    s.fetch = .error (.unwritten (.mem s.pc.toNat)) := by
  rw [State.fetch, checkRange_fetch hpc, hhi]
  rfl

theorem State.fetch_low_unwritten {hi : Byte} (hpc : s.pc.toNat < 4094) (hhi : s.byteAt s.pc.toNat = .held hi)
    (hlo : s.byteAt (s.pc.toNat + 1) = .unwritten) : s.fetch = .error (.unwritten (.mem (s.pc.toNat + 1))) := by
  rw [State.fetch, checkRange_fetch hpc, hhi, hlo]
  rfl

end FetchFaults

/-- A fetch fault is taken from the state the fetch saw, with no opcode (R241). -/
theorem fetchCrashes_of_fetch_error {s u : State} {f : Fault} (h : cpuMoves s u) (hfetch : s.fetch = .error f) :
    fetchCrashes s u f.cause f.cause.code f.info := by
  rw [fetchCrashes, cpuMoves_step h, State.cycle_of_fetch_error ((cpuMoves_fetch h).trans hfetch), ← cpuMoves_pc h]
  rfl

/-- Settles O7: the fetch checks its two addresses, then reads its two cells, and its first fault is the one taken. -/
theorem fetchFaultsInOrder : Obligations.FetchFaultsInOrder := by
  intro s u hi h
  refine ⟨fun hpc => ?_, fun hpc => ?_, fun hpc hhi => ?_, fun hpc hhi hlo => ?_⟩
  · have hfetch := State.fetch_outside_memory (s := s) (by omega)
    rw [max_eq_right hpc] at hfetch
    exact fetchCrashes_of_fetch_error h hfetch
  · have hfetch := State.fetch_outside_memory (s := s) (by omega)
    rw [max_eq_left (by omega)] at hfetch
    exact fetchCrashes_of_fetch_error h hfetch
  · exact fetchCrashes_of_fetch_error h (State.fetch_high_unwritten hpc hhi)
  · exact fetchCrashes_of_fetch_error h (State.fetch_low_unwritten hpc hhi hlo)

/-! ## Every step answers a next state -/

/-- An instruction is a rule, completed or faulted, and both ends are next states (R241). -/
theorem exec_next (i : Instr) (s : State) : ∃ t, exec i s = .next t := by
  obtain ⟨r, hexec, -⟩ := exec_readsFirst i s
  rw [hexec]
  exact finish_next i s r

theorem State.cycle_next (s : State) : ∃ t, s.cycle = .next t := by
  cases hfetch : s.fetch with
  | error f => exact ⟨_, State.cycle_of_fetch_error hfetch⟩
  | ok op =>
    cases hdecode : decode op with
    | ok i =>
      rw [State.cycle_of_decoded hfetch hdecode]
      exact exec_next i _
    | error e => exact ⟨_, State.cycle_of_rejected hfetch hdecode⟩

theorem State.cpuExec_next (s : State) : ∃ t, s.cpuExec = .next t := by
  rw [State.cpuExec]
  split
  · exact s.cycle_next
  · exact ⟨s, rfl⟩

theorem State.unscheduled_next (s : State) : ∃ t, s.unscheduled = .next t := by
  rw [State.unscheduled]
  split
  · exact State.cpuExec_next _
  · split
    · exact ⟨_, rfl⟩
    · exact State.cpuExec_next _
  · exact ⟨s, rfl⟩

theorem agentStep_next (e : AgentStep) (s : State) : ∃ t, agentStep e s = .next t := by
  cases e with
  | exec r => exact State.cpuExec_next _
  | _ => exact ⟨_, rfl⟩

theorem step_next (s : State) : ∃ t, step s = .next t := by
  rw [step]
  split
  · exact s.unscheduled_next
  · exact agentStep_next _ _

/-- Settles O9: only a CPU cycle runs a rule, and every rule ends in a next state. -/
theorem everyStepAnswersNext : Obligations.EveryStepAnswersNext := ⟨exec_next, step_next⟩

end Sys2Proof.Machine
end

section
/-! Control transfer: what each instruction of the family leaves in PC and on the stack, that no other instruction
touches the stack, and that nested calls return to their callers (40_control_flow.md). -/

namespace Sys2Proof.Machine

/-! ## Jump targets (R94, R121, R124) -/

@[simp] theorem toNat_zextAddr (nnn : Addr) : (zextAddr nnn).toNat = nnn.toNat :=
  BitVec.toNat_setWidth_of_le (by decide)

@[simp] theorem toNat_zextByte (b : Byte) : (zextByte b).toNat = b.toNat :=
  BitVec.toNat_setWidth_of_le (by decide)

/-- A byte and a 12-bit address never add up to 2^16. -/
theorem toNat_zextByte_add_zextAddr (a : Byte) (nnn : Addr) :
    (zextByte a + zextAddr nnn).toNat = a.toNat + nnn.toNat := by
  have ha := a.isLt
  have hn := nnn.isLt
  rw [BitVec.toNat_add, toNat_zextByte, toNat_zextAddr, Nat.mod_eq_of_lt (by omega)]

theorem State.setPc_onlyPc (s : State) (a : Word) : onlyPc s (s.setPc a) := rfl

/-- Settles O10: SYS is the next state itself. -/
theorem sysHasNoEffect : Obligations.SysHasNoEffect := fun _ _ => rfl

/-- Settles O11: JP is one write of PC. -/
theorem jpSetsPc : Obligations.JpSetsPc :=
  fun nnn s => ⟨s.setPc (zextAddr nnn), rfl, toNat_zextAddr nnn, s.setPc_onlyPc _⟩

/-- Settles O12: the sum fits the 16 bits of PC. -/
theorem jpV0GoesToTheFullSum : Obligations.JpV0GoesToTheFullSum := by
  intro nnn a s h
  refine ⟨s.setPc (zextByte a + zextAddr nnn), ?_, toNat_zextByte_add_zextAddr a nnn, s.setPc_onlyPc _⟩
  rw [exec, execJpV0, State.readV_ok.mpr h, ok_bind, finish_ok]

/-- Settles O19: the cycle fetches the JP, and its target is the PC the cycle began with. -/
theorem selfJumpParks : Obligations.SelfJumpParks := by
  intro s u hi lo nnn hmoves _ hhi hlo hpc hdecode hself
  have htarget : zextAddr nnn = u.pc :=
    BitVec.eq_of_toNat_eq (by rw [toNat_zextAddr, cpuMoves_pc hmoves, hself])
  rw [cpuMoves_step_of_decoded hpc hhi hlo hmoves hdecode]
  simp [exec, execJp, State.setPc, htarget]

/-! ## Skips (R125-R128) -/

/-- Settles O15: both read Vx and skip on a test of the byte. -/
theorem byteSkips : Obligations.ByteSkips := by
  intro x kk a s h
  have hx := State.readV_ok.mpr h
  constructor
  · simp [exec, execSeVxKk, hx, State.skipIf_eq]
  · simp [exec, execSneVxKk, hx, State.skipIf_eq]

/-- Settles O16: both read Vx and Vy and skip on a test of the two. -/
theorem registerSkips : Obligations.RegisterSkips := by
  intro x y a b s hx hy
  have hx := State.readV_ok.mpr hx
  have hy := State.readV_ok.mpr hy
  constructor
  · simp [exec, execSeVxVy, hx, hy, State.skipIf_eq]
  · simp [exec, execSneVxVy, hx, hy, State.skipIf_eq]

/-! ## CALL and RET (R122, R123) -/

theorem State.push_of_lt {s : State} (h : s.sp.val < 16) (a : Word) : ∃ t, s.push a = .ok t := by
  cases hp : s.push a with
  | ok t => exact ⟨t, rfl⟩
  | error f => have := (State.push_error hp).1; omega

theorem State.push_of_full {s : State} (h : s.sp.val = 16) (a : Word) : s.push a = .error (.stackOverflow 16) := by
  cases hp : s.push a with
  | ok t => have := (State.push_ok hp).1; omega
  | error f => rw [(State.push_error hp).2]

theorem State.pop_of_pos {s : State} (h : 0 < s.sp.val) : ∃ a t, s.pop = .ok (a, t) := by
  cases hp : s.pop with
  | ok r => exact ⟨r.1, r.2, rfl⟩
  | error f => have := (State.pop_error hp).1; omega

theorem State.pop_of_empty {s : State} (h : s.sp.val = 0) : s.pop = .error (.stackUnderflow 0) := by
  cases hp : s.pop with
  | ok r => have := (State.pop_ok hp).1; omega
  | error f => rw [(State.pop_error hp).2]

theorem encode_call (nnn : Addr) : encode (.call nnn) = BitVec.ofNat 16 (0x2000 + nnn.toNat) := by
  have hn := nnn.isLt
  apply BitVec.eq_of_toNat_eq
  rw [encode, formatNNN, BitVec.toNat_append, ← Nat.shiftLeft_add_eq_or_of_lt hn, BitVec.toNat_ofNat,
    Nat.mod_eq_of_lt (by omega)]
  rfl

/-- Settles O13: the push says which entry is written and when there is none left. -/
theorem callPushesAndJumps : Obligations.CallPushesAndJumps := by
  refine fun nnn s => ⟨fun hlt => ?_, fun hfull => ?_⟩
  · obtain ⟨t, hpush⟩ := State.push_of_lt hlt s.pc
    obtain ⟨-, hsp, htop, hrest, hframe⟩ := State.push_ok hpush
    refine ⟨t.setPc (zextAddr nnn), by simp [exec, execCall, hpush], htop, hrest, hsp, toNat_zextAddr nnn, ?_⟩
    rw [hframe]
    rfl
  · refine ⟨_, by rw [exec, execCall, State.push_of_full hfull, error_bind, finish_error], ?_⟩
    rw [← encode_call]
    rfl

/-- Settles O14: the pop says which entry PC takes and when there is none. -/
theorem retPopsIntoPc : Obligations.RetPopsIntoPc := by
  refine fun s => ⟨fun hpos => ?_, fun hempty => ?_⟩
  · obtain ⟨a, t, hpop⟩ := State.pop_of_pos hpos
    obtain ⟨-, hsp, htop, hframe⟩ := State.pop_ok hpop
    refine ⟨t.setPc a, by simp [exec, execRet, hpop], htop, hsp, ?_⟩
    rw [hframe]
    rfl
  · refine ⟨_, by rw [exec, execRet, State.pop_of_empty hempty, error_bind, finish_error], ?_⟩
    rfl

/-! ## The stack under the other instructions (R131) -/

/-- Where the rule completes, its next state has the property. -/
def RuleEnsures (P : State → Prop) (r : Except Fault State) : Prop := ∀ t, r = .ok t → P t

theorem RuleEnsures.of_ok {P : State → Prop} {t : State} (h : P t) : RuleEnsures P (.ok t) := by
  rintro _ ⟨⟩
  exact h

/-- A rule that begins with a read or a check: what follows ensures the property, whatever that gives. -/
theorem RuleEnsures.of_bind {α : Type} {P : State → Prop} {r : Except Fault α} {k : α → Except Fault State}
    (h : ∀ a, RuleEnsures P (k a)) : RuleEnsures P (r >>= k) := by
  intro t ht
  obtain ⟨a, -, hk⟩ := bind_ok ht
  exact h a t hk

/-- From `s` to `t` SP and every stack entry are kept. -/
def KeepsStack (s t : State) : Prop := t.sp = s.sp ∧ t.stack = s.stack

namespace KeepsStack

theorem trans {s t u : State} (hst : KeepsStack s t) (htu : KeepsStack t u) : KeepsStack s u :=
  ⟨htu.1.trans hst.1, htu.2.trans hst.2⟩

theorem of_onlyV {s t : State} (h : onlyV s t) : KeepsStack s t := by rw [h]; exact ⟨rfl, rfl⟩

theorem skipIf (s : State) (c : Bool) : KeepsStack s (s.skipIf c) := by rw [State.skipIf_eq]; exact ⟨rfl, rfl⟩

theorem setDisp (s : State) (d : Display) : KeepsStack s (s.setDisp d) := ⟨rfl, rfl⟩

/-- A rule that faults instead of completing keeps the stack too (R241). -/
theorem of_finish {i : Instr} {s t : State} {r : Except Fault State} (h : finish i s r = .next t)
    (hr : RuleEnsures (KeepsStack s) r) : KeepsStack s t := by
  rcases finish_cases h with h | ⟨f, -, rfl⟩
  · exact hr t h
  · exact ⟨rfl, rfl⟩

end KeepsStack

open KeepsStack RuleEnsures

/-- Instructions in groups by how many reads and checks come before the write, and by what is written. -/
theorem exec_keepsStack {i : Instr} {s t : State} (hret : i ≠ .ret) (hcall : ∀ nnn, i ≠ .call nnn)
    (h : exec i s = .next t) : KeepsStack s t := by
  cases i with
  | ret => exact absurd rfl hret
  | call nnn => exact absurd rfl (hcall nnn)
  | cls | sys _ | jp _ | ldI _ | ldVxKk _ _ | rnd _ _ => cases h; exact ⟨rfl, rfl⟩
  | ldVxK x =>
    rw [exec, execLdVxK] at h
    split at h <;> cases h <;> exact ⟨rfl, rfl⟩
  | jpV0 _ | ldVxVy _ _ | ldFVx _ | ldVxDt _ | ldDtVx _ | ldStVx _ =>
    exact of_finish h (of_bind fun _ => of_ok ⟨rfl, rfl⟩)
  | addIVx _ => exact of_finish h (of_bind fun _ => of_bind fun _ => of_ok ⟨rfl, rfl⟩)
  | ldBVx _ | ldMemVx _ =>
    exact of_finish h (of_bind fun _ => of_bind fun _ => of_bind fun _ => of_ok ⟨rfl, rfl⟩)
  | seVxKk _ _ | sneVxKk _ _ => exact of_finish h (of_bind fun _ => of_ok (skipIf s _))
  | seVxVy _ _ | sneVxVy _ _ | skp _ | sknp _ =>
    exact of_finish h (of_bind fun _ => of_bind fun _ => of_ok (skipIf s _))
  | addVxKk x _ | shrVxVy x _ | shlVxVy x _ =>
    exact of_finish h (of_bind fun _ => of_ok (of_onlyV (s.commit_onlyV x _ _)))
  | orVxVy x _ | andVxVy x _ | xorVxVy x _ | addVxVy x _ | subVxVy x _ | subnVxVy x _ =>
    exact of_finish h (of_bind fun _ => of_bind fun _ => of_ok (of_onlyV (s.commit_onlyV x _ _)))
  | ldVxMem _ =>
    exact of_finish h (of_bind fun _ => of_bind fun _ => of_bind fun bs =>
      of_ok ((of_onlyV (State.setRegs_onlyV bs s 0)).trans ⟨rfl, rfl⟩))
  | drw _ _ _ =>
    exact of_finish h (of_bind fun _ => of_bind fun _ => of_bind fun _ => of_bind fun _ => of_bind fun _ =>
      of_ok ((setDisp s _).trans (of_onlyV (State.setFlag_onlyV _ _))))

/-- Settles O17: only a push or a pop writes SP or an entry. -/
theorem onlyCallAndRetTouchTheStack : Obligations.OnlyCallAndRetTouchTheStack :=
  fun _ _ _ h hret hcall => exec_keepsStack hret hcall h

/-! ## Nested calls (R132) -/

/-- From `s` to `t` SP is kept, and so is every entry below it: the return addresses of the calls `s` is in. -/
def KeepsReturns (s t : State) : Prop := t.sp = s.sp ∧ ∀ j : Nat, j < s.sp.val → t.stack[j]? = s.stack[j]?

theorem KeepsReturns.trans {s t u : State} (hst : KeepsReturns s t) (htu : KeepsReturns t u) : KeepsReturns s u := by
  obtain ⟨hsp, hstack⟩ := hst
  obtain ⟨hsp', hstack'⟩ := htu
  exact ⟨hsp'.trans hsp, fun j hj => (hstack' j (by rwa [hsp])).trans (hstack j hj)⟩

/-- If what runs inside a call keeps the call's own return address and those below it, the RET that follows goes back
to the caller. -/
theorem ret_returns {nnn : Addr} {s t u : State} (hlt : s.sp.val < 16) (hcall : exec (.call nnn) s = .next t)
    (hin : KeepsReturns t u) : ∃ v, exec .ret u = .next v ∧ v.pc = s.pc ∧ KeepsReturns s v := by
  obtain ⟨t', hcall', htop, hbelow, htsp, -, -⟩ := (callPushesAndJumps nnn s).1 hlt
  obtain rfl : t' = t := Host.Outcome.next.inj (hcall'.symm.trans hcall)
  obtain ⟨husp, hkept⟩ := hin
  have hdepth : u.sp.val = s.sp.val + 1 := by rw [husp, htsp]
  obtain ⟨v, hret, hpc, hvsp, hframe⟩ := (retPopsIntoPc u).1 (by omega)
  have hstack : v.stack = u.stack := by rw [hframe]
  refine ⟨v, hret, ?_, Fin.ext (by omega), fun j hj => ?_⟩
  · rw [hdepth, Nat.add_sub_cancel, hkept _ (by omega), htop] at hpc
    exact (Option.some.inj hpc).symm
  · rw [hstack, hkept j (by omega), hbelow j (by omega)]

theorem WellNested.keepsReturns {s t : State} (h : WellNested s t) : KeepsReturns s t := by
  induction h with
  | nil s => exact ⟨rfl, fun _ _ => rfl⟩
  | quiet s t u hsp hstack _ ih => exact KeepsReturns.trans ⟨hsp, fun _ _ => by rw [hstack]⟩ ih
  | call s t u v w nnn hlt hcall _ hret _ ihin ihafter =>
    obtain ⟨v', hret', -, hback⟩ := ret_returns hlt hcall ihin
    obtain rfl : v' = v := Host.Outcome.next.inj (hret'.symm.trans hret)
    exact hback.trans ihafter

/-- Settles O18: a properly nested run keeps the return addresses, so RET finds its own CALL's. -/
theorem returnRestoresTheCallersPc : Obligations.ReturnRestoresTheCallersPc := by
  intro nnn s t u hlt hcall hin
  obtain ⟨v, hret, hpc, hsp, hstack⟩ := ret_returns hlt hcall hin.keepsReturns
  exact ⟨v, hret, hpc, hsp, hstack⟩

end Sys2Proof.Machine
end

section
/-! The ALU and register moves: what a commit leaves in the registers, that the whole family does nothing but commit or
fault on an unwritten register, and the result and flag of each instruction as arithmetic (41_alu.md). -/

namespace Sys2Proof.Machine

/-! ## One register written (R142, R144, R153) -/

/-- One register write: that register, and nothing else. -/
theorem State.setReg_leaves (s : State) (x : Nibble) (b : Byte) :
    (s.setReg x b).reg x = .held b ∧ (∀ k : Nibble, k ≠ x → (s.setReg x b).reg k = s.reg k) ∧ onlyV s (s.setReg x b) :=
  ⟨s.reg_setReg_same x b, fun k hk => s.reg_setReg_other x k b hk, rfl⟩

theorem State.setReg_comm (s : State) {x y : Nibble} (h : x ≠ y) (a b : Byte) :
    (s.setReg x a).setReg y b = (s.setReg y b).setReg x a := by
  have : x.toNat ≠ y.toNat := fun e => h (BitVec.eq_of_toNat_eq e)
  simp only [State.setReg, Vector.set_comm _ _ this]

/-- Settles O20: both are one register write, LD Vx, Vy after the read of Vy. -/
theorem registerLoadsWriteVx : Obligations.RegisterLoadsWriteVx := by
  intro x y kk b s
  refine ⟨⟨_, rfl, s.setReg_leaves x kk⟩, fun hy => ⟨_, ?_, s.setReg_leaves x b⟩⟩
  rw [exec, execLdVxVy, State.readV_ok.mpr hy, ok_bind, finish_ok]

/-- Settles O21: RND is one register write. -/
theorem rndMasksTheRandomByte : Obligations.RndMasksTheRandomByte :=
  fun x _ s => ⟨_, rfl, s.setReg_leaves x _⟩

/-! ## The order of result and flag (R141) -/

/-- The same state of a block whose `VF_ORDER` is `o`. -/
def State.withVfOrder (s : State) (o : VfOrder) : State := { s with config := { s.config with vfOrder := o } }

theorem State.withVfOrder_self (s : State) : s.withVfOrder s.config.vfOrder = s := rfl

/-- Unless the destination is VF, the result may as well be written first. -/
theorem State.commit_of_ne {x : Nibble} (hx : x ≠ vf) (s : State) (r f : Byte) :
    s.commit x r (some f) = (s.setReg x r).setReg vf f := by
  simp only [State.commit]
  split
  · rfl
  · rw [State.setReg_comm s hx]

theorem State.commit_withVfOrder {x : Nibble} (hx : x ≠ vf) (s : State) (o : VfOrder) (r : Byte) (f : Option Byte) :
    (s.withVfOrder o).commit x r f = (s.commit x r f).withVfOrder o := by
  cases f with
  | none => rfl
  | some f => rw [State.commit_of_ne hx, State.commit_of_ne hx]; rfl

@[simp] theorem State.commit_config (s : State) (x : Nibble) (r : Byte) (f : Option Byte) :
    (s.commit x r f).config = s.config := by
  rw [s.commit_onlyV x r f]

theorem State.commit_keepsRegsBut (s : State) (x : Nibble) (r : Byte) (f : Option Byte) :
    keepsRegsBut s (s.commit x r f) x := by
  cases f with
  | none => exact fun k hx _ => s.reg_setReg_other x k r hx
  | some f =>
    obtain ⟨-, hregs, -⟩ := s.commit_aluLeaves x r f
    exact hregs

/-! ## The family as a whole (R141, R154) -/

/-- An ALU rule with destination x, begun in `s`, as `VF_ORDER` varies: it commits one and the same result and flag, or
faults on one and the same unwritten cell. -/
inductive AluRule (s : State) (x : Nibble) : (VfOrder → Except Fault State) → Prop where
  | commits (r : Byte) (f : Option Byte) : AluRule s x fun o => .ok ((s.withVfOrder o).commit x r f)
  | faults {c : CellName} (h : s.lacks c) : AluRule s x fun _ => .error (.unwritten c)

/-- A rule that begins with the read of a register. -/
theorem AluRule.of_readV {s : State} {x z : Nibble} {k : Byte → VfOrder → Except Fault State}
    (hk : ∀ a, AluRule s x (k a)) : AluRule s x fun o => (s.withVfOrder o).readV z >>= fun a => k a o := by
  have hread (o : VfOrder) : (s.withVfOrder o).readV z = s.readV z := rfl
  simp only [hread]
  cases hz : s.readV z with
  | ok a => exact hk a
  | error f =>
    obtain ⟨hlacks, rfl⟩ := State.readV_error.mp hz
    exact faults (c := .v z) hlacks

/-- Every instruction of the family follows an ALU rule, whatever `VF_ORDER` is: grouped by how many registers it
reads. -/
theorem exec_aluRule {i : Instr} {x : Nibble} (h : aluDest i = some x) (s : State) :
    ∃ rule, AluRule s x rule ∧ ∀ o, exec i (s.withVfOrder o) = finish i (s.withVfOrder o) (rule o) := by
  cases i with
  | ldVxKk _ kk => cases h; exact ⟨_, .commits kk none, fun _ => rfl⟩
  | rnd _ kk => cases h; exact ⟨_, .commits (s.randomPort &&& kk) none, fun _ => rfl⟩
  | ldVxVy _ _ => cases h; exact ⟨_, .of_readV fun _ => .commits _ none, fun _ => rfl⟩
  | addVxKk _ kk =>
    cases h; exact ⟨_, .of_readV fun a => .commits (a + kk) (addiFlag s.config a kk), fun _ => rfl⟩
  | shrVxVy _ _ | shlVxVy _ _ => cases h; exact ⟨_, .of_readV fun _ => .commits _ _, fun _ => rfl⟩
  | orVxVy _ _ | andVxVy _ _ | xorVxVy _ _ | addVxVy _ _ | subVxVy _ _ | subnVxVy _ _ =>
    cases h; exact ⟨_, .of_readV fun _ => .of_readV fun _ => .commits _ _, fun _ => rfl⟩
  | _ => cases h

/-- How an instruction of the family ends, and how it ends from the same state under any other `VF_ORDER`. -/
theorem exec_alu_cases {i : Instr} {x : Nibble} {s t : State} (hi : aluDest i = some x) (ht : exec i s = .next t) :
    (∃ r f, t = s.commit x r f ∧ ∀ o, exec i (s.withVfOrder o) = .next ((s.withVfOrder o).commit x r f)) ∨
    ∃ c, s.lacks c ∧ t = s.takeFault (.unwritten c) (s.pc - 2) (some (encode i)) ∧
      ∀ o, exec i (s.withVfOrder o) =
        .next ((s.withVfOrder o).takeFault (.unwritten c) (s.pc - 2) (some (encode i))) := by
  obtain ⟨rule, hrule, hexec⟩ := exec_aluRule hi s
  have hself := hexec s.config.vfOrder
  rw [s.withVfOrder_self, ht] at hself
  cases hrule with
  | commits r f => exact .inl ⟨r, f, Host.Outcome.next.inj hself, hexec⟩
  | faults h => exact .inr ⟨_, h, Host.Outcome.next.inj hself, hexec⟩

/-- Settles O27: a commit writes Vx and VF alone, and the one other outcome is the fault of a read. -/
theorem aluWritesOnlyVxAndVf : Obligations.AluWritesOnlyVxAndVf := by
  intro i x s t hi ht
  obtain ⟨r, f, rfl, -⟩ | ⟨c, hlacks, rfl, -⟩ := exec_alu_cases hi ht
  · exact .inl ⟨s.commit_onlyV x r f, s.commit_keepsRegsBut x r f⟩
  · exact .inr ⟨c, hlacks, rfl⟩

/-- Settles O28: the family sees `VF_ORDER` in the commit alone, and there only when x = 15. -/
theorem vfOrderMattersOnlyForVf : Obligations.VfOrderMattersOnlyForVf := by
  intro i x s t o hi hx ht
  obtain ⟨r, f, rfl, hexec⟩ | ⟨c, -, rfl, hexec⟩ := exec_alu_cases hi ht
  · refine (hexec o).trans ?_
    rw [State.commit_withVfOrder hx, State.withVfOrder, State.commit_config]
  · exact hexec o

/-! ## The result and flag of each instruction -/

/-- The bitwise ops, the adds and the subtractions leave their result and flag in Vx and VF. -/
theorem aluVxVy_leaves {i : Instr} {x y : Nibble} {s : State} {result flag : Byte → Byte → Byte} {a b r f : Byte}
    (hx : s.reg x = .held a) (hy : s.reg y = .held b) (hr : result a b = r) (hf : flag a b = f) :
    ∃ t, aluVxVy i x y s result flag = .next t ∧ aluLeaves s t x r f := by
  subst hr hf
  refine ⟨_, ?_, s.commit_aluLeaves x _ _⟩
  rw [aluVxVy, State.readV_ok.mpr hx, ok_bind, State.readV_ok.mpr hy, ok_bind, finish_ok]

/-- The shifts leave their result and flag in Vx and VF, whatever Vx held. -/
theorem shiftVy_leaves {i : Instr} {x y : Nibble} {s : State} {result flag : Byte → Byte} {b r f : Byte}
    (hy : s.reg y = .held b) (hr : result b = r) (hf : flag b = f) :
    ∃ t, shiftVy i x y s result flag = .next t ∧ aluLeaves s t x r f := by
  subst hr hf
  refine ⟨_, ?_, s.commit_aluLeaves x _ _⟩
  rw [shiftVy, State.readV_ok.mpr hy, ok_bind, finish_ok]

/-- Settles O23: each commits its bitwise result with the flag 0. -/
theorem bitwiseOpsClearVf : Obligations.BitwiseOpsClearVf := by
  intro x y a b s hx hy
  obtain ⟨t, hor, ht⟩ := aluVxVy_leaves (i := .orVxVy x y) hx hy rfl rfl
  obtain ⟨u, hand, hu⟩ := aluVxVy_leaves (i := .andVxVy x y) hx hy rfl rfl
  obtain ⟨w, hxor, hw⟩ := aluVxVy_leaves (i := .xorVxVy x y) hx hy rfl rfl
  exact ⟨t, u, w, hor, hand, hxor, _, _, _, ht, hu, hw,
    fun _ => ⟨BitVec.getLsbD_or, BitVec.getLsbD_and, BitVec.getLsbD_xor⟩⟩

theorem flagByte_decide (p : Prop) [Decidable p] : flagByte (decide p) = if p then 1 else 0 := by simp [flagByte]

/-- Settles O24: the byte's own addition is mod 256. -/
theorem addSetsCarry : Obligations.AddSetsCarry := fun _ _ a b _ hx hy =>
  aluVxVy_leaves hx hy (by bv_omega) (flagByte_decide _)

theorem byte_sub_eq (a b : Byte) : a - b = BitVec.ofNat 8 ((256 + a.toNat - b.toNat) % 256) := by bv_omega

theorem noBorrowFlag_eq (a b : Byte) : noBorrowFlag a b = if a.toNat ≥ b.toNat then 1 else 0 := flagByte_decide _

/-- Settles O25: SUBN is SUB with the operands exchanged. -/
theorem subtractionsSetNoBorrow : Obligations.SubtractionsSetNoBorrow := by
  intro x y a b s hx hy
  obtain ⟨t, hsub, ht⟩ := aluVxVy_leaves (i := .subVxVy x y) (result := fun a b => a - b) (flag := noBorrowFlag)
    hx hy (byte_sub_eq a b) (noBorrowFlag_eq a b)
  obtain ⟨u, hsubn, hu⟩ := aluVxVy_leaves (i := .subnVxVy x y) (result := fun a b => b - a)
    (flag := fun a b => noBorrowFlag b a) hx hy (byte_sub_eq b a) (noBorrowFlag_eq b a)
  exact ⟨t, u, hsub, hsubn, ht, hu⟩

/-- A bit as a flag is the bit as a number. -/
theorem flagByte_getLsbD (t : Byte) (j : Nat) : flagByte (t.getLsbD j) = BitVec.ofNat 8 (t.toNat / 2 ^ j % 2) := by
  rw [BitVec.getLsbD, Nat.testBit_eq_decide_div_mod_eq, flagByte_decide]
  obtain h | h := Nat.mod_two_eq_zero_or_one (t.toNat / 2 ^ j) <;> rw [h] <;> rfl

theorem shrFlag_eq (t : Byte) : shrFlag t = BitVec.ofNat 8 (t.toNat % 2) := by
  rw [shrFlag, flagByte_getLsbD, pow_zero, Nat.div_one]

theorem shlFlag_eq (t : Byte) : shlFlag t = BitVec.ofNat 8 (t.toNat / 128) := by
  have ht := t.isLt
  rw [shlFlag, flagByte_getLsbD, Nat.mod_eq_of_lt (by omega)]
  rfl

/-- Settles O26: neither shift reads Vx, and a shift by one is a division or a multiplication by 2. -/
theorem shiftsCopyVyFirst : Obligations.ShiftsCopyVyFirst := by
  intro x y b s hy
  have hshr : b >>> 1 = BitVec.ofNat 8 (b.toNat / 2) := by bv_omega
  have hshl : b <<< 1 = BitVec.ofNat 8 (b.toNat * 2 % 256) := by bv_omega
  obtain ⟨t, hexecShr, ht⟩ := shiftVy_leaves (i := .shrVxVy x y) (x := x) (result := fun t => t >>> 1) hy hshr (shrFlag_eq b)
  obtain ⟨u, hexecShl, hu⟩ := shiftVy_leaves (i := .shlVxVy x y) (x := x) (result := fun t => t <<< 1) hy hshl (shlFlag_eq b)
  exact ⟨t, u, hexecShr, hexecShl, ht, hu⟩

/-! ## ADD Vx, kk (R143) -/

theorem addiFlag_of_carry {c : Config} {a kk : Byte} (h : a.toNat + kk.toNat > 255) : addiFlag c a kk = some 1 := if_pos h

theorem addiFlag_clear {c : Config} {a kk : Byte} (h : a.toNat + kk.toNat ≤ 255) (hc : c.addiVf = .clear) :
    addiFlag c a kk = some 0 := by
  rw [addiFlag, if_neg (by omega), hc]

theorem addiFlag_keep {c : Config} {a kk : Byte} (h : a.toNat + kk.toNat ≤ 255) (hc : c.addiVf = .keep) :
    addiFlag c a kk = none := by
  rw [addiFlag, if_neg (by omega), hc]

/-- Settles O22: the three clauses are the three answers of `addiFlag`. -/
theorem addByteSetsCarry : Obligations.AddByteSetsCarry := by
  intro x kk a s hx
  refine ⟨s.commit x (a + kk) (addiFlag s.config a kk), ?_, fun hcarry => ?_, fun hle hc => ?_, fun hle hc => ?_⟩
  · rw [exec, execAddVxKk, State.readV_ok.mpr hx, ok_bind, finish_ok]
  · have hsum : a + kk = BitVec.ofNat 8 (a.toNat + kk.toNat - 256) := by bv_omega
    rw [addiFlag_of_carry hcarry, hsum]
    exact s.commit_aluLeaves x _ _
  · have hsum : a + kk = BitVec.ofNat 8 (a.toNat + kk.toNat) := by bv_omega
    rw [addiFlag_clear hle hc, hsum]
    exact s.commit_aluLeaves x _ _
  · have hsum : a + kk = BitVec.ofNat 8 (a.toNat + kk.toNat) := by bv_omega
    rw [addiFlag_keep hle hc, hsum, State.commit_none]
    obtain ⟨hdest, hothers, honlyV⟩ := s.setReg_leaves x (BitVec.ofNat 8 (a.toNat + kk.toNat))
    exact ⟨honlyV, hdest, hothers⟩

end Sys2Proof.Machine
end

section
/-! The index register and memory transfers: what each instruction of the family leaves in I, in memory and in the
registers when its operands hold values and its block lies inside memory (42_index_memory.md). -/

namespace Sys2Proof.Machine

/-! ## Writing I (R170-R172) -/

theorem State.setI_onlyI (s : State) (a : Word) : onlyI s (s.setI a) := rfl

theorem zextAddr_eq (nnn : Addr) : zextAddr nnn = BitVec.ofNat 16 nnn.toNat := by
  have hn := nnn.isLt
  apply BitVec.eq_of_toNat_eq
  rw [toNat_zextAddr, BitVec.toNat_ofNat, Nat.mod_eq_of_lt (by omega)]

theorem add_zextByte_eq (a : Word) (b : Byte) : a + zextByte b = BitVec.ofNat 16 ((a.toNat + b.toNat) % 65536) := by
  apply BitVec.eq_of_toNat_eq
  rw [BitVec.toNat_add, toNat_zextByte, BitVec.toNat_ofNat, Nat.mod_mod]

/-- Settles O29: LD I is one write of I, and so is ADD I after the reads of I and Vx. -/
theorem indexLoadAndAdd : Obligations.IndexLoadAndAdd := by
  intro nnn x a b s
  refine ⟨⟨_, rfl, congrArg Cell.held (zextAddr_eq nnn), s.setI_onlyI _⟩, fun hi hx => ?_⟩
  refine ⟨s.setI (a + zextByte b), ?_, congrArg Cell.held (add_zextByte_eq a b), s.setI_onlyI _⟩
  rw [exec, execAddIVx, State.readI_ok.mpr hi, ok_bind, State.readV_ok.mpr hx, ok_bind, finish_ok]

theorem glyphAddress_eq (c : Config) (b : Byte) :
    glyphAddress c b = BitVec.ofNat 16 (if c.fontHi = .unmasked then 5 * b.toNat else 5 * (b.toNat % 16)) := by
  cases hc : c.fontHi <;> simp [glyphAddress, hc, fontBase, glyphBytes]

/-- Settles O30: LD F is one write of I, after the read of Vx. -/
theorem glyphAddressIsFiveTimesTheDigit : Obligations.GlyphAddressIsFiveTimesTheDigit := by
  intro x b s hx
  refine ⟨s.setI (glyphAddress s.config b), ?_, s.setI_onlyI _, congrArg Cell.held (glyphAddress_eq s.config b)⟩
  rw [exec, execLdFVx, State.readV_ok.mpr hx, ok_bind, finish_ok]

/-! ## Storing a block (R173, R174) -/

theorem State.writeBytes_keepsBytesBut (s : State) (a : Nat) (bs : List Byte) :
    keepsBytesBut s (s.writeBytes a bs) a bs.length :=
  fun d hout => s.byteAt_writeBytes_outside a d bs hout

/-- LD B completes when Vx and I hold values and the three bytes lie inside memory. -/
theorem exec_ldBVx_of_held {s : State} {x : Nibble} {b : Byte} {base : Word} (hx : s.reg x = .held b)
    (hi : s.i = .held base) (hrange : base.toNat + 2 < 4095) :
    exec (.ldBVx x) s = .next (s.writeBytes base.toNat (bcdDigits b)) := by
  have hcheck : checkRange base.toNat 3 = .ok () := checkRange_ok.mpr (by simp only [memSize]; omega)
  rw [exec, execLdBVx, State.readV_ok.mpr hx, ok_bind, State.readI_ok.mpr hi, ok_bind, hcheck, ok_bind, finish_ok]

/-- The digits of a byte are decimal digits, and the byte is the number they write. -/
theorem bcdDigits_spec (b : Byte) :
    ∃ d₀ d₁ d₂ : Byte, bcdDigits b = [d₀, d₁, d₂] ∧ d₁.toNat < 10 ∧ d₂.toNat < 10 ∧
      100 * d₀.toNat + 10 * d₁.toNat + d₂.toNat = b.toNat := by
  have hb := b.isLt
  refine ⟨_, _, _, rfl, ?_⟩
  simp only [BitVec.toNat_ofNat]
  omega

/-- Settles O31: the three digits are stored in one block write, which is all that changes. -/
theorem bcdStoresThreeDigits : Obligations.BcdStoresThreeDigits := by
  intro x b base s hx hi hrange
  obtain ⟨d₀, d₁, d₂, hdigits, hd₁, hd₂, hsum⟩ := bcdDigits_spec b
  have hexec := exec_ldBVx_of_held hx hi hrange
  rw [hdigits] at hexec
  have hbyte (k : Nat) (d : Byte) := s.byteAt_writeBytes_inside base.toNat k d [d₀, d₁, d₂]
  exact ⟨_, hexec, ⟨d₀, d₁, d₂, hbyte 0 d₀ rfl, hbyte 1 d₁ rfl, hbyte 2 d₂ rfl, hd₁, hd₂, hsum⟩,
    s.writeBytes_keepsBytesBut base.toNat [d₀, d₁, d₂], rfl⟩

/-- The bytes of a block that holds `val r` for each register r of V0..Vx. -/
def blockBytes (x : Nibble) (val : Nibble → Byte) : List Byte := (List.range (blockLen x)).map fun k => val (BitVec.ofNat 4 k)

@[simp] theorem length_blockBytes (x : Nibble) (val : Nibble → Byte) : (blockBytes x val).length = x.toNat + 1 := by
  rw [blockBytes, List.length_map, List.length_range, blockLen]

theorem getElem?_blockBytes {x r : Nibble} (hr : r.toNat ≤ x.toNat) (val : Nibble → Byte) :
    (blockBytes x val)[r.toNat]? = some (val r) := by
  rw [blockBytes, List.getElem?_map, List.getElem?_range (by rw [blockLen]; omega)]
  simp

theorem advancedI_eq (base : Word) (x : Nibble) : advancedI base x = BitVec.ofNat 16 (base.toNat + x.toNat + 1) := by
  apply BitVec.eq_of_toNat_eq
  rw [advancedI, BitVec.toNat_ofNat, BitVec.toNat_ofNat, Nat.mod_mod]
  rfl

theorem State.dumped_eq (s : State) (base : Word) (x : Nibble) (val : Nibble → Byte) :
    s.dumped base x val = (s.writeBytes base.toNat (blockBytes x val)).setI (advancedI base x) := rfl

theorem State.dumped_keepsBytesBut (s : State) (base : Word) (x : Nibble) (val : Nibble → Byte) :
    keepsBytesBut s (s.dumped base x val) base.toNat (x.toNat + 1) := by
  have hblock := s.writeBytes_keepsBytesBut base.toNat (blockBytes x val)
  rw [length_blockBytes] at hblock
  rw [State.dumped_eq]
  exact hblock

/-- Settles O32: the dump is one block write and one write of I (`exec_ldMemVx_of_held`). -/
theorem dumpStoresTheRegisterBlock : Obligations.DumpStoresTheRegisterBlock := by
  intro x val base s hregs hi hrange
  exact ⟨_, exec_ldMemVx_of_held hregs hi hrange, fun r hr => State.byteAt_dumped hr, s.dumped_keepsBytesBut base x val,
    congrArg Cell.held (advancedI_eq base x), rfl⟩

/-! ## Loading a block (R175) -/

/-- The state a register load of the values `val` leaves (R175). -/
def State.loaded (s : State) (base : Word) (x : Nibble) (val : Nibble → Byte) : State :=
  (s.setRegs 0 (blockBytes x val)).setI (advancedI base x)

section Load

variable {s : State} {base : Word} {x : Nibble} {val : Nibble → Byte}

theorem State.readBytes_of_held {a : Nat} (hbytes : ∀ r : Nibble, r.toNat ≤ x.toNat → s.byteAt (a + r.toNat) = .held (val r)) :
    s.readBytes a (blockLen x) = .ok (blockBytes x val) := by
  refine State.readBytes_ok.mpr ⟨length_blockBytes x val, fun k b hk => ?_⟩
  have hx := x.isLt
  have hlt : k < x.toNat + 1 := by simpa using (List.getElem?_eq_some_iff.mp hk).1
  obtain ⟨r, rfl⟩ : ∃ r : Nibble, r.toNat = k := ⟨BitVec.ofNat 4 k, by rw [BitVec.toNat_ofNat]; omega⟩
  have hr : r.toNat ≤ x.toNat := by omega
  rw [getElem?_blockBytes hr, Option.some.injEq] at hk
  rw [hbytes r hr, hk]

/-- LD Vx, [I] completes when I and the bytes of the block hold values and the block lies inside memory. -/
theorem exec_ldVxMem_of_held (hbytes : ∀ r : Nibble, r.toNat ≤ x.toNat → s.byteAt (base.toNat + r.toNat) = .held (val r))
    (hi : s.i = .held base) (hrange : base.toNat + x.toNat < 4095) :
    exec (.ldVxMem x) s = .next (s.loaded base x val) := by
  have hcheck : checkRange base.toNat (blockLen x) = .ok () :=
    checkRange_ok.mpr (by simp only [blockLen, memSize]; omega)
  rw [exec, execLdVxMem, State.readI_ok.mpr hi, ok_bind, hcheck, ok_bind, State.readBytes_of_held hbytes, ok_bind, finish_ok,
    State.loaded]

/-- The block is written from V0 on, so Vr takes byte r of it, if there is one. -/
theorem State.reg_loaded (r : Nibble) : (s.loaded base x val).reg r = if r.toNat ≤ x.toNat then .held (val r) else s.reg r := by
  have hx := x.isLt
  have hregs := s.reg_setRegs (blockBytes x val) 0 r (by rw [length_blockBytes]; omega)
  rw [if_pos (Nat.zero_le _), Nat.sub_zero] at hregs
  refine hregs.trans ?_
  split_ifs with hr
  · rw [getElem?_blockBytes hr]
  · rw [List.getElem?_eq_none (by rw [length_blockBytes]; omega)]

theorem State.loaded_frame : s.loaded base x val = { s with v := (s.loaded base x val).v, i := (s.loaded base x val).i } := by
  have hregs : onlyV s (s.setRegs 0 (blockBytes x val)) := State.setRegs_onlyV _ s 0
  rw [State.loaded, hregs]
  rfl

end Load

/-- Settles O33: the load is one block of register writes and one write of I (`exec_ldVxMem_of_held`). -/
theorem loadFillsTheRegisterBlock : Obligations.LoadFillsTheRegisterBlock := by
  intro x val base s hbytes hi hrange
  exact ⟨_, exec_ldVxMem_of_held hbytes hi hrange, fun r hr => (State.reg_loaded r).trans (if_pos hr),
    fun r hr => (State.reg_loaded r).trans (if_neg (by omega)), congrArg Cell.held (advancedI_eq base x), State.loaded_frame⟩

end Sys2Proof.Machine
end

section
/-! The timer registers: each instruction of the family is one write of the register or timer it names, once the cell it
reads holds a value (43_timer_regs.md). -/

namespace Sys2Proof.Machine

/-- LD Vx, DT is one register write when DT holds a value (R190). -/
theorem exec_ldVxDt_of_held {s : State} {b : Byte} (hdt : s.dt = .held b) (x : Nibble) :
    exec (.ldVxDt x) s = .next (s.setReg x b) := by
  rw [exec, execLdVxDt, State.readDt_ok.mpr hdt, ok_bind, finish_ok]

section

variable {s : State} {x : Nibble} {b : Byte} (hx : s.reg x = .held b)

include hx

/-- LD DT, Vx is one write of DT when Vx holds a value (R191). -/
theorem exec_ldDtVx_of_held : exec (.ldDtVx x) s = .next (s.setDt b) := by
  rw [exec, execLdDtVx, State.readV_ok.mpr hx, ok_bind, finish_ok]

/-- LD ST, Vx is one write of ST when Vx holds a value (R192). -/
theorem exec_ldStVx_of_held : exec (.ldStVx x) s = .next (s.setSt b) := by
  rw [exec, execLdStVx, State.readV_ok.mpr hx, ok_bind, finish_ok]

end

/-- Settles O36: each of the three is one write, of Vx, of DT or of ST, which is all that changes. -/
theorem timerRegistersMove : Obligations.TimerRegistersMove := by
  intro x b s
  exact ⟨fun hdt => ⟨_, exec_ldVxDt_of_held hdt x, s.setReg_leaves x b⟩,
    fun hx => ⟨exec_ldDtVx_of_held hx, exec_ldStVx_of_held hx⟩⟩

end Sys2Proof.Machine
end

section
/-! Blocks at I that leave memory: the range check stands before every write, so its fault is the whole outcome
(42_index_memory.md R178, 44_display.md R210, 60_exceptions.md R234, R241). -/

namespace Sys2Proof

/-! ## Opcode words as numbers (R98) -/

theorem formatXKK_eq (g x : Nibble) (kk : Byte) :
    formatXKK g x kk = BitVec.ofNat 16 (0x1000 * g.toNat + 0x100 * x.toNat + kk.toNat) := by
  have hg := g.isLt
  have hx := x.isLt
  have hkk := kk.isLt
  apply BitVec.eq_of_toNat_eq
  rw [formatXKK, BitVec.toNat_append, BitVec.toNat_append, ← Nat.shiftLeft_add_eq_or_of_lt hkk,
    ← Nat.shiftLeft_add_eq_or_of_lt hx, Nat.shiftLeft_eq, Nat.shiftLeft_eq, BitVec.toNat_ofNat]
  omega

/-- The two low nibbles of an `XYN` word are a byte. -/
theorem formatXYN_eq (g x y n : Nibble) :
    formatXYN g x y n = BitVec.ofNat 16 (0x1000 * g.toNat + 0x100 * x.toNat + 0x10 * y.toNat + n.toNat) := by
  have hyn : (y ++ n : Byte).toNat = 0x10 * y.toNat + n.toNat := by
    rw [BitVec.toNat_append, ← Nat.shiftLeft_add_eq_or_of_lt n.isLt, Nat.shiftLeft_eq, Nat.mul_comm]
  rw [show formatXYN g x y n = formatXKK g x (y ++ n) from rfl, formatXKK_eq, hyn, Nat.add_assoc _ (0x10 * y.toNat)]

theorem formatXKK_group_F (x : Nibble) (kk : Byte) :
    formatXKK 0xF x kk = BitVec.ofNat 16 (0xF000 + kk.toNat + 0x100 * x.toNat) := by
  rw [formatXKK_eq, Nat.add_right_comm]
  rfl

end Sys2Proof

namespace Sys2Proof.Machine

/-! ## The fault of the range check -/

/-- A rule that has come to a range check its block fails crashes with MEM_RANGE, whatever was to follow. -/
theorem crashes_of_outside_memory {i : Instr} {s : State} {a n : Nat} {k : Unit → Except Fault State} {op : Word}
    (hop : encode i = op) (hn : n ≠ 0) (hout : 4095 < a + n) :
    ∃ t, finish i s (checkRange a n >>= k) = .next t ∧ crashes s t .memRange 1 op (.number (max 4095 a)) := by
  subst hop
  have hcheck : checkRange a n = .error (.memRange (max 4095 a)) := checkRange_error.mpr ⟨hn, hout, rfl⟩
  rw [hcheck, error_bind, finish_error]
  exact ⟨_, rfl, rfl⟩

/-- Settles O34: the registers read, each of the four comes to its range check before it writes anything. -/
theorem blockOutsideMemoryCrashes : Obligations.BlockOutsideMemoryCrashes := by
  intro x y n val b base s hbase
  have hi := State.readI_ok.mpr hbase
  refine ⟨fun hx hout => ?_, fun hregs hout => ?_, fun hout => ?_, fun hx hy hn hout => ?_⟩
  · rw [exec, execLdBVx, State.readV_ok.mpr hx, ok_bind, hi, ok_bind]
    exact crashes_of_outside_memory (formatXKK_group_F x 0x33) (by decide) hout
  · rw [exec, execLdMemVx, hi, ok_bind, State.readRegs_of_held hregs, ok_bind]
    exact crashes_of_outside_memory (formatXKK_group_F x 0x55) (Nat.succ_ne_zero _) hout
  · rw [exec, execLdVxMem, hi, ok_bind]
    exact crashes_of_outside_memory (formatXKK_group_F x 0x65) (Nat.succ_ne_zero _) hout
  · rw [exec, execDrw, State.readV_ok.mpr hx, ok_bind, State.readV_ok.mpr hy, ok_bind, hi, ok_bind]
    exact crashes_of_outside_memory (formatXYN_eq 0xD x y n) (Nat.ne_of_gt hn) hout

end Sys2Proof.Machine
end

section
/-! The display surface: what CLS and DRW leave of it, and that nothing else writes it (44_display.md). -/

namespace Sys2Proof.Machine

/-- Settles O39: CLS replaces the display by the clear one, and nothing else. -/
theorem clsClearsEveryPixel : Obligations.ClsClearsEveryPixel :=
  fun s => ⟨s.setDisp Display.clear, rfl, fun px py _ _ => Display.pixel_clear px py, rfl⟩

/-! ## One draw (R204-R209) -/

/-- What a sprite drawn at (ox, oy) makes of a display, and whether a pixel collided (R204, R207). -/
def Display.drawSprite (d : Display) (ox oy : Byte) (rows : List Byte) : Display × Bool :=
  drawPixels d false (spritePixels ox.toNat oy.toNat rows)

/-- A pixel of the grid that was on is covered by the sprite (R207). -/
def Display.collides (d : Display) (ox oy : Byte) (rows : List Byte) : Prop :=
  ∃ px py : Nat, px < 64 ∧ py < 32 ∧ spriteCovers ox oy rows px py ∧ d.pixel px py = true

section Sprite

variable {ox oy : Byte} {rows : List Byte} (hrows : rows.length ≤ 32) (d : Display) {px py : Nat}
include hrows

theorem Display.pixel_drawSprite_of_covers (hpx : px < 64) (hpy : py < 32) (h : spriteCovers ox oy rows px py) :
    (d.drawSprite ox oy rows).1.pixel px py = !d.pixel px py := by
  obtain ⟨hpixels, -⟩ := drawPixels_sprite d ox oy rows hrows
  exact (hpixels px py).1 ⟨hpx, hpy, h⟩

theorem Display.pixel_drawSprite_of_not_covers (h : ¬spriteCovers ox oy rows px py) :
    (d.drawSprite ox oy rows).1.pixel px py = d.pixel px py := by
  obtain ⟨hpixels, -⟩ := drawPixels_sprite d ox oy rows hrows
  exact (hpixels px py).2 fun ⟨_, _, hcovers⟩ => h hcovers

theorem Display.drawSprite_collision : (d.drawSprite ox oy rows).2 = true ↔ d.collides ox oy rows :=
  (drawPixels_sprite d ox oy rows hrows).2

/-- Every pixel is toggled as often by the second draw as by the first (R204). -/
theorem Display.drawSprite_drawSprite : ((d.drawSprite ox oy rows).1.drawSprite ox oy rows).1 = d := by
  refine Display.ext_pixel fun px py hpx hpy => ?_
  by_cases h : spriteCovers ox oy rows px py
  · rw [pixel_drawSprite_of_covers hrows _ hpx hpy h, pixel_drawSprite_of_covers hrows d hpx hpy h, Bool.not_not]
  · rw [pixel_drawSprite_of_not_covers hrows _ h, pixel_drawSprite_of_not_covers hrows d h]

/-- On the display a first draw left, a covered pixel is on exactly when it was off before. -/
theorem Display.collides_drawSprite :
    (d.drawSprite ox oy rows).1.collides ox oy rows ↔
      ∃ px py : Nat, px < 64 ∧ py < 32 ∧ spriteCovers ox oy rows px py ∧ d.pixel px py = false := by
  refine exists_congr fun px => exists_congr fun py => and_congr_right fun hpx => and_congr_right fun hpy =>
    and_congr_right fun hcovers => ?_
  rw [pixel_drawSprite_of_covers hrows d hpx hpy hcovers, Bool.not_eq_true']

end Sprite

/-- The state a draw leaves (R204, R208). -/
def State.drawn (s : State) (ox oy : Byte) (rows : List Byte) : State :=
  (s.setDisp (s.disp.drawSprite ox oy rows).1).setFlag (drwFlag s.config (s.disp.drawSprite ox oy rows).2)

/-- DRW completes when Vx, Vy, I and the bytes of the sprite hold values and these lie inside memory. -/
theorem exec_drw_of_ready {s : State} {x y n : Nibble} {ox oy : Byte} {base : Word} {rows : List Byte}
    (h : spriteReady s x y n ox oy base rows) : exec (.drw x y n) s = .next (s.drawn ox oy rows) := by
  obtain ⟨hx, hy, hi, hlength, hbytes⟩ := h
  have hread : s.readBytes base.toNat n.toNat = .ok rows :=
    State.readBytes_ok.mpr ⟨hlength, fun k b hk => (hbytes k b hk).2⟩
  have hcheck : checkRange base.toNat n.toNat = .ok () := by
    refine checkRange_ok.mpr (or_iff_not_imp_left.mpr fun hn => ?_)
    have hlast := (hbytes (n.toNat - 1) _ (List.getElem?_eq_getElem (by omega))).1
    simp only [memSize]
    omega
  rw [exec, execDrw, State.readV_ok.mpr hx, ok_bind, State.readV_ok.mpr hy, ok_bind, State.readI_ok.mpr hi, ok_bind, hcheck,
    ok_bind, hread, ok_bind, finish_ok]
  rfl

/-- A sprite has at most 15 rows. -/
theorem spriteReady.length_le {s : State} {x y n : Nibble} {ox oy : Byte} {base : Word} {rows : List Byte}
    (h : spriteReady s x y n ox oy base rows) : rows.length ≤ 32 := by
  obtain ⟨-, -, -, hlength, -⟩ := h
  have hn := n.isLt
  omega

theorem State.setFlag_reg_other (s : State) (f : Option Byte) {k : Nibble} (hk : k ≠ 15) :
    (s.setFlag f).reg k = s.reg k := by
  cases f with
  | none => rfl
  | some b => exact s.reg_setReg_other vf k b hk

@[simp] theorem State.setFlag_disp (s : State) (f : Option Byte) : (s.setFlag f).disp = s.disp := by rw [s.setFlag_onlyV f]

@[simp] theorem State.drawn_disp (s : State) (ox oy : Byte) (rows : List Byte) :
    (s.drawn ox oy rows).disp = (s.disp.drawSprite ox oy rows).1 :=
  State.setFlag_disp _ _

theorem State.drawn_reg_other (s : State) (ox oy : Byte) (rows : List Byte) {k : Nibble} (hk : k ≠ 15) :
    (s.drawn ox oy rows).reg k = s.reg k :=
  State.setFlag_reg_other _ _ hk

theorem State.drawn_frame (s : State) (ox oy : Byte) (rows : List Byte) :
    s.drawn ox oy rows = { s with v := (s.drawn ox oy rows).v, disp := (s.drawn ox oy rows).disp } := by
  have honlyV : onlyV (s.setDisp _) (s.drawn ox oy rows) := State.setFlag_onlyV _ _
  rw [onlyV] at honlyV
  rw [honlyV]
  rfl

/-- The flag `drwFlag` answers is the one R208 asks for. -/
theorem drawFlag_setFlag {s t : State} {coll : Bool} {collided : Prop} (ht : t.reg 15 = s.reg 15)
    (hcoll : coll = true ↔ collided) :
    drawFlag s collided ((t.setFlag (drwFlag s.config coll)).reg 15) := by
  have hwritten (b : Byte) : (t.setReg vf b).reg 15 = .held b := t.reg_setReg_same vf b
  cases coll with
  | true => exact ⟨fun _ => hwritten 1, fun h => absurd (hcoll.mp rfl) h⟩
  | false =>
    refine ⟨fun h => absurd (hcoll.mpr h) Bool.false_ne_true, fun _ => ?_⟩
    cases hc : s.config.drwVf with
    | clear => simpa [drwFlag, hc, State.setFlag] using hwritten 0
    | keep => simpa [drwFlag, hc, State.setFlag] using ht

theorem State.drawn_drawFlag (s : State) {ox oy : Byte} {rows : List Byte} (hrows : rows.length ≤ 32) :
    drawFlag s (s.disp.collides ox oy rows) ((s.drawn ox oy rows).reg 15) :=
  drawFlag_setFlag rfl (s.disp.drawSprite_collision hrows)

/-- Settles O40: DRW draws the sprite (`exec_drw_of_ready`) and writes its flag. -/
theorem drwTogglesExactlyTheSprite : Obligations.DrwTogglesExactlyTheSprite := by
  intro x y n ox oy base rows s hready
  have hrows := hready.length_le
  refine ⟨_, exec_drw_of_ready hready, fun px py hpx hpy => ?_, s.drawn_drawFlag hrows,
    fun k hk => s.drawn_reg_other ox oy rows hk, s.drawn_frame ox oy rows⟩
  rw [State.drawn_disp]
  exact ⟨Display.pixel_drawSprite_of_covers hrows s.disp hpx hpy, Display.pixel_drawSprite_of_not_covers hrows s.disp⟩

/-- Settles O41: the second draw toggles back what the first toggled, and collides where the first turned a pixel on. -/
theorem drawingTwiceRestoresTheDisplay : Obligations.DrawingTwiceRestoresTheDisplay := by
  intro x y n ox oy base rows s t u hs ht hu hdisp
  have hrows := hs.length_le
  obtain rfl : s.drawn ox oy rows = t := Host.Outcome.next.inj ((exec_drw_of_ready hs).symm.trans ht)
  rw [State.drawn_disp] at hdisp
  refine ⟨_, exec_drw_of_ready hu, ?_, ?_⟩
  · rw [State.drawn_disp, hdisp, Display.drawSprite_drawSprite hrows]
  · rw [← Display.collides_drawSprite hrows, ← hdisp]
    exact u.drawn_drawFlag hrows

/-! ## Nothing else writes the display (R201) -/

@[simp] theorem State.skipIf_disp (s : State) (c : Bool) : (s.skipIf c).disp = s.disp := by rw [State.skipIf_eq]

@[simp] theorem State.commit_disp (s : State) (x : Nibble) (r : Byte) (f : Option Byte) :
    (s.commit x r f).disp = s.disp := by
  rw [s.commit_onlyV x r f]

@[simp] theorem State.setRegs_disp (bs : List Byte) (s : State) (k : Nat) : (s.setRegs k bs).disp = s.disp := by
  rw [State.setRegs_onlyV bs s k]

/-- A rule that faults instead of completing keeps the display too (R241). -/
theorem disp_of_finish {i : Instr} {s t : State} {r : Except Fault State} (h : finish i s r = .next t)
    (hr : RuleEnsures (fun u => u.disp = s.disp) r) : t.disp = s.disp := by
  rcases finish_cases h with h | ⟨f, -, rfl⟩
  · exact hr t h
  · rfl

open RuleEnsures

/-- Instructions in groups by how many reads and checks come before the write, and by what is written. -/
theorem exec_disp {i : Instr} {s t : State} (hcls : i ≠ .cls) (hdrw : ∀ x y n, i ≠ .drw x y n)
    (h : exec i s = .next t) : t.disp = s.disp := by
  cases i with
  | cls => exact absurd rfl hcls
  | drw x y n => exact absurd rfl (hdrw x y n)
  | sys _ | jp _ | ldI _ | ldVxKk _ _ | rnd _ _ => cases h; rfl
  | ldVxK x =>
    rw [exec, execLdVxK] at h
    split at h <;> cases h <;> rfl
  | ret =>
    refine disp_of_finish h fun u hu => ?_
    obtain ⟨⟨a, v⟩, hpop, hu⟩ := bind_ok hu
    obtain ⟨-, -, -, hv⟩ := State.pop_ok hpop
    cases hu
    rw [State.setPc_disp, hv]
  | call nnn =>
    refine disp_of_finish h fun u hu => ?_
    obtain ⟨v, hpush, hu⟩ := bind_ok hu
    obtain ⟨-, -, -, -, hv⟩ := State.push_ok hpush
    cases hu
    rw [State.setPc_disp, hv]
  | jpV0 _ | ldVxVy _ _ | ldFVx _ | ldVxDt _ | ldDtVx _ | ldStVx _ => exact disp_of_finish h (of_bind fun _ => of_ok rfl)
  | addIVx _ => exact disp_of_finish h (of_bind fun _ => of_bind fun _ => of_ok rfl)
  | ldBVx _ | ldMemVx _ => exact disp_of_finish h (of_bind fun _ => of_bind fun _ => of_bind fun _ => of_ok rfl)
  | seVxKk _ _ | sneVxKk _ _ => exact disp_of_finish h (of_bind fun _ => of_ok (s.skipIf_disp _))
  | seVxVy _ _ | sneVxVy _ _ | skp _ | sknp _ =>
    exact disp_of_finish h (of_bind fun _ => of_bind fun _ => of_ok (s.skipIf_disp _))
  | addVxKk x _ | shrVxVy x _ | shlVxVy x _ => exact disp_of_finish h (of_bind fun _ => of_ok (s.commit_disp x _ _))
  | orVxVy x _ | andVxVy x _ | xorVxVy x _ | addVxVy x _ | subVxVy x _ | subnVxVy x _ =>
    exact disp_of_finish h (of_bind fun _ => of_bind fun _ => of_ok (s.commit_disp x _ _))
  | ldVxMem _ =>
    exact disp_of_finish h (of_bind fun _ => of_bind fun _ => of_bind fun bs => of_ok (State.setRegs_disp bs s 0))

theorem State.exit_disp (s : State) : s.exit.disp = s.disp := by
  simp only [State.exit]
  split <;> rfl

/-- No request of the host writes the display. -/
theorem hostStep_disp {e : AgentStep} {s t : State} (he : e.byHost = true) (h : agentStep e s = .next t) :
    t.disp = s.disp := by
  cases e with
  | exec _ | exit | tick => cases he
  | keyWrite _ | keyDown _ | keyUp _ | readDisplay | readStatus => cases h; rfl
  | loadProgram bytes =>
    cases h
    simp only [State.loadProgram]
    split
    · split <;> rfl
    · rfl
  | start =>
    cases h
    simp only [State.start]
    split <;> rfl
  | stop =>
    cases h
    simp only [State.stop]
    split <;> rfl

/-- A cycle that changes the display fetched and executed CLS or DRW. -/
theorem State.cycle_of_disp_ne {s t : State} (h : s.cycle = .next t) (hdisp : t.disp ≠ s.disp) :
    ∃ (op : Word) (i : Instr), s.fetch = .ok op ∧ decode op = .ok i ∧
      (i = .cls ∨ ∃ x y n : Nibble, i = .drw x y n) ∧ exec i (s.setPc (s.pc + 2)) = .next t := by
  rcases State.cycle_cases h with ⟨f, -, rfl⟩ | ⟨op, i, hfetch, hdecode, h⟩ | ⟨op, e, -, -, rfl⟩
  · exact absurd rfl hdisp
  · refine ⟨op, i, hfetch, hdecode, ?_, h⟩
    by_contra hi
    push Not at hi
    exact hdisp (exec_disp (s := s.setPc (s.pc + 2)) hi.1 hi.2 h)
  · exact absurd rfl hdisp

/-- A CPU step comes about in `Running` or `StopRequested`, with nothing or an `exec` next on the schedule (R250). -/
theorem cpuMoves_enabled {s u : State} (h : cpuMoves s u) :
    (s.run = .running ∨ s.run = .stopRequested) ∧
      (s.schedule = [] ∨ ∃ (r : Byte) (es : List AgentStep), s.schedule = .exec r :: es) := by
  rcases h with ⟨r, es, hs, hrun, -⟩ | ⟨hs, hrun, -⟩
  · exact ⟨hrun, .inr ⟨r, es, hs⟩⟩
  · exact ⟨hrun.imp_right And.left, .inl hs⟩

/-- Settles O42: every step but a CPU cycle keeps the display, and so does a cycle that executes anything else. -/
theorem onlyClsAndDrwChangeTheDisplay : Obligations.OnlyClsAndDrwChangeTheDisplay := by
  intro s t h hdisp
  obtain ⟨u, hinputs, hu⟩ := step_cases h
  have hsu : u.disp = s.disp := by rw [hinputs]
  rw [← hsu] at hdisp
  rcases hu with ⟨hmoves, h⟩ | rfl | rfl | rfl | ⟨e, es, -, -, he, h⟩
  · obtain ⟨hrun, hschedule⟩ := cpuMoves_enabled hmoves
    obtain ⟨op, i, hfetch, hdecode, hdraws, hexec⟩ := State.cycle_of_disp_ne h hdisp
    obtain ⟨-, hi, lo, hhi, hlo, rfl⟩ := State.fetch_ok.mp (cpuMoves_fetch hmoves ▸ hfetch)
    rw [cpuMoves_pc hmoves] at hexec
    exact ⟨hrun, hschedule, u, hi, lo, i, hmoves, hhi, hlo, hdecode, hdraws, hexec⟩
  · exact absurd rfl hdisp
  · exact absurd u.exit_disp hdisp
  · exact absurd rfl hdisp
  · exact absurd (hostStep_disp he h) hdisp

end Sys2Proof.Machine
end

section
/-! The keyboard: the key wait and the key tests by what they find in the latch, and the host's writes of the latch
(45_keyboard.md). -/

namespace Sys2Proof.Machine

/-! ## The key wait (R221, R224) -/

theorem exec_ldVxK_of_none {s : State} (h : anyPressed s.keys = none) (x : Nibble) :
    exec (.ldVxK x) s = .next (s.setPc (s.pc - 2)) := by
  simp only [exec, execLdVxK, h]

theorem exec_ldVxK_of_some {s : State} {k : Nat} (h : anyPressed s.keys = some k) (x : Nibble) :
    exec (.ldVxK x) s = .next (s.setReg x (BitVec.ofNat 8 k)) := by
  simp only [exec, execLdVxK, h]

/-- Settles O45: the wait turns on whether there is a lowest pressed key. -/
theorem keyWaitRewindsOrCaptures : Obligations.KeyWaitRewindsOrCaptures := by
  intro x s
  constructor
  · exact fun hnone => exec_ldVxK_of_none (anyPressed_none.mpr hnone) x
  · intro k hk hpressed hlowest
    exact ⟨_, exec_ldVxK_of_some (anyPressed_some.mpr ⟨hk, hpressed, hlowest⟩) x, s.setReg_leaves x _⟩

/-! ## The key tests (R222, R223, R225) -/

section KeyTest

variable {s : State} {x : Nibble} {k : Byte} (hx : s.reg x = .held k)
include hx

/-- When Vx names a key, SKP skips on its bit of the latch (R222). -/
theorem exec_skp_of_held (hk : k.toNat < 16) : exec (.skp x) s = .next (s.skipIf (s.keys.getLsbD k.toNat)) := by
  rw [exec, execSkp, State.readV_ok.mpr hx, ok_bind, keyNumber_ok.mpr ⟨hk, rfl⟩, ok_bind, finish_ok, isPressed]

/-- When Vx names a key, SKNP skips on the complement of its bit of the latch (R223). -/
theorem exec_sknp_of_held (hk : k.toNat < 16) : exec (.sknp x) s = .next (s.skipIf (!s.keys.getLsbD k.toNat)) := by
  rw [exec, execSknp, State.readV_ok.mpr hx, ok_bind, keyNumber_ok.mpr ⟨hk, rfl⟩, ok_bind, finish_ok, isPressed]

/-- A rule that begins with the check of the key number in Vx takes KEY_RANGE above 15, whatever was to follow (R225). -/
theorem finish_of_key_above_15 {i : Instr} {next : Nat → Except Fault State} (hk : 15 < k.toNat) :
    finish i s (s.readV x >>= fun b => keyNumber b >>= next) =
      .next (s.takeFault (.keyRange k) (s.pc - 2) (some (encode i))) := by
  rw [State.readV_ok.mpr hx, ok_bind, keyNumber_error.mpr ⟨hk, rfl⟩, error_bind, finish_error]

end KeyTest

/-- Settles O43: both skip on the bit of the latch that Vx names. -/
theorem keySkips : Obligations.KeySkips := by
  intro x k s hx hk
  rw [exec_skp_of_held hx hk, exec_sknp_of_held hx hk, State.skipIf_eq, State.skipIf_eq]
  cases s.keys.getLsbD k.toNat <;> exact ⟨rfl, rfl⟩

theorem formatXKK_group_E (x : Nibble) (kk : Byte) :
    formatXKK 0xE x kk = BitVec.ofNat 16 (0xE000 + kk.toNat + 0x100 * x.toNat) := by
  rw [formatXKK_eq, Nat.add_right_comm]
  rfl

/-- The state KEY_RANGE leaves, recorded under the word of the faulting instruction (R231, R235). -/
theorem takeFault_keyRange_crashes {i : Instr} {op : Word} (hop : encode i = op) (s : State) (k : Byte) :
    crashes s (s.takeFault (.keyRange k) (s.pc - 2) (some (encode i))) .keyRange 4 op (.number k.toNat) := by
  subst hop
  rfl

/-- Settles O44: both check the key number in Vx before they look at the latch. -/
theorem keyNumberAbove15Crashes : Obligations.KeyNumberAbove15Crashes := by
  intro x k s hx hk
  exact ⟨_, _, finish_of_key_above_15 hx hk, finish_of_key_above_15 hx hk,
    takeFault_keyRange_crashes (i := .skp x) (formatXKK_group_E x 0x9E) s k,
    takeFault_keyRange_crashes (i := .sknp x) (formatXKK_group_E x 0xA1) s k⟩

/-! ## The host's writes of the latch (R226, R254) -/

/-- Key k goes down, and the other keys stay as they are. -/
theorem State.keyDown_getLsbD (s : State) (k : Nibble) {j : Nat} (hj : j < 16) :
    (s.keyDown k).keys.getLsbD j = (s.keys.getLsbD j || j == k.toNat) := by
  simp [State.keyDown, hj, beq_eq_decide, eq_comm (a := j)]

/-- Key k goes up, and the other keys stay as they are. -/
theorem State.keyUp_getLsbD (s : State) (k : Nibble) {j : Nat} (hj : j < 16) :
    (s.keyUp k).keys.getLsbD j = (s.keys.getLsbD j && j != k.toNat) := by
  simp [State.keyUp, hj, bne, beq_eq_decide, eq_comm (a := j)]

/-- A step the schedule names is that agent's, on the rest of the schedule (R250). -/
theorem step_of_scheduled {s : State} {e : AgentStep} {es : List AgentStep} (h : s.schedule = e :: es) :
    step s = agentStep e { s with schedule := es } := by
  simp only [step, h, State.dequeue, List.tail_cons]

/-- Settles O46: each of the three is one write of the latch. -/
theorem hostWritesTheKeyLatch : Obligations.HostWritesTheKeyLatch := by
  intro s es v k
  refine ⟨step_of_scheduled, fun h => ⟨_, step_of_scheduled h, rfl, fun j hj => ?_⟩,
    fun h => ⟨_, step_of_scheduled h, rfl, fun j hj => ?_⟩⟩
  · exact State.keyDown_getLsbD _ k hj
  · exact State.keyUp_getLsbD _ k hj

end Sys2Proof.Machine
end

section
/-! What the host's requests and the CPU's exit can write, each said once, and with it what the host cannot reach
(60_exceptions.md R253-R255, 70_reset_and_hazards.md R275). -/

namespace Sys2Proof.Machine

/-! ## Frames of the lifecycle events (R272-R278) -/

theorem State.loadProgram_frame (s : State) (bytes : List Byte) :
    s.loadProgram bytes = { s with
      mem := (s.loadProgram bytes).mem, run := (s.loadProgram bytes).run, reply := (s.loadProgram bytes).reply } := by
  simp only [State.loadProgram]
  split
  · split <;> rfl
  · rfl

theorem State.start_frame (s : State) : s.start = { s with run := s.start.run } := by
  simp only [State.start]
  split <;> rfl

theorem State.stop_frame (s : State) : s.stop = { s with run := s.stop.run } := by
  simp only [State.stop]
  split <;> rfl

theorem State.exit_frame (s : State) : s.exit = { s with run := s.exit.run } := by
  simp only [State.exit]
  split <;> rfl

/-- Only in `Idle` is a load accepted (R275, R280). -/
theorem State.loadProgram_of_not_idle {s : State} (h : s.run ≠ .idle) (bytes : List Byte) :
    s.loadProgram bytes = s.setReply .refused := by
  simp only [State.loadProgram]

/-! ## Safe run states -/

theorem State.safe_iff {s : State} : s.safe = true ↔ ∀ rec : CrashRecord, s.run ≠ .crashed rec := by
  cases hrun : s.run <;> simp [State.safe, hrun]

theorem State.safe_of_run {s : State} {r : RunState} (hrun : s.run = r) (hr : ∀ rec : CrashRecord, r ≠ .crashed rec) :
    s.safe = true := State.safe_iff.mpr (hrun ▸ hr)

theorem State.safe_eq_false {s : State} {rec : CrashRecord} (h : s.run = .crashed rec) : s.safe = false := by
  simp only [State.safe, h]

/-! ## A request of the host -/

section HostStep

variable {e : AgentStep} {s t : State} (he : e.byHost = true) (h : agentStep e s = .next t)
include he h

/-- The host writes memory, the latch, the run state and its own reply, and nothing else (R255). -/
theorem hostStep_frame : t = { s with mem := t.mem, keys := t.keys, run := t.run, reply := t.reply } := by
  cases e with
  | exec _ | exit | tick => cases he
  | keyWrite _ | keyDown _ | keyUp _ | readDisplay | readStatus => cases h; rfl
  | loadProgram bytes =>
    cases h
    rw [s.loadProgram_frame bytes]
  | start =>
    cases h
    rw [s.start_frame]
  | stop =>
    cases h
    rw [s.stop_frame]

/-- Of the host's requests only a load writes memory, and only in `Idle` (R274, R280). -/
theorem hostStep_mem (hidle : s.run ≠ .idle) : t.mem = s.mem := by
  cases e with
  | exec _ | exit | tick => cases he
  | keyWrite _ | keyDown _ | keyUp _ | readDisplay | readStatus => cases h; rfl
  | loadProgram bytes =>
    cases h
    rw [State.loadProgram_of_not_idle hidle]
    rfl
  | start =>
    cases h
    rw [s.start_frame]
  | stop =>
    cases h
    rw [s.stop_frame]

/-- The host neither makes nor ends a crash: where it moves the run state, it does so between safe ones (R275). -/
theorem hostStep_run : t.run = s.run ∨ (s.safe = true ∧ t.safe = true) := by
  cases e with
  | exec _ | exit | tick => cases he
  | keyWrite _ | keyDown _ | keyUp _ | readDisplay | readStatus => cases h; exact .inl rfl
  | loadProgram bytes =>
    cases h
    simp only [State.loadProgram]
    split
    next hrun =>
      split
      · exact .inr ⟨State.safe_of_run hrun nofun, rfl⟩
      · exact .inl rfl
    next => exact .inl rfl
  | start =>
    cases h
    simp only [State.start]
    split
    next hrun => exact .inr ⟨State.safe_of_run hrun nofun, rfl⟩
    next hrun => exact .inr ⟨State.safe_of_run hrun nofun, rfl⟩
    next => exact .inl rfl
  | stop =>
    cases h
    simp only [State.stop]
    split
    next hrun => exact .inr ⟨State.safe_of_run hrun nofun, rfl⟩
    next => exact .inl rfl

end HostStep

/-- Settles O57: the frame of a host request, on the rest of the schedule. -/
theorem hostCannotReachTheCpu : Obligations.HostCannotReachTheCpu := by
  intro s t e es hs he h
  rw [step_of_scheduled hs] at h
  exact ⟨hostStep_frame he h, hostStep_mem (s := { s with schedule := es }) he h⟩

/-- Settles O56: each of the two is one write of the reply. -/
theorem hostReadsLeaveTheBlock : Obligations.HostReadsLeaveTheBlock :=
  fun _ _ => ⟨step_of_scheduled, step_of_scheduled⟩

end Sys2Proof.Machine
end

section
/-! How a step can crash the block, said once, and with it that the record fits R231's table and that the fault is
precise (60_exceptions.md R231, R241). -/

namespace Sys2Proof.Machine

/-- The cycle begun in `s` raises `f`: with no opcode from its fetch (R95), with an opcode from the instruction that
the fetched word decodes to (R241). -/
def CycleRaises (s : State) (f : Fault) : Option Word → Prop
  | none => s.fetch = .error f
  | some op => s.fetch = .ok op ∧ ∃ i, decode op = .ok i ∧ raises i s f

/-- PC is no part of what an instruction's faults depend on. -/
theorem raises_setPc {i : Instr} {s : State} {a : Word} {f : Fault} : raises i (s.setPc a) f ↔ raises i s f := by
  cases f with
  | unwritten c => cases c <;> rfl
  | _ => rfl

/-- A cycle leaves the run state alone, or takes a fault with PC at its own fetch. -/
theorem State.cycle_run {s t : State} (h : s.cycle = .next t) :
    t.run = s.run ∨ ∃ f opcode, CycleRaises s f opcode ∧ t = s.takeFault f s.pc opcode := by
  rcases State.cycle_cases h with ⟨f, hfetch, rfl⟩ | ⟨op, i, hfetch, hdecode, h⟩ | ⟨op, e, -, -, rfl⟩
  · exact .inr ⟨f, none, hfetch, rfl⟩
  · rcases exec_cases h with hframe | ⟨f, hraises, rfl⟩
    · left
      rw [hframe]
      rfl
    · refine .inr ⟨f, some op, ⟨hfetch, i, hdecode, raises_setPc.mp hraises⟩, ?_⟩
      have hop : encode i = op := (decode_isWordOf hdecode).2
      rw [hop, State.setPc_pc, BitVec.add_sub_cancel]
      rfl
  · exact .inl rfl

/-- The CPU's exit neither makes nor ends a crash (R278). -/
theorem State.exit_run (s : State) : s.exit.run = s.run ∨ (s.safe = true ∧ s.exit.safe = true) := by
  simp only [State.exit]
  split
  next hrun => exact .inr ⟨State.safe_of_run hrun nofun, rfl⟩
  next => exact .inl rfl

/-- A step leaves the run state alone, moves it between safe ones, or takes a fault of the CPU's cycle. -/
theorem step_run {s t : State} (h : step s = .next t) :
    t.run = s.run ∨ (s.safe = true ∧ t.safe = true) ∨
      ∃ u f opcode, inputsOnly s u ∧ CycleRaises u f opcode ∧ t = u.takeFault f u.pc opcode := by
  obtain ⟨u, hinputs, hu⟩ := step_cases h
  have hrun : u.run = s.run := by rw [hinputs]
  have hsafe : u.safe = s.safe := by rw [hinputs]; rfl
  rw [← hrun, ← hsafe]
  rcases hu with ⟨-, h⟩ | rfl | rfl | rfl | ⟨e, -, -, -, he, h⟩
  · rcases State.cycle_run h with h | ⟨f, opcode, hraises, ht⟩
    · exact .inl h
    · exact .inr (.inr ⟨u, f, opcode, hinputs, hraises, ht⟩)
  · exact .inl rfl
  · exact u.exit_run.imp_right .inl
  · exact .inl rfl
  · exact (hostStep_run he h).imp_right .inl

/-! ## The record fits R231's table -/

theorem wordIs_of_decode {op : Word} {i : Instr} (h : decode op = .ok i) (p : Instr → Bool) : wordIs p op = p i := by
  simp only [wordIs, h]

section Rows

variable (pc0 : Word) (op : Word)

@[simp] theorem fits_memRange_fetch (a : Nat) : ((Fault.memRange a).record pc0 none).fits =
    (decide (4095 ≤ a) && (a == pc0.toNat || a == pc0.toNat + 1)) := rfl

@[simp] theorem fits_memRange_instr (a : Nat) : ((Fault.memRange a).record pc0 (some op)).fits =
    (decide (4095 ≤ a) && wordIs accessesMemory op) := rfl

@[simp] theorem fits_stackOverflow (n : Nat) : ((Fault.stackOverflow n).record pc0 (some op)).fits =
    (n == 16 && wordIs isCall op) := rfl

@[simp] theorem fits_stackUnderflow (n : Nat) : ((Fault.stackUnderflow n).record pc0 (some op)).fits =
    (n == 0 && op == 0x00EE#16) := rfl

@[simp] theorem fits_keyRange (k : Byte) : ((Fault.keyRange k).record pc0 (some op)).fits =
    (decide (15 < k.toNat) && decide (k.toNat < 256) && wordIs testsKey op) := rfl

@[simp] theorem fits_unwritten_fetch (a : Nat) : ((Fault.unwritten (.mem a)).record pc0 none).fits =
    (a == pc0.toNat || a == pc0.toNat + 1) := rfl

@[simp] theorem fits_unwritten_instr (c : CellName) : ((Fault.unwritten c).record pc0 (some op)).fits = true := rfl

end Rows

/-- A fetch faults at one of its own two addresses. -/
theorem fits_of_fetch_error {s : State} {f : Fault} (h : s.fetch = .error f) : (f.record s.pc none).fits = true := by
  rcases State.fetch_error h with ⟨hpc, rfl⟩ | ⟨-, -, rfl⟩ | ⟨-, -, -, rfl⟩
  · have haddr : max 4095 s.pc.toNat = s.pc.toNat ∨ max 4095 s.pc.toNat = s.pc.toNat + 1 := by omega
    simpa using haddr
  · simp
  · simp

/-- The word an instruction's fault is recorded under is that of an instruction R231 lists for the cause. -/
theorem fits_of_raises {i : Instr} {s : State} {f : Fault} {op : Word} (hdecode : decode op = .ok i) (h : raises i s f)
    (pc0 : Word) : (f.record pc0 (some op)).fits = true := by
  have hword : ∀ p : Instr → Bool, wordIs p op = p i := wordIs_of_decode hdecode
  cases f with
  | memRange a =>
    obtain ⟨ha, hi⟩ := h
    simp [hword, ha, hi]
  | stackOverflow n =>
    obtain ⟨rfl, -, hi⟩ := h
    simp [hword, hi]
  | stackUnderflow n =>
    obtain ⟨rfl, -, rfl⟩ := h
    have hop : 0x00EE#16 = op := (decode_isWordOf hdecode).2
    simp [hop]
  | keyRange k =>
    obtain ⟨hk, hi⟩ := h
    have hlt : k.toNat < 256 := k.isLt
    simp [hword, hk, hlt, hi]
  | unwritten c => exact fits_unwritten_instr pc0 op c

theorem CycleRaises.fits {s : State} {f : Fault} {opcode : Option Word} (h : CycleRaises s f opcode) :
    (f.record s.pc opcode).fits = true := by
  cases opcode with
  | none => exact fits_of_fetch_error h
  | some op =>
    obtain ⟨-, i, hdecode, hraises⟩ := h
    exact fits_of_raises hdecode hraises s.pc

theorem State.crashFits_of_safe {s : State} (h : s.safe = true) : s.crashFits = true := by
  simp only [State.crashFits]
  split
  next rec hrun => exact absurd hrun (State.safe_iff.mp h rec)
  next => rfl

theorem State.crashFits_congr {s t : State} (h : t.run = s.run) : t.crashFits = s.crashFits := by
  simp only [State.crashFits, h]

/-- Settles O51: a record is either the one there was or that of a fault the CPU's cycle raised, and those fit. -/
theorem stepKeepsCrashRecordsFitting : Obligations.StepKeepsCrashRecordsFitting := by
  intro s t hfits h
  rcases step_run h with hrun | ⟨-, hsafe⟩ | ⟨u, f, opcode, -, hraises, rfl⟩
  · rwa [State.crashFits_congr hrun]
  · exact State.crashFits_of_safe hsafe
  · exact hraises.fits

/-! ## A fault is precise -/

/-- The opcode recorded with a fault is the word that was fetched, if one was. -/
theorem CycleRaises.opcode_iff {s : State} {f : Fault} {opcode : Option Word} (h : CycleRaises s f opcode) (op : Word) :
    opcode = some op ↔ s.fetch = .ok op := by
  cases opcode with
  | none =>
    have hfetch : s.fetch = .error f := h
    simp [hfetch]
  | some word => simp [h.1]

/-- Settles O49: a step from a safe state to a crashed one takes a fault of the CPU's cycle. -/
theorem faultsArePrecise : Obligations.FaultsArePrecise := by
  intro s t rec hsafe h hcrashed
  have hunsafe : t.safe = false := State.safe_eq_false hcrashed
  rcases step_run h with hrun | ⟨-, hsafe'⟩ | ⟨u, f, opcode, hinputs, hraises, rfl⟩
  · rw [State.safe_eq_false (hrun ▸ hcrashed)] at hsafe
    cases hsafe
  · rw [hunsafe] at hsafe'
    cases hsafe'
  · have hrec : rec = f.record u.pc opcode := (RunState.crashed.inj hcrashed).symm
    have hpc : u.pc = s.pc := by rw [hinputs]
    have hfetch : u.fetch = s.fetch := by rw [hinputs]; rfl
    subst hrec
    refine ⟨?_, hpc, fun op => ?_⟩
    · rw [hinputs]
      rfl
    · exact (hraises.opcode_iff op).trans (hfetch ▸ State.fetch_ok)

end Sys2Proof.Machine
end

section
/-! Outside `Running` and `StopRequested` the CPU does nothing, and `Crashed` is never left (60_exceptions.md R242, R250,
70_reset_and_hazards.md R275). -/

namespace Sys2Proof.Machine

theorem RunState.executes_eq_false {r : RunState} (hrunning : r ≠ .running) (hstop : r ≠ .stopRequested) :
    r.executes = false := by
  cases r with
  | running => exact absurd rfl hrunning
  | stopRequested => exact absurd rfl hstop
  | idle | loaded | stopped | crashed _ => rfl

theorem State.cpuExec_of_disabled {s : State} (h : s.run.executes = false) : s.cpuExec = .next s := by
  simp [State.cpuExec, h]

theorem State.unscheduled_of_disabled {s : State} (h : s.run.executes = false) : s.unscheduled = .next s := by
  simp only [State.unscheduled]
  split
  next hrun => rw [hrun] at h; cases h
  next hrun => rw [hrun] at h; cases h
  next => rfl

section Disabled

variable {s : State} (hrun : s.run.executes = false)
include hrun

theorem step_unscheduled_of_disabled (hs : s.schedule = []) : step s = .next s := by
  simp only [step, hs, State.unscheduled_of_disabled hrun]

theorem agentStep_exec_of_disabled (r : Byte) : agentStep (.exec r) s = .next { s with randomPort := r } :=
  State.cpuExec_of_disabled (s := { s with randomPort := r }) hrun

end Disabled

/-- Settles O8: both kinds of CPU step look at whether `exec` is enabled before they run a cycle. -/
theorem noInstructionUnlessRunning : Obligations.NoInstructionUnlessRunning := by
  intro s hrunning hstop
  have hrun : s.run.executes = false := RunState.executes_eq_false hrunning hstop
  refine ⟨step_unscheduled_of_disabled hrun, fun r es hs => ?_⟩
  rw [step_of_scheduled hs]
  exact agentStep_exec_of_disabled (s := { s with schedule := es }) hrun r

theorem State.exit_of_crashed {s : State} {rec : CrashRecord} (h : s.run = .crashed rec) : s.exit = s := by
  simp only [State.exit, h]

/-- In `Crashed` the host reaches the latch and its own reply only (R275). -/
theorem hostStep_of_crashed {e : AgentStep} {s t : State} {rec : CrashRecord} (hcrashed : s.run = .crashed rec)
    (he : e.byHost = true) (h : agentStep e s = .next t) : t = { s with keys := t.keys, reply := t.reply } := by
  have hmem : t.mem = s.mem := hostStep_mem he h (by simp [hcrashed])
  have hrun : t.run = s.run := (hostStep_run he h).resolve_right (by simp [State.safe_eq_false hcrashed])
  have hframe := hostStep_frame he h
  rwa [hmem, hrun] at hframe

/-- In `Crashed` the CPU has no step enabled, a tick reaches the timers, and a host request the latch and the reply. -/
theorem agentStep_of_crashed {e : AgentStep} {s t : State} {rec : CrashRecord} (hcrashed : s.run = .crashed rec)
    (h : agentStep e s = .next t) :
    t = { s with dt := t.dt, st := t.st, keys := t.keys, randomPort := t.randomPort, reply := t.reply } := by
  cases e with
  | exec r =>
    have hrun : s.run.executes = false := by rw [hcrashed]; rfl
    rw [agentStep_exec_of_disabled hrun] at h
    cases h
    rfl
  | exit =>
    cases h
    rw [State.exit_of_crashed hcrashed]
  | tick => cases h; rfl
  | keyWrite _ | keyDown _ | keyUp _ | loadProgram _ | start | stop | readDisplay | readStatus =>
    rw [hostStep_of_crashed hcrashed rfl h]

/-- Settles O50: with nothing scheduled nothing changes, and a scheduled step is one of an agent in `Crashed`. -/
theorem crashedIsTerminal : Obligations.CrashedIsTerminal := by
  intro s t rec hcrashed h
  cases hs : s.schedule with
  | nil =>
    have hrun : s.run.executes = false := by rw [hcrashed]; rfl
    rw [step_unscheduled_of_disabled hrun hs] at h
    cases h
    rfl
  | cons e es =>
    rw [step_of_scheduled hs] at h
    rw [agentStep_of_crashed (s := { s with schedule := es }) hcrashed h]

end Sys2Proof.Machine
end

section
/-! The timer arbiter: what a tick takes from each timer, and that in a fair run the ticks bring DT to 0
(60_exceptions.md R245-R251). -/

namespace Sys2Proof.Machine

/-- A tick takes 1 from a timer, floored at 0 (R245). -/
theorem tickCell_held (a : Byte) : tickCell (.held a) = .held (BitVec.ofNat 8 (a.toNat - 1)) := by
  simp only [tickCell]
  split
  next ha =>
    congr 1
    bv_omega
  next ha =>
    congr 1
    bv_omega

/-- No agent but the CPU's `exec` and the timer writes DT. -/
theorem agentStep_dt {e : AgentStep} {s t : State} (hexec : e.isExec = false) (htick : e ≠ .tick)
    (h : agentStep e s = .next t) : t.dt = s.dt := by
  cases e with
  | exec r => cases hexec
  | tick => exact absurd rfl htick
  | exit =>
    cases h
    rw [s.exit_frame]
  | keyWrite _ | keyDown _ | keyUp _ | loadProgram _ | start | stop | readDisplay | readStatus =>
    rw [hostStep_frame rfl h]

/-- DT holds a value, and it is at most c. -/
def State.dtAtMost (s : State) (c : Nat) : Prop := ∃ b : Byte, s.dt = .held b ∧ b.toNat ≤ c

theorem State.dtAtMost_zero {s : State} : s.dtAtMost 0 ↔ s.dt = .held 0 := by
  constructor
  · rintro ⟨b, hdt, hb⟩
    have hzero : b = 0 := BitVec.eq_of_toNat_eq (Nat.le_zero.mp hb)
    rw [hdt, hzero]
  · exact fun hdt => ⟨0, hdt, Nat.le_refl 0⟩

theorem State.dtAtMost_of_dt_eq {s t : State} {c : Nat} (hdt : t.dt = s.dt) (h : s.dtAtMost c) : t.dtAtMost c := by
  obtain ⟨b, hb, hle⟩ := h
  exact ⟨b, hdt.trans hb, hle⟩

theorem State.dtAtMost_mono {s : State} {c d : Nat} (h : s.dtAtMost c) (hcd : c ≤ d) : s.dtAtMost d := by
  obtain ⟨b, hb, hle⟩ := h
  exact ⟨b, hb, hle.trans hcd⟩

/-- A tick lowers the bound on DT by 1. -/
theorem State.dtAtMost_of_tick {s t : State} {c : Nat} (hdt : t.dt = tickCell s.dt) (h : s.dtAtMost c) : t.dtAtMost (c - 1) := by
  obtain ⟨b, hb, hle⟩ := h
  refine ⟨BitVec.ofNat 8 (b.toNat - 1), by rw [hdt, hb, tickCell_held], ?_⟩
  rw [BitVec.toNat_ofNat]
  omega

/-! ## A fair run in which no instruction writes DT from step k on -/

section Ticking

variable {moves : Nat → AgentStep} {run : Nat → State} {k : Nat}

theorem Interleaving.dt_of_tick (h : Interleaving moves run) {n : Nat} (htick : moves n = .tick) :
    (run (n + 1)).dt = tickCell (run n).dt := by
  have hstep := h.agentStep_eq n
  rw [htick] at hstep
  rw [← Host.Outcome.next.inj hstep]
  rfl

section Kept

variable (h : Interleaving moves run) (hkept : ∀ n, k ≤ n → (moves n).isExec = true → (run (n + 1)).dt = (run n).dt)
include h hkept

theorem Interleaving.dt_of_not_tick {n : Nat} (hn : k ≤ n) (htick : moves n ≠ .tick) : (run (n + 1)).dt = (run n).dt := by
  cases hexec : (moves n).isExec with
  | true => exact hkept n hn hexec
  | false => exact agentStep_dt (s := (run n).withSchedule []) hexec htick (h.agentStep_eq n)

/-- DT never rises again. -/
theorem Interleaving.dtAtMost_of_le {m n c : Nat} (hm : k ≤ m) (hmn : m ≤ n) (hc : (run m).dtAtMost c) : (run n).dtAtMost c := by
  induction n, hmn using Nat.le_induction with
  | base => exact hc
  | succ n hmn ih =>
    by_cases htick : moves n = .tick
    · exact State.dtAtMost_mono (State.dtAtMost_of_tick (h.dt_of_tick htick) ih) (Nat.sub_le c 1)
    · exact State.dtAtMost_of_dt_eq (h.dt_of_not_tick hkept (hm.trans hmn) htick) ih

/-- If ticks come again and again, DT comes to 0: by induction on the bound, which each tick lowers. -/
theorem Interleaving.dt_reaches_zero (hticks : ∀ j, ∃ n, j ≤ n ∧ moves n = .tick) {m c : Nat} (hm : k ≤ m)
    (hc : (run m).dtAtMost c) : ∃ n, m ≤ n ∧ (run n).dtAtMost 0 := by
  induction c generalizing m with
  | zero => exact ⟨m, Nat.le_refl m, hc⟩
  | succ c ih =>
    obtain ⟨n, hmn, htick⟩ := hticks m
    have hbefore : (run n).dtAtMost (c + 1) := h.dtAtMost_of_le hkept hm hmn hc
    have hafter : (run (n + 1)).dtAtMost c := State.dtAtMost_of_tick (h.dt_of_tick htick) hbefore
    obtain ⟨z, hz, hzero⟩ := ih (m := n + 1) (by omega) hafter
    exact ⟨z, by omega, hzero⟩

end Kept

/-- In a fair run that goes on executing, ticks come again and again (R248, R251). -/
theorem FairRun.ticks (h : FairRun moves run) (hruns : ∀ n, k ≤ n → (run n).run = .running ∨ (run n).run = .stopRequested)
    (j : Nat) : ∃ n, j ≤ n ∧ moves n = .tick := by
  have hexecutes : ∀ n, k ≤ n → (run n).run.executes = true := by
    intro n hn
    rcases hruns n hn with hrun | hrun <;> rw [hrun] <;> rfl
  obtain ⟨n, hjn, htick⟩ := h.tick_fair ⟨k, hexecutes⟩ j
  exact ⟨n, hjn, of_decide_eq_true htick⟩

end Ticking

/-- Settles O37: the tick by the values of the two timers; the fair run by `Interleaving.dt_reaches_zero`, after which
DT stays at 0. -/
theorem tickDecrementsBothTimers : Obligations.TickDecrementsBothTimers := by
  refine ⟨fun s es hs => ⟨_, step_of_scheduled hs, rfl, ?_, ?_, ?_, ?_⟩, ?_⟩
  · exact tickCell_eq_unwritten.mpr
  · exact tickCell_eq_unwritten.mpr
  · exact fun a hdt => (congrArg tickCell hdt).trans (tickCell_held a)
  · exact fun a hst => (congrArg tickCell hst).trans (tickCell_held a)
  · intro moves run k a hfair hruns hkept hdt
    have hsteps := hfair.toInterleaving
    obtain ⟨m, hkm, hzero⟩ := hsteps.dt_reaches_zero hkept (hfair.ticks hruns) (Nat.le_refl k) ⟨a, hdt, Nat.le_refl _⟩
    exact ⟨m, hkm, fun n hmn => State.dtAtMost_zero.mp (hsteps.dtAtMost_of_le hkept hkm hmn hzero)⟩

end Sys2Proof.Machine
end

section
/-! A program load: written whole in `Idle`, refused whole where it is too long or the block is past `Idle`
(70_reset_and_hazards.md R272-R275, R280). -/

namespace Sys2Proof.Machine

theorem State.loadProgram_of_fits {s : State} {bytes : List Byte} (hidle : s.run = .idle) (hfits : bytes.length ≤ loadLimit) :
    s.loadProgram bytes = ((s.writeBytes progBase bytes).setRun .loaded).setReply .loadOk := by
  simp only [State.loadProgram, hidle, if_pos hfits]

theorem State.loadProgram_of_too_large {s : State} {bytes : List Byte} (hidle : s.run = .idle)
    (hlarge : loadLimit < bytes.length) : s.loadProgram bytes = s.setReply .programTooLarge := by
  simp only [State.loadProgram, hidle, if_neg (Nat.not_le.mpr hlarge)]

/-- Settles O54: the three ends of a load, on the rest of the schedule; the one that is accepted is a block write. -/
theorem loadProgramWritesOrRefuses : Obligations.LoadProgramWritesOrRefuses := by
  intro s bytes es hs
  have hload : step s = .next (State.loadProgram { s with schedule := es } bytes) := step_of_scheduled hs
  rw [hload]
  refine ⟨fun hidle hfits => ?_, fun hidle hlarge => ?_, fun hidle => ?_⟩
  · rw [State.loadProgram_of_fits (s := { s with schedule := es }) hidle hfits]
    exact ⟨_, rfl, fun k b hk => State.byteAt_writeBytes_inside s progBase k b bytes hk,
      s.writeBytes_keepsBytesBut progBase bytes, rfl⟩
  · rw [State.loadProgram_of_too_large (s := { s with schedule := es }) hidle hlarge]
    rfl
  · rw [State.loadProgram_of_not_idle (s := { s with schedule := es }) hidle]
    rfl

end Sys2Proof.Machine
end

section
/-! Memory stays in its canonical form: whatever writes it, an instruction's block store or a program load, has checked
that the block lies inside memory (20_memory.md section 1, 42_index_memory.md R178, R273). -/

namespace Sys2Proof.Machine

namespace State.memCanonical

variable {s : State} (hs : s.memCanonical)

include hs

/-! ### The writes of the state -/

theorem of_onlyV {t : State} (h : onlyV s t) : t.memCanonical := by rw [h]; exact hs

theorem skipIf (c : Bool) : (s.skipIf c).memCanonical := by rw [State.skipIf_eq]; exact hs

/-- What a DRW writes: the display, and VF if there is a flag. -/
theorem draw (d : Display) (f : Option Byte) : ((s.setDisp d).setFlag f).memCanonical :=
  of_onlyV (s := s.setDisp d) hs (State.setFlag_onlyV _ f)

/-- A block written inside memory. -/
theorem writeBytes {a : Nat} {bs : List Byte} (hrange : a + bs.length ≤ memSize) : (s.writeBytes a bs).memCanonical :=
  Memory.wf_writeAll s.config bs s.mem a hs hrange

/-- A block of n + 1 bytes written after its range check. -/
theorem writeBytes_of_checkRange {a n : Nat} {bs : List Byte} {u : Unit} (hcheck : checkRange a (n + 1) = .ok u)
    (hlen : bs.length = n + 1) : (s.writeBytes a bs).memCanonical :=
  hs.writeBytes (hlen ▸ (checkRange_ok.mp hcheck).resolve_left (Nat.succ_ne_zero n))

/-- A rule that faults instead of completing writes no memory (R241). -/
theorem of_finish {i : Instr} {t : State} {r : Except Fault State} (h : finish i s r = .next t)
    (hr : RuleEnsures State.memCanonical r) : t.memCanonical := by
  rcases finish_cases h with h | ⟨f, -, rfl⟩
  · exact hr t h
  · exact hs

/-! ### The instructions, the cycle and the host -/

open RuleEnsures

/-- Instructions in groups by how many reads and checks come before the write, and by what is written. -/
theorem of_exec {i : Instr} {t : State} (h : exec i s = .next t) : t.memCanonical := by
  cases i with
  | ldBVx x =>
    refine hs.of_finish h (of_bind fun b => of_bind fun base u hu => ?_)
    obtain ⟨_, hcheck, hu⟩ := bind_ok hu
    cases hu
    exact hs.writeBytes_of_checkRange hcheck rfl
  | ldMemVx x =>
    refine hs.of_finish h (of_bind fun base u hu => ?_)
    obtain ⟨bs, hregs, hu⟩ := bind_ok hu
    obtain ⟨_, hcheck, hu⟩ := bind_ok hu
    cases hu
    exact hs.writeBytes_of_checkRange hcheck (State.readRegs_ok.mp hregs).1
  | cls | sys _ | jp _ | ldI _ | ldVxKk _ _ | rnd _ _ => cases h; exact hs
  | ldVxK x =>
    rw [exec, execLdVxK] at h
    split at h <;> cases h <;> exact hs
  | ret =>
    refine hs.of_finish h fun u hu => ?_
    obtain ⟨⟨a, v⟩, hpop, hu⟩ := bind_ok hu
    obtain ⟨-, -, -, hv⟩ := State.pop_ok hpop
    cases hu
    rw [hv]
    exact hs
  | call nnn =>
    refine hs.of_finish h fun u hu => ?_
    obtain ⟨v, hpush, hu⟩ := bind_ok hu
    obtain ⟨-, -, -, -, hv⟩ := State.push_ok hpush
    cases hu
    rw [hv]
    exact hs
  | jpV0 _ | ldVxVy _ _ | ldFVx _ | ldVxDt _ | ldDtVx _ | ldStVx _ => exact hs.of_finish h (of_bind fun _ => of_ok hs)
  | addIVx _ => exact hs.of_finish h (of_bind fun _ => of_bind fun _ => of_ok hs)
  | seVxKk _ _ | sneVxKk _ _ => exact hs.of_finish h (of_bind fun _ => of_ok (hs.skipIf _))
  | seVxVy _ _ | sneVxVy _ _ | skp _ | sknp _ =>
    exact hs.of_finish h (of_bind fun _ => of_bind fun _ => of_ok (hs.skipIf _))
  | addVxKk x _ | shrVxVy x _ | shlVxVy x _ =>
    exact hs.of_finish h (of_bind fun _ => of_ok (hs.of_onlyV (s.commit_onlyV x _ _)))
  | orVxVy x _ | andVxVy x _ | xorVxVy x _ | addVxVy x _ | subVxVy x _ | subnVxVy x _ =>
    exact hs.of_finish h (of_bind fun _ => of_bind fun _ => of_ok (hs.of_onlyV (s.commit_onlyV x _ _)))
  | ldVxMem _ =>
    refine hs.of_finish h (of_bind fun _ => of_bind fun _ => of_bind fun bs => of_ok ?_)
    have hregs : (s.setRegs 0 bs).memCanonical := hs.of_onlyV (State.setRegs_onlyV bs s 0)
    exact hregs
  | drw _ _ _ =>
    exact hs.of_finish h (of_bind fun _ => of_bind fun _ => of_bind fun _ => of_bind fun _ => of_bind fun _ =>
      of_ok (hs.draw _ _))

theorem of_cycle {t : State} (h : s.cycle = .next t) : t.memCanonical := by
  rcases State.cycle_cases h with ⟨f, -, rfl⟩ | ⟨op, i, -, -, h⟩ | ⟨op, e, -, -, rfl⟩
  · exact hs
  · exact of_exec (s := s.setPc (s.pc + 2)) hs h
  · exact hs

/-- The longest program ends at the last byte of memory (R273). -/
theorem loadProgram (bytes : List Byte) : (s.loadProgram bytes).memCanonical := by
  by_cases hidle : s.run = .idle
  · by_cases hfits : bytes.length ≤ loadLimit
    · rw [State.loadProgram_of_fits hidle hfits]
      have hrange : progBase + bytes.length ≤ memSize := Nat.add_le_add_left hfits progBase
      exact hs.writeBytes hrange
    · rw [State.loadProgram_of_too_large hidle (Nat.lt_of_not_le hfits)]
      exact hs
  · rw [State.loadProgram_of_not_idle hidle]
    exact hs

theorem exit : s.exit.memCanonical := by rw [s.exit_frame]; exact hs

/-- Of the host's requests only a load writes memory. -/
theorem of_hostStep {e : AgentStep} {t : State} (he : e.byHost = true) (h : agentStep e s = .next t) : t.memCanonical := by
  cases e with
  | exec _ | exit | tick => cases he
  | keyWrite _ | keyDown _ | keyUp _ | readDisplay | readStatus => cases h; exact hs
  | loadProgram bytes => cases h; exact hs.loadProgram bytes
  | start =>
    cases h
    rw [s.start_frame]
    exact hs
  | stop =>
    cases h
    rw [s.stop_frame]
    exact hs

end State.memCanonical

/-- Settles O58: a step is a CPU cycle, an exit, a tick or a request of the host, and each keeps the form. -/
theorem stepKeepsMemoryCanonical : Obligations.StepKeepsMemoryCanonical := by
  intro s t hs h
  obtain ⟨u, hinputs, hu⟩ := step_cases h
  have hcanonical : u.memCanonical := by rw [hinputs]; exact hs
  rcases hu with ⟨-, h⟩ | rfl | rfl | rfl | ⟨e, -, -, -, he, h⟩
  · exact hcanonical.of_cycle h
  · exact hcanonical
  · exact hcanonical.exit
  · exact hcanonical
  · exact hcanonical.of_hostStep he h

end Sys2Proof.Machine
end

section
/-! The lifecycle: how start, stop and exit move the run state, and that `StopRequested` does not last
(70_reset_and_hazards.md R275-R279, 60_exceptions.md R251). -/

namespace Sys2Proof.Machine

/-! ## The rows of R275's table -/

theorem State.start_run (s : State) : s.start.run = if s.run = .loaded ∨ s.run = .stopped then .running else s.run := by
  cases hrun : s.run <;> simp [State.start, hrun]

theorem State.stop_run (s : State) : s.stop.run = if s.run = .running then .stopRequested else s.run := by
  cases hrun : s.run <;> simp [State.stop, hrun]

theorem State.exit_run_eq (s : State) : s.exit.run = if s.run = .stopRequested then .stopped else s.run := by
  cases hrun : s.run <;> simp [State.exit, hrun]

/-! ## Out of `StopRequested` -/

/-- The block has come to `Stopped` or to `Crashed`. -/
def State.ended (s : State) : Prop := s.run = .stopped ∨ ∃ rec, s.run = .crashed rec

section StopRequested

variable {s t : State} (hstop : s.run = .stopRequested)

include hstop

theorem State.exit_run_of_stopRequested : s.exit.run = .stopped := by rw [s.exit_run_eq, if_pos hstop]

/-- No request of the host is accepted in `StopRequested` (R275). -/
theorem hostStep_run_of_stopRequested {e : AgentStep} (he : e.byHost = true) (h : agentStep e s = .next t) :
    t.run = s.run := by
  cases e with
  | exec _ | exit | tick => cases he
  | keyWrite _ | keyDown _ | keyUp _ | readDisplay | readStatus => cases h; rfl
  | loadProgram bytes =>
    cases h
    rw [State.loadProgram_of_not_idle (by simp [hstop]), State.setReply_run]
  | start =>
    cases h
    simp [s.start_run, hstop]
  | stop =>
    cases h
    simp [s.stop_run, hstop]

/-- Every step from `StopRequested` stays there or ends the run. -/
theorem step_run_of_stopRequested (h : step s = .next t) : t.run = .stopRequested ∨ t.ended := by
  obtain ⟨u, hinputs, hu⟩ := step_cases h
  have hstopU : u.run = .stopRequested := by rw [hinputs]; exact hstop
  rcases hu with ⟨-, h⟩ | rfl | rfl | rfl | ⟨e, -, -, -, he, h⟩
  · rcases State.cycle_run h with hrun | ⟨f, opcode, -, rfl⟩
    · exact .inl (hrun.trans hstopU)
    · exact .inr (.inr ⟨_, rfl⟩)
  · exact .inl hstopU
  · exact .inr (.inl (State.exit_run_of_stopRequested hstopU))
  · exact .inl hstopU
  · exact .inl ((hostStep_run_of_stopRequested hstopU he h).trans hstopU)

end StopRequested

/-! ## In a fair run -/

section Fair

variable {moves : Nat → AgentStep} {run : Nat → State} {k : Nat}

/-- A run that does not end stays in `StopRequested`. -/
theorem Interleaving.stays_stopRequested (h : Interleaving moves run) (hstop : (run k).run = .stopRequested)
    (hgoes : ∀ m, k < m → ¬(run m).ended) {n : Nat} (hn : k ≤ n) : (run n).run = .stopRequested := by
  induction n, hn using Nat.le_induction with
  | base => exact hstop
  | succ n hn ih =>
    have hnext := step_run_of_stopRequested (s := { run n with schedule := [moves n] }) ih (h.steps n)
    exact hnext.resolve_right (hgoes (n + 1) (Nat.lt_succ_of_le hn))

theorem Interleaving.ended_of_exit (h : Interleaving moves run) {n : Nat} (hstop : (run n).run = .stopRequested)
    (hexit : moves n = .exit) : (run (n + 1)).ended := by
  have hstep := h.agentStep_eq n
  rw [hexit] at hstep
  rw [← Host.Outcome.next.inj hstep]
  exact .inl (State.exit_run_of_stopRequested (s := (run n).withSchedule []) hstop)

/-- Were the run to stay in `StopRequested`, fairness would take the exit (R278, R251). -/
theorem FairRun.ends (h : FairRun moves run) (hstop : (run k).run = .stopRequested) : ∃ m, k < m ∧ (run m).ended := by
  by_contra hgoes
  push Not at hgoes
  have hstays : ∀ n, k ≤ n → (run n).run = .stopRequested := fun n => h.toInterleaving.stays_stopRequested hstop hgoes
  obtain ⟨n, hn, hexit⟩ := h.exit_fair ⟨k, fun n hn => decide_eq_true (hstays n hn)⟩ k
  exact hgoes (n + 1) (Nat.lt_succ_of_le hn) (h.toInterleaving.ended_of_exit (hstays n hn) (of_decide_eq_true hexit))

end Fair

/-! ## In a run with nothing scheduled -/

/-- A cycle neither reads off the schedule nor takes a free choice. -/
theorem State.cycle_inputs {s t : State} (h : s.cycle = .next t) : t.schedule = s.schedule ∧ t.oracle = s.oracle := by
  rcases State.cycle_cases h with ⟨f, -, rfl⟩ | ⟨op, i, -, -, h⟩ | ⟨op, e, -, -, rfl⟩
  · exact ⟨rfl, rfl⟩
  · rcases exec_cases h with hframe | ⟨f, -, rfl⟩
    · rw [hframe]
      exact ⟨rfl, rfl⟩
    · exact ⟨rfl, rfl⟩
  · exact ⟨rfl, rfl⟩

/-- `StopRequested` with nothing scheduled and n free choices taken. -/
structure State.WaitsAt (s : State) (n : Nat) : Prop where
  run : s.run = .stopRequested
  schedule : s.schedule = []
  oracle : s.oracle = n

/-- Where the next free choice is an exit, the run ends (log 7). -/
theorem State.WaitsAt.ended_of_exitsNow {s t : State} {n : Nat} (hs : s.WaitsAt n) (hexit : exitsNow n = true)
    (h : step s = .next t) : t.ended := by
  rw [← hs.oracle] at hexit
  simp only [step, hs.schedule, State.unscheduled, hs.run, hexit, if_true] at h
  cases h
  exact .inl (State.exit_run_of_stopRequested (s := s.choose) hs.run)

/-- Otherwise it ends by a crash or goes on, with one free choice taken. -/
theorem State.WaitsAt.next {s t : State} {n : Nat} (hs : s.WaitsAt n) (h : step s = .next t) :
    t.ended ∨ t.WaitsAt (n + 1) := by
  rcases step_run_of_stopRequested hs.run h with hrun | hended
  case inr => exact .inl hended
  cases hexit : exitsNow n with
  | true => exact .inl (hs.ended_of_exitsNow hexit h)
  | false =>
    have hmoves : cpuMoves s _ := .inr ⟨hs.schedule, .inr ⟨hs.run, hs.oracle ▸ hexit⟩, rfl⟩
    obtain ⟨hschedule, horacle⟩ := State.cycle_inputs (cpuMoves_step hmoves ▸ h)
    exact .inr ⟨hrun, hschedule.trans hs.schedule, horacle.trans (congrArg (· + 1) hs.oracle)⟩

section Unscheduled

variable {run : Nat → State} {o : Nat} (hsteps : ∀ n, step (run n) = .next (run (n + 1))) (hwaits : (run 0).WaitsAt o)

include hsteps hwaits

/-- A run with nothing scheduled ends, or takes one free choice a step. -/
theorem ends_or_waitsAt (n : Nat) : (∃ m, (run m).ended) ∨ (run n).WaitsAt (o + n) := by
  induction n with
  | zero => exact .inr hwaits
  | succ n ih =>
    rcases ih with hended | hn
    · exact .inl hended
    · exact (hn.next (hsteps n)).imp_left fun hended => ⟨n + 1, hended⟩

/-- The free choices come to an exit, which there always is (`exitsNow_recurs`). -/
theorem unscheduled_ends : ∃ m, (run m).ended := by
  obtain ⟨c, hoc, hexit⟩ := exitsNow_recurs o
  obtain ⟨n, rfl⟩ := Nat.exists_eq_add_of_le hoc
  rcases ends_or_waitsAt hsteps hwaits n with hended | hn
  · exact hended
  · exact ⟨n + 1, hn.ended_of_exitsNow hexit (hsteps n)⟩

end Unscheduled

/-- Settles O55: the three events by R275's rows; `StopRequested` by fairness of the exit, and by the free choices. -/
theorem lifecycleMovesTheRunState : Obligations.LifecycleMovesTheRunState := by
  refine ⟨fun s es => ⟨fun hs => ?_, fun hs => ?_, fun hs => ?_⟩, fun moves run k hfair hstop => hfair.ends hstop,
    fun run hsteps hschedule hstop => unscheduled_ends hsteps ⟨hstop, hschedule, rfl⟩⟩
  · rw [step_of_scheduled hs, agentStep, State.start_frame, State.start_run]
  · rw [step_of_scheduled hs, agentStep, State.stop_frame, State.stop_run]
  · rw [step_of_scheduled hs, agentStep, State.exit_frame, State.exit_run_eq]

end Sys2Proof.Machine
end

section
/-! Construction, the block's only reset: what it leaves in each cell, and that the invariants hold of it
(70_reset_and_hazards.md R270, 20_memory.md R67, R69). -/

namespace Sys2Proof.Machine

theorem Cell.atConstruction_eq (p : ResetPolicy) {w : Nat} :
    (Cell.atConstruction p : Cell w) = if p = .zero then .held 0 else .unwritten := by
  cases p <;> rfl

/-- The glyphs stand at 0x000..0x04F (R67). -/
theorem Memory.unlisted_glyph (c : Config) {a : Nat} (h : a < 80) : Memory.unlisted c a = .held c.fontData[a] := by
  rw [Memory.unlisted, dif_pos h]

theorem Memory.unlisted_rest (c : Config) {a : Nat} (hglyphs : 80 ≤ a) (ha : a < memSize) :
    Memory.unlisted c a = Cell.atConstruction c.resetPolicy := by
  rw [Memory.unlisted, dif_neg (Nat.not_lt.mpr hglyphs), if_pos ha]

/-- Construction writes no byte of memory. -/
theorem State.byteAt_construct (c : Config) (keys0 : Word) (a : Nat) :
    (State.construct c keys0).byteAt a = Memory.unlisted c a := rfl

theorem State.reg_construct (c : Config) (keys0 : Word) (x : Nibble) :
    (State.construct c keys0).reg x = Cell.atConstruction c.resetPolicy := by
  simp only [State.reg, State.construct, Vector.getElem_replicate]

/-- Settles O52: each register holds what the policy gives, memory what is not listed reads as. -/
theorem constructionLeaves : Obligations.ConstructionLeaves := by
  intro c keys0 a s
  simp only [← Cell.atConstruction_eq]
  exact ⟨fun hglyph => (State.byteAt_construct c keys0 a).trans (Memory.unlisted_glyph c hglyph),
    fun hglyphs ha => (State.byteAt_construct c keys0 a).trans (Memory.unlisted_rest c hglyphs ha),
    State.reg_construct c keys0, rfl, rfl, rfl, rfl, rfl, fun px py _ _ => Display.pixel_clear px py, rfl, rfl, rfl⟩

theorem State.reset_allHeld : State.reset.allHeld = true := by
  have hreg : ∀ x : Nibble, State.reset.reg x = .held 0 := State.reg_construct resetConfig resetKeys
  exact State.allHeld_iff.mpr ⟨rfl, fun x => State.not_lacks_v (hreg x), State.not_lacks_i (a := 0) rfl,
    State.not_lacks_dt (b := 0) rfl, Cell.ne_unwritten (b := 0) rfl⟩

theorem State.reset_safe : State.reset.safe = true := State.safe_of_run (r := .idle) rfl nofun

/-- Settles O53: no byte is listed, every register holds 0, and a block in `Idle` has no crash record. -/
theorem resetMeetsTheInvariants : Obligations.ResetMeetsTheInvariants :=
  ⟨Memory.wf_nil resetConfig, State.reset_allHeld, State.crashFits_of_safe State.reset_safe, State.reset_safe⟩

end Sys2Proof.Machine
end
